-- ==== Sys2Proof/Word.lean ====
section
/-! DEFINITION. The words of the machine: bytes, instruction words, general register values, identifiers.
An address is a `Nat`: abstract, with equality and range membership only (10_state.md R32, D22), so of no fixed width. A PE is named by a
`Nat`, its number. -/

namespace Sys2Proof

/-- One byte of physical memory. -/
abbrev Byte := BitVec 8

/-- One A64 instruction word (30_encoding.md R91). -/
abbrev Word := BitVec 32

/-- The value of a general register `Xt` (30_encoding.md R93). -/
abbrev XWord := BitVec 64

/-- An ASID or a VMID: always 16 bits in a tag (43_asid_vmid_size.md R200). -/
abbrev Ident := BitVec 16

/-- The value of a System register field of 10_state.md R29, zero-extended to its widest field. -/
abbrev FieldValue := BitVec 16

end Sys2Proof
end

