-- ==== Sys2Proof/Syntax.lean ====
section
/-! DEFINITION. The instructions: one constructor per row of spec/opcode_table.json (30_encoding.md R92). -/

namespace Sys2Proof

/-- The members of `TLBI ASIDE1*`. Each has one operand, the number `rt` of the general register `Xt`; 31 is XZR (R93). -/
inductive Instr where
  /-- `TLBI ASIDE1, Xt` (R242). -/
  | tlbiAside1 (rt : Nat)
  /-- `TLBI ASIDE1IS, Xt` (R243). -/
  | tlbiAside1is (rt : Nat)
  /-- `TLBI ASIDE1OS, Xt` (R244). -/
  | tlbiAside1os (rt : Nat)
  /-- `TLBI ASIDE1NXS, Xt` (R245). -/
  | tlbiAside1nxs (rt : Nat)
  /-- `TLBI ASIDE1ISNXS, Xt` (R248). -/
  | tlbiAside1isnxs (rt : Nat)
  /-- `TLBI ASIDE1OSNXS, Xt` (R249). -/
  | tlbiAside1osnxs (rt : Nat)
  deriving DecidableEq, Repr, Inhabited

/-- The number of the operand register. -/
def Instr.rt : Instr → Nat
  | .tlbiAside1 t => t
  | .tlbiAside1is t => t
  | .tlbiAside1os t => t
  | .tlbiAside1nxs t => t
  | .tlbiAside1isnxs t => t
  | .tlbiAside1osnxs t => t

end Sys2Proof
end

