-- ==== Sys2Proof/WellFormed.lean ====
section
/-! DEFINITION. When an instruction is one the encoding admits. -/

namespace Sys2Proof

/-- `t = word[4:0]` (30_encoding.md R93): the operand is one of X0 to X30 or XZR. -/
def rtWellFormed (rt : Nat) : Bool := decide (rt < 32)

/-- An instruction is well-formed when its one operand fits its field. -/
def Instr.wellFormed : Instr → Bool
  | .tlbiAside1 rt => rtWellFormed rt
  | .tlbiAside1is rt => rtWellFormed rt
  | .tlbiAside1os rt => rtWellFormed rt
  | .tlbiAside1nxs rt => rtWellFormed rt
  | .tlbiAside1isnxs rt => rtWellFormed rt
  | .tlbiAside1osnxs rt => rtWellFormed rt

end Sys2Proof
end

