-- ==== Sys2Proof/Decode.lean ====
section
/-! DEFINITION. The decoder, total on words, rejecting by name, and the encoder (30_encoding.md R91 to R95). -/

namespace Sys2Proof

/-- Why a word is not an instruction of this hardware (30_encoding.md R95). -/
inductive DecodeReject where
  /-- In the encodings reserved for IMPLEMENTATION DEFINED use, where lockdown functions may live (R94). -/
  | implementationDefined
  /-- A `TLBI` word that is no row of R92 (45_tlbi_aside1.md R251). -/
  | otherTlbMaintenance
  /-- Any other word. -/
  | notTlbInstruction
  deriving DecidableEq, Repr, Inhabited

/-- A row of the opcode map of R92: the word with `Rt = 0`, and the instruction. -/
structure OpcodeRow where
  pattern : Word
  instr : Nat → Instr

/-- Every row of R92 has this mask: all bits but `Rt` are fixed. -/
def opcodeMask : Word := 0xFFFFFFE0#32

/-- The opcode map of 30_encoding.md R92, column `match`. PRESUMED (G2), Log 20. -/
def opcodeRows : List OpcodeRow :=
  [ { pattern := 0xD5088740#32, instr := .tlbiAside1 },
    { pattern := 0xD5088340#32, instr := .tlbiAside1is },
    { pattern := 0xD5088140#32, instr := .tlbiAside1os },
    { pattern := 0xD5089740#32, instr := .tlbiAside1nxs },
    { pattern := 0xD5089340#32, instr := .tlbiAside1isnxs },
    { pattern := 0xD5089140#32, instr := .tlbiAside1osnxs } ]

/-- `t = word[4:0]` (R93). -/
def rtField (w : Word) : Nat := (w.extractLsb' 0 5).toNat

/-- The instruction of the first row of a map that a word fits: `word & 0xFFFFFFE0 = match`. -/
def findRow (w : Word) : List OpcodeRow → Option Instr
  | [] => none
  | r :: rs => if w &&& opcodeMask = r.pattern then some (r.instr (rtField w)) else findRow w rs

/-- The space of `SYS`, `SYSL` and System register words: bits 31 to 22 (R91). -/
def isSystemWord (w : Word) : Bool := w.extractLsb' 22 10 == 0b1101010100#10

/-- The field `op0` of R91. -/
def op0Field (w : Word) : BitVec 2 := w.extractLsb' 19 2

/-- The field `CRn` of R91. -/
def crnField (w : Word) : BitVec 4 := w.extractLsb' 12 4

/-- The encodings reserved for IMPLEMENTATION DEFINED use (R94): `op0` is 01 or 11 and `CRn` is 1011 or 1111. PRESUMED (G17), Log 28. -/
def isImplementationDefined (w : Word) : Bool :=
  isSystemWord w && (op0Field w == 0b01#2 || op0Field w == 0b11#2) && (crnField w == 0b1011#4 || crnField w == 0b1111#4)

/-- The `TLBI` space of R91: `L = 0`, `op0 = 01`, `CRn` is 1000 or 1001. PRESUMED (G2), Log 20. -/
def isTlbiWord (w : Word) : Bool :=
  isSystemWord w && !w.getLsbD 21 && op0Field w == 0b01#2 && (crnField w == 0b1000#4 || crnField w == 0b1001#4)

/-- The class of a word that is no row of R92. -/
def rejectClass (w : Word) : DecodeReject :=
  if isImplementationDefined w then .implementationDefined
  else if isTlbiWord w then .otherTlbMaintenance
  else .notTlbInstruction

/-- The decoder: the row of R92 the word fits, or the reason it fits none (R95: never a no-op). -/
def decode (w : Word) : Except DecodeReject Instr :=
  match findRow w opcodeRows with
  | some i => .ok i
  | none => .error (rejectClass w)

/-- A `SYS` word from its fields (R91): `1101010100 L=0 op0 op1 CRn CRm op2 Rt`. -/
def sysWord (op0 : BitVec 2) (op1 : BitVec 3) (crn crm : BitVec 4) (op2 : BitVec 3) (rt : Nat) : Word :=
  0b1101010100#10 ++ 0b0#1 ++ op0 ++ op1 ++ crn ++ crm ++ op2 ++ BitVec.ofNat 5 rt

/-- The encoder, from the field columns of R92. -/
def encode : Instr → Word
  | .tlbiAside1 rt => sysWord 0b01#2 0b000#3 0b1000#4 0b0111#4 0b010#3 rt
  | .tlbiAside1is rt => sysWord 0b01#2 0b000#3 0b1000#4 0b0011#4 0b010#3 rt
  | .tlbiAside1os rt => sysWord 0b01#2 0b000#3 0b1000#4 0b0001#4 0b010#3 rt
  | .tlbiAside1nxs rt => sysWord 0b01#2 0b000#3 0b1001#4 0b0111#4 0b010#3 rt
  | .tlbiAside1isnxs rt => sysWord 0b01#2 0b000#3 0b1001#4 0b0011#4 0b010#3 rt
  | .tlbiAside1osnxs rt => sysWord 0b01#2 0b000#3 0b1001#4 0b0001#4 0b010#3 rt

/-- The word whose low `nbits` bits are those of `w` and whose other bits are 0. -/
def tableWord (nbits w : Nat) : Word := BitVec.ofNat 32 (w % 2 ^ nbits)

/-- The instruction the decoder reads from a table row's bits, numbered as spec/opcode_table.json numbers them. -/
def decodeTableWord (nbits w : Nat) : Option Instr :=
  match decode (tableWord nbits w) with
  | .ok i => some i
  | .error _ => none

end Sys2Proof
end

