-- ==== Sys2Proof/Machine/Types.lean ====
section
/-! DEFINITION. The data the machine is made of: regimes, registers, context, TLB entries, requests, walks and events. All plain data. -/

namespace Sys2Proof.Machine

/-- The Exception levels (10_state.md R30, 60_exceptions.md R271). -/
inductive El where
  | el0 | el1 | el2 | el3
  deriving DecidableEq, Repr, Inhabited

/-- The Security states: exactly three (10_state.md R22, D24; Log 32). -/
inductive Sec where
  | nonSecure | secure | realm
  deriving DecidableEq, Repr, Inhabited

/-- The translation regimes EL1&0, EL2&0, EL2 and, from general knowledge, EL3 (10_state.md R22, D24; Log 32). -/
inductive Regime where
  | el10 | el20 | el2 | el3
  deriving DecidableEq, Repr, Inhabited

/-- The VA ranges of a two-privilege-level regime; `lower` is the `TTBR0_ELx` range (42_asid_vmid_tagging.md R164, G13). -/
inductive Half where
  | lower | upper
  deriving DecidableEq, Repr, Inhabited

/-- The translation stages (00_scope.md R13). -/
inductive Stage where
  | s1 | s2
  deriving DecidableEq, Repr, Inhabited

/-- What an entry holds information from (10_state.md R21). -/
inductive Contents where
  | s1Only | s2Only | s1s2
  deriving DecidableEq, Repr, Inhabited

/-- The kind of an access: carried to `Walk` and to a fault, not interpreted (40_tlb_caching.md R119). -/
inductive Access where
  | read | write | fetch
  deriving DecidableEq, Repr, Inhabited

/-- The Exception levels whose registers `TTBRn_ELx`, `TCR_ELx`, `TCR2_ELx` R29 gives: x in 1, 2. -/
inductive CtlEl where
  | el1 | el2
  deriving DecidableEq, Repr, Inhabited

/-- The Exception levels that have a `SCTLR_ELx` (R29): x in 1, 2, 3. Also the levels a reset can be taken to (R34). -/
inductive RegEl where
  | el1 | el2 | el3
  deriving DecidableEq, Repr, Inhabited

/-- The writable System register fields of 10_state.md R29, by name. The two read-only identification fields are
`idAsidBits` and `idVmidBits`. -/
inductive Field where
  /-- `SCTLR_ELx.M` -/
  | sctlrM (x : RegEl)
  /-- `TTBR0_ELx.ASID` (lower), `TTBR1_ELx.ASID` (upper) -/
  | asid (y : Half) (x : CtlEl)
  /-- `TTBR0_ELx.CnP` (lower), `TTBR1_ELx.CnP` (upper) -/
  | cnp (y : Half) (x : CtlEl)
  /-- `TTBR0_EL3.CnP` (R224; Log 19) -/
  | cnpEl3
  /-- `VTTBR_EL2.CnP` (G10) -/
  | vttbrCnp
  /-- `TCR_ELx.A1` -/
  | a1 (x : CtlEl)
  /-- `TCR_ELx.AS` -/
  | asSize (x : CtlEl)
  /-- `TCR2_ELx.A2` -/
  | a2 (x : CtlEl)
  /-- `TCR2_ELx.FNG0` (lower), `TCR2_ELx.FNG1` (upper) -/
  | fng (y : Half) (x : CtlEl)
  /-- `VTTBR_EL2.VMID` -/
  | vmid
  /-- `VTCR_EL2.VS` -/
  | vs
  deriving DecidableEq, Repr, Inhabited

/-- The fields of one VA range at one controlling Exception level. -/
structure HalfRegs where
  asid : BitVec 16 := 0
  cnp : BitVec 1 := 0
  fng : BitVec 1 := 0
  deriving DecidableEq, Repr, Inhabited

/-- The fields of `SCTLR_ELx`, `TTBRn_ELx`, `TCR_ELx` and `TCR2_ELx` for one x in 1, 2. -/
structure ElRegs where
  sctlrM : BitVec 1 := 0
  lower : HalfRegs := {}
  upper : HalfRegs := {}
  a1 : BitVec 1 := 0
  asSize : BitVec 1 := 0
  a2 : BitVec 1 := 0
  deriving DecidableEq, Repr, Inhabited

/-- `regs(pe)`: the stored System register fields of one PE (10_state.md R29). -/
structure Regs where
  el1 : ElRegs := {}
  el2 : ElRegs := {}
  el3SctlrM : BitVec 1 := 0
  el3Cnp : BitVec 1 := 0
  vmid : BitVec 16 := 0
  vttbrCnp : BitVec 1 := 0
  vs : BitVec 1 := 0
  deriving DecidableEq, Repr, Inhabited

/-- The context predicates of 10_state.md R30, with `TLBI_ALLOWED` (R250) and the Effective values that differ from
their field (R6, `Eff`; Log 17): inputs from the surrounding machine. Each is an input of its own: DESIGN CHOICE, Log 44, 45. -/
structure Context where
  el : El := .el3
  sec : Sec := .nonSecure
  el2Enabled : Bool := false
  regime : Regime := .el3
  stage2Enabled : Bool := false
  el2Aarch64 : Bool := true
  v8_32 : List Regime := []
  tlbiAllowed : Bool := true
  eff : List (Field × FieldValue) := []
  deriving DecidableEq, Repr, Inhabited

/-- One PE: its fields, its context, the general register values the operand `Xt` reads (R27; Log 5), and the numbers
of its Inner and Outer Shareable domains (R6; Log 1). -/
structure Pe where
  regs : Regs := {}
  ctx : Context := {}
  x : Vector XWord 31 := Vector.replicate 31 0
  inner : Nat := 0
  outer : Nat := 0
  deriving DecidableEq, Repr, Inhabited

/-- What a hit returns: output address of the first input address covered, attributes, permissions (R21). -/
structure Payload where
  oa : Nat
  attrs : Nat
  perms : Nat
  deriving DecidableEq, Repr, Inhabited

/-- The fault kinds of `Walk` (10_state.md R33); `permission` and `other` are its placeholders. -/
inductive WalkFault where
  | translation | addressSize | accessFlag | permission | other
  deriving DecidableEq, Repr, Inhabited

/-- GHOST of the model, read by no operation (Log 33): what an entry was created from, so that invariant
NO_FAULTING_ENTRY (R23) can be stated. -/
inductive EntrySource where
  /-- By `T_FILL`, from translation table entries that generate these faults, if any. -/
  | filled (generates : List WalkFault)
  /-- By a reset with `RESET_TLB_STATE = unknown`. -/
  | unknownReset
  deriving DecidableEq, Repr, Inhabited

/-- The memory of one address space: (address, byte) pairs in one canonical form, addresses strictly rising (`Memory.wf`; Log 10). -/
abbrev Memory := List Host.Cell

/-- Physical memory: the output address space, in which translation tables are read, exists once per Security state (10_state.md R32). -/
structure Spaces where
  nonSecure : Memory := []
  secure : Memory := []
  realm : Memory := []
  deriving DecidableEq, Repr, Inhabited

/-- A snapshot of System register fields with their Effective values (R24). -/
abbrev Snapshot := List (Field × FieldValue)

/-- `TLBEntry` of 10_state.md R21. -/
structure TlbEntry where
  owner : Nat
  regime : Regime
  sec : Sec
  contents : Contents
  final : Bool
  iaBase : Nat
  iaSize : Nat
  half : Option Half
  asid : Option Ident
  vmid : Option Ident
  payload : Payload
  ctl : Snapshot
  cnp : Bool
  locked : Bool
  source : EntrySource
  deriving DecidableEq, Repr, Inhabited

/-- The data of `ScopeASIDE1(pe, a)` (45_tlbi_aside1.md R240), fixed at issue (R241): the record's `pred` as plain data. -/
structure Scope where
  asid : Ident
  regime : Regime
  sec : Sec
  vmid : Ident
  deriving DecidableEq, Repr, Inhabited

/-- A record of `PENDING` (10_state.md R26). -/
structure Pending where
  issuer : Nat
  targets : List Nat
  scope : Scope
  deriving DecidableEq, Repr, Inhabited

/-- A translation request (40_tlb_caching.md R119). -/
structure Request where
  pe : Nat
  regime : Regime
  sec : Sec
  ia : Nat
  access : Access
  deriving DecidableEq, Repr, Inhabited

/-- One translation table entry a walk read (10_state.md R33). `descriptor` is opaque but for the payload that caching it
gives; `generates` is the fault it generates, if any (Log 11). -/
structure WalkLevel where
  stage : Stage
  level : Nat
  final : Bool
  iaBase : Nat
  iaSize : Nat
  nG : Bool
  nsTable : Bool
  descriptor : Payload
  generates : Option WalkFault
  deriving DecidableEq, Repr, Inhabited

/-- How a walk ended (10_state.md R33). A fault and an external abort name the index, in the list of levels, of the read they ended;
an abort also names the levels that this read was needed to evaluate (40_tlb_caching.md R115, R120; Log 11). -/
inductive WalkEnd where
  | ok (result : Payload)
  | fault (kind : WalkFault) (stage : Stage) (level : Nat) (readIndex : Nat)
  | externalAbort (stage : Stage) (level : Nat) (determined : Bool) (readIndex : Nat) (neededFor : List Nat)
  deriving DecidableEq, Repr, Inhabited

/-- A walk: the levels it read, in the order it read them, outermost first (R33), and how it ended. -/
structure Walk where
  levels : List WalkLevel
  finish : WalkEnd
  deriving DecidableEq, Repr, Inhabited

/-- Where a walk starts: from the base registers, or, for a stage 2 lookup of R119, at the stage 1 output address. -/
inductive WalkStart where
  | root
  | stage2Of (oa : Nat)
  deriving DecidableEq, Repr, Inhabited

/-- Which levels of a walk an entry caches (40_tlb_caching.md R113, "according to what the implementation combines"). -/
inductive FillPick where
  /-- One level alone: `S1Only` or `S2Only`. -/
  | single (i : Nat)
  /-- A stage 1 level and a stage 2 level combined: `S1S2`. -/
  | combined (i1 i2 : Nat)
  deriving DecidableEq, Repr, Inhabited

/-- The choices of one walk: which usable cached entries it uses (D6), by their place in `TLBS`, and which levels it then
caches (R120, `may`). -/
structure WalkPlan where
  entries : List Nat := []
  fills : List FillPick := []
  deriving DecidableEq, Repr, Inhabited

/-- The alternatives of `ConflictOutcome` (40_tlb_caching.md R123); members are named by their place in `M`. -/
inductive ConflictPick where
  | abort
  | member (k : Nat)
  | mix (oa attrs perms : Nat) (ctl : List Nat)
  deriving DecidableEq, Repr, Inhabited

/-- The choice `HIT`, `MULTI` or `MISS` of `T_LOOKUP` (R120). -/
inductive StageChoice where
  | hit
  | multi (c : ConflictPick)
  | miss (m : WalkPlan)
  deriving DecidableEq, Repr, Inhabited

/-- The choices of a lookup: for the input address, and for the stage 1 output address where an `S1Only` entry is followed by
an `S2Only` lookup (R119). -/
structure LookupChoice where
  first : StageChoice := .hit
  second : StageChoice := .hit
  deriving DecidableEq, Repr, Inhabited

/-- `T_LOCKED_UPDATE` (41_tlb_lockdown.md R145): an address the entry covers, the access, the walk's cached entries, the level it
takes, and whether the entry is removed where the walk gives nothing to cache (IMPLEMENTATION DEFINED). -/
structure LockedUpdate where
  ia : Nat
  access : Access
  entries : List Nat
  pick : FillPick
  removeOtherwise : Bool
  deriving DecidableEq, Repr, Inhabited

/-- The fate of a locked entry in the scope of a completed invalidation: IMPLEMENTATION DEFINED (R142, R246). -/
inductive LockedFate where
  | remove
  | keep
  | update (u : LockedUpdate)
  deriving DecidableEq, Repr, Inhabited

/-- The elementary operations of `LOCKDOWN_MECHANISM` (41_tlb_lockdown.md R141, R146), which set a lock, clear it, add an entry or remove
one; an entry is named by its place in `TLBS`. A lockdown function is a sequence of them (Log 28). -/
inductive LockdownOp where
  /-- `L_UNLOCK_ALL(pe)` -/
  | unlockAll (p : Nat)
  /-- `L_PREFETCH(pe, ia, level)`; the "TLB level" is ignored (R146) -/
  | prefetch (p : Nat) (regime : Regime) (sec : Sec) (ia : Nat) (access : Access) (entries : List Nat) (pick : FillPick)
  /-- `L_LOCK(e)` -/
  | lock (k : Nat)
  /-- `L_UNLOCK(e)` -/
  | unlock (k : Nat)
  /-- "or remove one" (R141) -/
  | remove (k : Nat)
  deriving DecidableEq, Repr, Inhabited

/-- What `T_CTX` changes (10_state.md R31): a field of R29, or a predicate of R30. -/
inductive CtxChange where
  | field (f : Field) (v : FieldValue)
  | el (e : El)
  | sec (c : Sec)
  | el2Enabled (b : Bool)
  | regime (r : Regime)
  | stage2Enabled (b : Bool)
  | el2Aarch64 (b : Bool)
  | v8_32 (rs : List Regime)
  | tlbiAllowed (b : Bool)
  | eff (m : List (Field × FieldValue))
  deriving DecidableEq, Repr, Inhabited

/-- What a reset draws (10_state.md R35, 70_reset_and_hazards.md R290): every field, the context, the set `S` of arbitrary
entries, and the `locked` bits of entries that stay. -/
structure ResetDraw where
  regs : Regs
  ctx : Context
  entries : List TlbEntry
  locks : List Bool
  deriving DecidableEq, Repr, Inhabited

/-- The acts of the agents of 00_scope.md R12, each with its choices and drawn values (Log 7, Log 8). -/
inductive Event where
  /-- PE `p` executes the instruction word `w`. -/
  | instr (p : Nat) (w : Word)
  /-- `T_LOOKUP` by PE `p` for its regime in use and Security state (R119, R120). -/
  | lookup (p : Nat) (ia : Nat) (access : Access) (choice : LookupChoice)
  /-- `T_FILL` by a walk no lookup asked for (R113). -/
  | fill (p : Nat) (regime : Regime) (sec : Sec) (ia : Nat) (access : Access) (plan : WalkPlan)
  /-- `T_EVICT` of the entry at place `k` (R118). -/
  | evict (k : Nat)
  /-- `T_INVAL_COMPLETE(k)`, with the fates of the locked entries in scope (R246). -/
  | complete (k : Nat) (fates : List LockedFate)
  /-- `SYNC(p)`, with the fates for each record it waits for (R247). -/
  | sync (p : Nat) (fates : List (List LockedFate))
  /-- `T_CTX` (R31). -/
  | ctx (p : Nat) (c : CtxChange)
  /-- The surrounding machine changes the general register `x[t]` of PE `p` (R27; Log 5). -/
  | xreg (p : Nat) (t : Nat) (v : XWord)
  /-- `MemWrite(addr, n, v)` by any agent (R8, R63), in the output address space of a Security state (R32). -/
  | memWrite (sec : Sec) (addr : Nat) (n : Nat) (v : Nat)
  /-- `T_RESET(p, el)` (R290). -/
  | reset (p : Nat) (el : RegEl) (draw : ResetDraw)
  /-- `INVALIDATION_ROUTINE(p)`, which ends with its own `SYNC` (R293). -/
  | invalidationRoutine (p : Nat) (fates : List (List LockedFate))
  /-- One operation of the lockdown mechanism (R146). -/
  | lockdown (op : LockdownOp)
  /-- An exception due to TLB lockdown on PE `p` (R147, R265). -/
  | lockdownException (p : Nat)
  deriving DecidableEq, Repr, Inhabited

end Sys2Proof.Machine
end

