-- ==== Sys2Proof/Config.lean ====
section
/-! DEFINITION. What an implementation fixes (00_scope.md R6), and the free values and abstract functions, each without a body. -/

namespace Sys2Proof

open Sys2Proof.Machine

/-- An IMPLEMENTATION DEFINED identifier size (43_asid_vmid_size.md R200, R205). -/
inductive IdSize where
  | bits8 | bits16
  deriving DecidableEq, Repr, Inhabited

/-- `RESET_TLB_STATE` (R6, R35). -/
inductive ResetTlbState where
  | unknown | empty | preserved
  deriving DecidableEq, Repr, Inhabited

/-- `LOCKDOWN_EXC_ROUTE` (R6, R147). -/
inductive LockdownRoute where
  | el1DataAbort | el2HypTrap
  deriving DecidableEq, Repr, Inhabited

/-- `BYTE_ORDER` (R6, R62). -/
inductive ByteOrder where
  | little | big
  deriving DecidableEq, Repr, Inhabited

/-- The implementation parameters of 00_scope.md R6 that are data. No step writes them, and a statement over all states holds for every
value (Log 1). The value beside a parameter is the one `State.reset` has; each is R6's default, or that of the conventions of
95_test_vectors.md, or a DESIGN CHOICE of this model, as its docstring says. -/
structure Impl where
  /-- `ASID_BITS`: OPEN in R6; the convention of 95_test_vectors.md. -/
  asidBits : IdSize := .bits16
  /-- `VMID_BITS`: OPEN in R6; the convention of 95_test_vectors.md. -/
  vmidBits : IdSize := .bits16
  /-- `RESET_TLB_STATE`: R6's default. -/
  resetTlbState : ResetTlbState := .unknown
  /-- `RESET_NEEDS_ROUTINE`: R6's default. -/
  resetNeedsRoutine : Bool := true
  /-- `LOCKDOWN_SUPPORTED`: R6's default. -/
  lockdownSupported : Bool := false
  /-- `LOCKDOWN_EXC_ROUTE`: OPEN in R6 (R147). DESIGN CHOICE, Log 1. -/
  lockdownRoute : LockdownRoute := .el1DataAbort
  /-- EL2 in `IMPLEMENTED_ELS`: OPEN in R6. DESIGN CHOICE, Log 1. -/
  hasEl2 : Bool := true
  /-- EL3 in `IMPLEMENTED_ELS`: OPEN in R6. DESIGN CHOICE, Log 1. -/
  hasEl3 : Bool := true
  /-- The Exception levels of `IMPLEMENTED_ELS` "which use AArch64": OPEN in R6. DESIGN CHOICE, Log 49. -/
  aarch64Els : List El := [.el0, .el1, .el2, .el3]
  /-- `IMPLEMENTED_SECURITY_STATES`: OPEN in R6. DESIGN CHOICE, Log 1. -/
  securityStates : List Sec := [.nonSecure, .secure, .realm]
  /-- `HAS_TTCNP`: OPEN in R6; the convention of 95_test_vectors.md. -/
  hasTtcnp : Bool := true
  /-- `HAS_CSV2`: OPEN in R6; read by no rule. DESIGN CHOICE, Log 34. -/
  hasCsv2 : Bool := true
  /-- `HAS_TCR2`: OPEN in R6; the convention of 95_test_vectors.md. -/
  hasTcr2 : Bool := true
  /-- `HAS_AARCH32_VMSA`: OPEN in R6. DESIGN CHOICE, Log 1. -/
  hasAarch32Vmsa : Bool := true
  /-- The members of `CACHEABLE_FIELDS` beside `TTBR_ELx.CnP`, which is always one (R24, I_YVLVD): OPEN in R6. DESIGN CHOICE, Log 18. -/
  moreCacheable : List Field := []
  /-- `VA_BITS`: OPEN in R6; read by no rule. DESIGN CHOICE, Log 34. -/
  vaBits : Nat := 48
  /-- `PA_BITS`: OPEN in R6; read by no rule. DESIGN CHOICE, Log 34. -/
  paBits : Nat := 48
  /-- `BYTE_ORDER`: OPEN in R6 (R62, D12). DESIGN CHOICE, Log 1. -/
  byteOrder : ByteOrder := .little
  /-- `FILL_OUT_OF_CONTEXT`: R6's value (D2; Log 30). -/
  fillOutOfContext : Bool := false
  /-- The Outer Shareable TLB maintenance feature that the `OS` rows of R92 need. DESIGN CHOICE, Log 23. -/
  hasTlbiOs : Bool := true
  /-- The XS attribute feature that the `NXS` rows of R92 need. DESIGN CHOICE, Log 23. -/
  hasXs : Bool := true
  deriving DecidableEq, Repr, Inhabited

/-- `Walk` (10_state.md R33): abstract; assumed of it only that it depends on its arguments (Log 11). The list of entries is what
the walk uses of `TLBS` (D6). -/
opaque Config.walk (impl : Impl) (regs : Regs) (ctx : Context) (mem : Spaces) (entries : List TlbEntry) (start : WalkStart)
    (req : Request) : Walk

/-- The stage 2 input addresses that a walk from the base registers needs translated, for its table reads and for its stage 1 output
(42_asid_vmid_tagging.md R173, 40_tlb_caching.md R121 `ia'`), when it may use these entries: part of the abstract `Walk` interface
(Log 11). -/
opaque Config.stage2Inputs (impl : Impl) (regs : Regs) (ctx : Context) (mem : Spaces) (entries : List TlbEntry) (req : Request) : List Nat

/-- `HalfOf` (42_asid_vmid_tagging.md R164): which VA range an address lies in; part of the abstract `Walk` interface (Log 12). -/
opaque Config.halfOf (regime : Regime) (va : Nat) : Half

/-- The input range, first address and size, that a stage 1 level and a stage 2 level cover together (R113; Log 13). -/
opaque Config.combinedRange (l1 l2 : WalkLevel) : Nat × Nat

/-- The payload that stage 1 and stage 2 information yield together (R113, R119; Log 13). -/
opaque Config.combinedPayload (p1 p2 : Payload) : Payload

/-- The output address that an entry of this payload and input range gives an input address it covers: addresses are abstract, with
equality and range membership only (10_state.md R32; Log 13). -/
opaque Config.outputOf (payload : Payload) (iaBase iaSize ia : Nat) : Nat

/-- The stage 1 output address while stage 1 is disabled and stage 2 applies: not in the source (N28; Log 14). -/
opaque Config.disabledStage1Oa (req : Request) : Nat

/-- What `LOCKDOWN_MECHANISM` makes of a word in the reserved encodings that PE `p` executes: a function of the registers, of `TLBS`
and of the word and its operand value, to the sequence of operations that make the new `TLBS`, or no meaning (30_encoding.md R94,
41_tlb_lockdown.md R141, R146; Log 28). -/
opaque Config.lockdownWord (p : Nat) (pes : List Pe) (tlbs : List TlbEntry) (w : Word) (operand : XWord) : Option (List LockdownOp)

/-- FREE VALUE: the `n`-th act of the environment (Log 7). -/
opaque Config.environment (n : Nat) : Event

/-- FREE VALUE: the UNKNOWN contents of the TLB after the reset that `State.reset` stands for (R35, P9; Log 6). -/
opaque Config.resetEntries : List TlbEntry

end Sys2Proof
end

