-- ==== Sys2Proof/Machine/Entry.lean ====
section
/-! DEFINITION. What a reset with `RESET_TLB_STATE = unknown` leaves of an arbitrary entry (10_state.md R35, 70_reset_and_hazards.md R290). -/

namespace Sys2Proof.Machine

/-- An arbitrary entry as a member of the set `S` of R290: owned by the reset PE, with `cnp = false`; it covers at least one byte
(R21, "> 0") and is locked only where lockdown exists (R25). Everything else is as drawn. Log 27. -/
def unknownEntry (impl : Impl) (p : Nat) (e : TlbEntry) : TlbEntry :=
  { e with
    owner := p
    cnp := false
    iaSize := max 1 e.iaSize
    locked := e.locked && impl.lockdownSupported
    source := .unknownReset }

end Sys2Proof.Machine
end

