-- ==== Sys2Proof/Machine/State.lean ====
section
/-! DEFINITION. The state as plain data, the faults and refusals, the one-field updates, and the state after reset. -/

namespace Sys2Proof.Machine

/-- Every fault, abort and exception of 60_exceptions.md R261, with the placeholders of `Walk` (10_state.md R33). A raise ends the
lookup in progress and changes nothing but the recorded answer (R260); no step of the machine stops with a fault (Log 9). -/
inductive Fault where
  /-- Translation fault: raised by `T_LOOKUP` on the MISS path when `Walk` returns it (R262). Safe. -/
  | translation (req : Request) (stage : Stage) (level : Nat)
  /-- Address size fault: raised as the Translation fault is (R262). Safe. -/
  | addressSize (req : Request) (stage : Stage) (level : Nat)
  /-- Access flag fault: raised as the Translation fault is (R262). Safe. -/
  | accessFlag (req : Request) (stage : Stage) (level : Nat)
  /-- A permission fault of `Walk` (R33, placeholder): raised by `T_LOOKUP` on the MISS path. Safe. -/
  | permission (req : Request) (stage : Stage) (level : Nat)
  /-- Any other fault of `Walk` (R33, placeholder): raised by `T_LOOKUP` on the MISS path. Safe. -/
  | otherWalkFault (req : Request) (stage : Stage) (level : Nat)
  /-- Synchronous external abort on the translation table walk: raised by `T_LOOKUP` on the MISS path (R263). Safe. -/
  | externalAbortOnWalk (req : Request) (stage : Stage) (level : Nat)
  /-- TLB conflict abort: raised by `T_LOOKUP` when two or more usable entries match (R264). Safe: permitted, never required. -/
  | tlbConflictAbort (req : Request)
  /-- Exception due to TLB lockdown, routed to EL1 as a Data Abort exception (R265): raised by the lockdown mechanism. Safe. -/
  | lockdownDataAbortEl1 (p : Nat)
  /-- Exception due to TLB lockdown, routed to EL2 as a Hyp Trap exception (R265): raised by the lockdown mechanism. Safe. -/
  | lockdownHypTrapEl2 (p : Nat)
  deriving DecidableEq, Repr

/-- Why the model has no meaning for a stimulus. Every refusal is safe: nothing can be proved past it. -/
inductive Refusal where
  /-- Raised by `exec` for an instruction with no meaning yet; no arm does. Safe. -/
  | notModelled (mnemonic : String)
  /-- Raised by `step` for a word that is no row of 30_encoding.md R92 (R95). Safe. -/
  | notTlbInstruction (w : Word)
  /-- Raised by `step` for a `TLBI` word that is no row of R92 (45_tlbi_aside1.md R251). Safe. -/
  | otherTlbMaintenance (w : Word)
  /-- Raised by `step` for a word in the reserved IMPLEMENTATION DEFINED encodings that the lockdown mechanism gives no meaning (R94). Safe. -/
  | implementationDefinedEncoding (w : Word)
  /-- Raised by an instruction where `TLBI_ALLOWED` is false (R250). Safe. -/
  | tlbiNotAllowed
  /-- Raised by an `OS` or `NXS` instruction whose feature is absent: the word is then not a `TLBI` instruction (R92). Safe. -/
  | featureAbsent
  /-- Raised by a lockdown operation where `LOCKDOWN_SUPPORTED` is false (R141, R148). Safe. -/
  | lockdownNotSupported
  /-- Raised by a lockdown exception outside the conditions of R265. Safe. -/
  | lockdownExceptionUnspecified
  /-- Raised by an event of a PE that does not exist (`N_PES`, R6). Safe. -/
  | noSuchPe (p : Nat)
  /-- Raised by a reset or a context change to an Exception level or Security state that is not implemented, and by a write to the
  memory of such a Security state (R6, R32). The model's choice, Log 44, 27, 10. Safe. -/
  | notImplemented
  deriving DecidableEq, Repr

/-- How a translation was obtained: the model's own record, so that a claim can name the entry (Log 9). -/
inductive Via where
  /-- HIT on one entry. -/
  | hit (e : TlbEntry)
  /-- HIT on an `S1Only` entry, then on an `S2Only` entry for its output (R119). -/
  | pair (e1 e2 : TlbEntry)
  /-- MISS: a walk. -/
  | walk
  /-- HIT on an `S1Only` entry, then a stage 2 walk of its output. -/
  | walkAfter (e1 : TlbEntry)
  /-- A result drawn from several matching entries (R123). -/
  | conflict
  /-- HIT on an `S1Only` entry, then a result drawn from several `S2Only` entries that match its output (Log 15). -/
  | conflictAfter (e1 : TlbEntry)
  deriving DecidableEq, Repr

/-- The result of a lookup: the payload, and the control field values the translation behaves under (R24, R222). -/
structure Translation where
  payload : Payload
  ctl : Snapshot
  via : Via
  deriving DecidableEq, Repr

/-- The answer of a `T_LOOKUP` (40_tlb_caching.md R120) or of a lockdown exception (R265). -/
inductive Answer where
  /-- Every applicable stage is disabled: what follows is the surrounding machine's (R120, N28). -/
  | untranslated (req : Request)
  | translated (req : Request) (t : Translation)
  | faulted (f : Fault)
  deriving DecidableEq, Repr

/-- The state of the modelled system (10_state.md R20), with the implementation parameters and the model's own fields
(INVENTORY.md, "State"). -/
structure State where
  /-- The implementation parameters (00_scope.md R6); no step writes them. -/
  impl : Impl
  /-- The PEs: fields of R29 and context of R30, by PE number. -/
  pes : List Pe
  /-- `TLBS` (R21), in no order that has a meaning; equal records are several members (Log 42). -/
  tlbs : List TlbEntry
  /-- `PENDING` (R26). -/
  pending : List Pending
  /-- Physical memory (R20 e), one space per Security state (R32). -/
  mem : Spaces
  /-- Model's own: the PE whose instruction is executed. -/
  cur : Nat
  /-- Model's own: the answer of the last lookup. -/
  answer : Option Answer
  /-- Model's own: what the agents do next. -/
  agenda : List Event
  /-- Model's own: how many events came from `Config.environment`. -/
  draws : Nat
  deriving DecidableEq, Repr

/-- The PE of a number, if it exists. -/
def State.pe? (s : State) (p : Nat) : Option Pe := s.pes[p]?

/-- The update of `TLBS`. -/
def State.withTlbs (s : State) (es : List TlbEntry) : State := { s with tlbs := es }

/-- The update of `PENDING`. -/
def State.withPending (s : State) (rs : List Pending) : State := { s with pending := rs }

/-- The update of one PE. -/
def State.withPe (s : State) (p : Nat) (pe : Pe) : State := { s with pes := s.pes.set p pe }

/-- The update of memory. -/
def State.withMem (s : State) (m : Spaces) : State := { s with mem := m }

/-- The update of the executing PE. -/
def State.withCur (s : State) (p : Nat) : State := { s with cur := p }

/-- The update of the recorded answer. -/
def State.withAnswer (s : State) (a : Answer) : State := { s with answer := some a }

/-- The update of the agenda. -/
def State.withAgenda (s : State) (es : List Event) : State := { s with agenda := es }

/-- The update of the draw counter. -/
def State.withDraws (s : State) (n : Nat) : State := { s with draws := n }

/-- The PEs at `State.reset`: two, in one Inner and one Outer Shareable domain, every field 0. DESIGN CHOICE, Log 2, 3, 4, 5. -/
def resetPes : List Pe := [{}, {}]

/-- The entries at `State.reset`: UNKNOWN (R35), drawn free, each owned by a PE that exists. Log 6. -/
def resetTlbs : List TlbEntry :=
  Config.resetEntries.map fun e => unknownEntry {} (if e.owner < resetPes.length then e.owner else 0) e

/-- The machine right after reset: both PEs reset to EL3, so `SCTLR_EL3.M = 0` (10_state.md R35); `TLBS` UNKNOWN; nothing pending,
nothing listed in memory, nothing on the agenda. Every other value is the model's, but for the parameters that R6 gives (Log 1 to 7). -/
def State.reset : State where
  impl := {}
  pes := resetPes
  tlbs := resetTlbs
  pending := []
  mem := {}
  cur := 0
  answer := none
  agenda := []
  draws := 0

end Sys2Proof.Machine
end

