-- ==== Sys2Proof/Machine/Flags.lean ====
section
/-! DEFINITION. The control fields of System registers: reading and writing them, Effective values, and the enables they give. This
hardware has no arithmetic flag (10_state.md R28). -/

namespace Sys2Proof.Machine

/-- The registers of one controlling Exception level. -/
def Regs.ctl (r : Regs) : CtlEl → ElRegs
  | .el1 => r.el1
  | .el2 => r.el2

/-- The update of the registers of one controlling Exception level. -/
def Regs.setCtl (r : Regs) (x : CtlEl) (e : ElRegs) : Regs :=
  match x with
  | .el1 => { r with el1 := e }
  | .el2 => { r with el2 := e }

/-- The fields of one VA range. -/
def ElRegs.half (r : ElRegs) : Half → HalfRegs
  | .lower => r.lower
  | .upper => r.upper

/-- The update of the fields of one VA range. -/
def ElRegs.setHalf (r : ElRegs) (y : Half) (h : HalfRegs) : ElRegs :=
  match y with
  | .lower => { r with lower := h }
  | .upper => { r with upper := h }

/-- The width of a field (10_state.md R29, column "width"). -/
def fieldWidth : Field → Nat
  | .asid _ _ => 16
  | .vmid => 16
  | _ => 1

/-- A value cut to the width of a field. -/
def fieldTrunc (f : Field) (v : FieldValue) : FieldValue := (v.setWidth (fieldWidth f)).setWidth 16

/-- The stored value of a field. -/
def Regs.get (r : Regs) : Field → FieldValue
  | .sctlrM .el1 => r.el1.sctlrM.setWidth 16
  | .sctlrM .el2 => r.el2.sctlrM.setWidth 16
  | .sctlrM .el3 => r.el3SctlrM.setWidth 16
  | .asid y x => ((r.ctl x).half y).asid
  | .cnp y x => ((r.ctl x).half y).cnp.setWidth 16
  | .cnpEl3 => r.el3Cnp.setWidth 16
  | .vttbrCnp => r.vttbrCnp.setWidth 16
  | .a1 x => (r.ctl x).a1.setWidth 16
  | .asSize x => (r.ctl x).asSize.setWidth 16
  | .a2 x => (r.ctl x).a2.setWidth 16
  | .fng y x => ((r.ctl x).half y).fng.setWidth 16
  | .vmid => r.vmid
  | .vs => r.vs.setWidth 16

/-- `regs(pe).REG.FIELD <- v` (10_state.md R31), the value cut to the field's width. -/
def Regs.set (r : Regs) (f : Field) (v : FieldValue) : Regs :=
  match f with
  | .sctlrM .el1 => r.setCtl .el1 { r.ctl .el1 with sctlrM := v.setWidth 1 }
  | .sctlrM .el2 => r.setCtl .el2 { r.ctl .el2 with sctlrM := v.setWidth 1 }
  | .sctlrM .el3 => { r with el3SctlrM := v.setWidth 1 }
  | .asid y x => r.setCtl x ((r.ctl x).setHalf y { (r.ctl x).half y with asid := v })
  | .cnp y x => r.setCtl x ((r.ctl x).setHalf y { (r.ctl x).half y with cnp := v.setWidth 1 })
  | .cnpEl3 => { r with el3Cnp := v.setWidth 1 }
  | .vttbrCnp => { r with vttbrCnp := v.setWidth 1 }
  | .a1 x => r.setCtl x { r.ctl x with a1 := v.setWidth 1 }
  | .asSize x => r.setCtl x { r.ctl x with asSize := v.setWidth 1 }
  | .a2 x => r.setCtl x { r.ctl x with a2 := v.setWidth 1 }
  | .fng y x => r.setCtl x ((r.ctl x).setHalf y { (r.ctl x).half y with fng := v.setWidth 1 })
  | .vmid => { r with vmid := v }
  | .vs => { r with vs := v.setWidth 1 }

/-- Whether the feature a field belongs to is implemented: `HAS_TCR2` and `HAS_TTCNP` (00_scope.md R6, D10). -/
def fieldPresent (impl : Impl) : Field → Bool
  | .a2 _ => impl.hasTcr2
  | .fng _ _ => impl.hasTcr2
  | .cnp _ _ => impl.hasTtcnp
  | .cnpEl3 => impl.hasTtcnp
  | .vttbrCnp => impl.hasTtcnp
  | _ => true

/-- A direct read of a field: 0 where its feature is absent (D10). -/
def regRead (impl : Impl) (r : Regs) (f : Field) : FieldValue :=
  if fieldPresent impl f then r.get f else 0

/-- The fields that come with a feature (D10). -/
def featureFields : List Field :=
  [.a2 .el1, .a2 .el2, .fng .lower .el1, .fng .upper .el1, .fng .lower .el2, .fng .upper .el2] ++
  [.cnp .lower .el1, .cnp .upper .el1, .cnp .lower .el2, .cnp .upper .el2, .cnpEl3, .vttbrCnp]

/-- `regs(pe)` as the machine's abstract functions are given it: the fields of absent features are 0 (00_scope.md R6, R8, D10). -/
def Regs.asRead (r : Regs) (impl : Impl) : Regs :=
  (featureFields.filter fun f => !fieldPresent impl f).foldl (fun r f => r.set f 0) r

/-- The Exception level uses AArch64, by the implementation (R6, `IMPLEMENTED_ELS`). -/
def usesAarch64 (impl : Impl) (e : El) : Bool := impl.aarch64Els.contains e

/-- The context as the abstract functions are given it: no Effective value for a field of an absent feature, VMSAv8-32 only where such
translations exist, and EL2 using AArch64 only where the implementation has it so (R6, D10; Log 49). -/
def Context.asRead (c : Context) (impl : Impl) : Context :=
  { c with
    eff := c.eff.filter fun x => fieldPresent impl x.1
    el2Aarch64 := usesAarch64 impl .el2 && c.el2Aarch64
    v8_32 := if impl.hasAarch32Vmsa then c.v8_32 else [] }

/-- A PE as the abstract functions are given it. -/
def Pe.asRead (pe : Pe) (impl : Impl) : Pe := { pe with regs := pe.regs.asRead impl, ctx := pe.ctx.asRead impl }

/-- A one-bit field read as a Boolean. -/
def regBit (impl : Impl) (r : Regs) (f : Field) : Bool := regRead impl r f == 1

/-- `ID_AA64MMFR0_EL1.ASIDBits`, constant (43_asid_vmid_size.md R201). PRESUMED encoding (G9), Log 35. -/
def idAsidBits (impl : Impl) : BitVec 4 :=
  match impl.asidBits with
  | .bits8 => 0b0000
  | .bits16 => 0b0010

/-- `ID_AA64MMFR1_EL1.VMIDBits`, constant (43_asid_vmid_size.md R205). PRESUMED encoding (G9), Log 35. -/
def idVmidBits (impl : Impl) : BitVec 4 :=
  match impl.vmidBits with
  | .bits8 => 0b0000
  | .bits16 => 0b0010

/-- The Effective value a control at a higher Exception level gives a field, if any. -/
def effGiven (f : Field) : List (Field × FieldValue) → Option FieldValue
  | [] => none
  | (g, v) :: rest => if g = f then some (fieldTrunc f v) else effGiven f rest

/-- `Eff(pe, REG.FIELD)` (00_scope.md R6, R8): the field's value unless the context gives another; 0 where the feature is absent
(D10). Log 17. -/
def eff (impl : Impl) (pe : Pe) (f : Field) : FieldValue :=
  if fieldPresent impl f then (effGiven f pe.ctx.eff).getD (regRead impl pe.regs f) else 0

/-- The Effective value of a one-bit field, as a Boolean. -/
def effBit (impl : Impl) (pe : Pe) (f : Field) : Bool := eff impl pe f == 1

/-- `TwoPriv(regime)` (42_asid_vmid_tagging.md R160). -/
def twoPriv : Regime → Bool
  | .el10 => true
  | .el20 => true
  | .el2 => false
  | .el3 => false

/-- `ControllingEL(regime)` (R160), defined for the regimes that support two privilege levels. -/
def controllingEl : Regime → Option CtlEl
  | .el10 => some .el1
  | .el20 => some .el2
  | .el2 => none
  | .el3 => none

/-- The Exception level whose `SCTLR_ELx.M` enables stage 1 of a regime (10_state.md R30). -/
def sctlrOf : Regime → RegEl
  | .el10 => .el1
  | .el20 => .el2
  | .el2 => .el2
  | .el3 => .el3

/-- `StageEnabled(pe, regime, stage)` (10_state.md R30): stage 1 by `SCTLR_ELx.M`, stage 2 of EL1&0 by the context; no other regime has
a stage 2 (Log 39). -/
def stageEnabled (impl : Impl) (pe : Pe) (regime : Regime) : Stage → Bool
  | .s1 => regBit impl pe.regs (.sctlrM (sctlrOf regime))
  | .s2 => regime == .el10 && pe.ctx.stage2Enabled

/-- `Stage2Applies(pe, regime)` (40_tlb_caching.md R122). -/
def stage2Applies (impl : Impl) (pe : Pe) (regime : Regime) : Bool :=
  regime == .el10 && pe.ctx.el2Enabled && stageEnabled impl pe .el10 .s2

/-- The stages an entry's contents hold. -/
def Contents.stages : Contents → List Stage
  | .s1Only => [.s1]
  | .s2Only => [.s2]
  | .s1s2 => [.s1, .s2]

/-- Whether contents hold stage 1 information. -/
def Contents.holdsS1 : Contents → Bool
  | .s1Only => true
  | .s2Only => false
  | .s1s2 => true

/-- Whether contents hold stage 2 information. -/
def Contents.holdsS2 : Contents → Bool
  | .s1Only => false
  | .s2Only => true
  | .s1s2 => true

/-- Every stage the contents hold is enabled (last line of `Match`, 40_tlb_caching.md R121). -/
def stagesEnabled (impl : Impl) (pe : Pe) (regime : Regime) (c : Contents) : Bool :=
  c.stages.all (stageEnabled impl pe regime)

/-- `OutOfContext(pe, regime)` at an Exception level (40_tlb_caching.md R111). -/
def outOfContext (el : El) (regime : Regime) : Bool :=
  ((el == .el2 || el == .el3) && regime == .el10) || (el == .el3 && (regime == .el2 || regime == .el20))

/-- `InContext(pe, regime)` (R111). -/
def inContext (el : El) (regime : Regime) : Bool := !outOfContext el regime

/-- `UsesVMSAv8_32(pe, regime)` (10_state.md R30), where translations using VMSAv8-32 exist (R6). -/
def usesV8_32 (impl : Impl) (pe : Pe) (regime : Regime) : Bool :=
  impl.hasAarch32Vmsa && pe.ctx.v8_32.contains regime

/-- `EL2UsesAArch64(pe)` (10_state.md R30), where the implementation has EL2 use AArch64 (R6). DEDUCED, Log 49. -/
def el2UsesAarch64 (impl : Impl) (pe : Pe) : Bool := usesAarch64 impl .el2 && pe.ctx.el2Aarch64

/-- The Exception level of a reset. -/
def RegEl.toEl : RegEl → El
  | .el1 => .el1
  | .el2 => .el2
  | .el3 => .el3

/-- `IMPLEMENTED_ELS` (R6). -/
def elImplemented (impl : Impl) : El → Bool
  | .el0 => true
  | .el1 => true
  | .el2 => impl.hasEl2
  | .el3 => impl.hasEl3

/-- `IMPLEMENTED_SECURITY_STATES` (R6). -/
def secImplemented (impl : Impl) (c : Sec) : Bool := impl.securityStates.contains c

/-- The CnP fields, known members of `CACHEABLE_FIELDS` (10_state.md R24). -/
def cnpFields : List Field :=
  [.cnp .lower .el1, .cnp .upper .el1, .cnp .lower .el2, .cnp .upper .el2, .cnpEl3, .vttbrCnp]

/-- `CACHEABLE_FIELDS` (00_scope.md R6). -/
def cacheableFields (impl : Impl) : List Field := cnpFields ++ impl.moreCacheable

/-- The Exception level whose registers hold a field that applies to a stage 1 translation, if any. -/
def fieldStage1El : Field → Option RegEl
  | .sctlrM x => some x
  | .asid _ .el1 => some .el1
  | .asid _ .el2 => some .el2
  | .cnp _ .el1 => some .el1
  | .cnp _ .el2 => some .el2
  | .cnpEl3 => some .el3
  | .vttbrCnp => none
  | .a1 .el1 => some .el1
  | .a1 .el2 => some .el2
  | .asSize .el1 => some .el1
  | .asSize .el2 => some .el2
  | .a2 .el1 => some .el1
  | .a2 .el2 => some .el2
  | .fng _ .el1 => some .el1
  | .fng _ .el2 => some .el2
  | .vmid => none
  | .vs => none

/-- Whether a translation of a regime that holds these contents uses a field: the stage 1 fields of the Exception level that
controls the regime, and the stage 2 fields. Log 18. -/
def fieldUsed (regime : Regime) (c : Contents) (f : Field) : Bool :=
  match fieldStage1El f with
  | some x => c.holdsS1 && x == sctlrOf regime
  | none => c.holdsS2

/-- The snapshot `ctl` of the Effective values of the cacheable fields a translation uses (R24, R113). -/
def ctlSnapshot (impl : Impl) (pe : Pe) (regime : Regime) (c : Contents) : Snapshot :=
  ((cacheableFields impl).filter (fieldUsed regime c)).map fun f => (f, eff impl pe f)

end Sys2Proof.Machine
end

