-- ==== Sys2Proof/Machine/Operands.lean ====
section
/-! DEFINITION. Operand forms and identifiers: the operand of `TLBI ASIDE1*`, its scope and targets, the current ASID and VMID, and the
tag of a new entry (30_encoding.md R93, 42_asid_vmid_tagging.md, 43_asid_vmid_size.md, 45_tlbi_aside1.md R240). -/

namespace Sys2Proof.Machine

/-- `x[t]`: general register `Xt`, with `t = 31` the zero register (R93). -/
def xRead (pe : Pe) (t : Nat) : XWord := if h : t < 31 then pe.x[t] else 0

/-- `asid_operand = x[t][63:48]` (R93). -/
def asidOperand (v : XWord) : Ident := v.extractLsb' 48 16

/-- An 8-bit identifier in 16 bits: `zext_16(raw[7:0])` (R200). -/
def lowByte (raw : Ident) : Ident := (raw.extractLsb' 0 8).setWidth 16

/-- `EffASID` (43_asid_vmid_size.md R202), of the parameter `ASID_BITS`, of `UsesVMSAv8_32` and of `TCR_ELx.AS`. -/
def effAsid (size : IdSize) (v8_32 asSize : Bool) (raw : Ident) : Ident :=
  if v8_32 then lowByte raw
  else if size = .bits16 && asSize then raw
  else lowByte raw

/-- `EffVMID` (43_asid_vmid_size.md R206), of the parameter `VMID_BITS`, of `EL2UsesAArch64` and of `VTCR_EL2.VS`. -/
def effVmid (size : IdSize) (aarch64 vs : Bool) (raw : Ident) : Ident :=
  if size = .bits16 && aarch64 && vs then raw else lowByte raw

/-- The register whose ASID field is selected (42_asid_vmid_tagging.md R165, `sel`): with two ASIDs the one of the VA range, else the one
`A1` selects. PRESUMED mapping (G5, G6, D33), Log 21. -/
def asidSelect (a2 a1 : Bool) (half : Half) : Half :=
  if a2 then half else if a1 then .upper else .lower

/-- `CurrentASID(pe, regime, half)` (R165) for the regime that `x` controls. -/
def asidFor (impl : Impl) (pe : Pe) (regime : Regime) (x : CtlEl) (half : Half) : Ident :=
  let sel := asidSelect (effBit impl pe (.a2 x)) (regBit impl pe.regs (.a1 x)) half
  effAsid impl.asidBits (usesV8_32 impl pe regime) (regBit impl pe.regs (.asSize x)) (regRead impl pe.regs (.asid sel x))

/-- `CurrentASID(pe, regime, half)` (R165): defined when `TwoPriv(regime)`, none elsewhere (Log 16). -/
def currentAsid (impl : Impl) (pe : Pe) (regime : Regime) (half : Half) : Option Ident :=
  (controllingEl regime).map fun x => asidFor impl pe regime x half

/-- `CurrentVMID(pe)` (R172). -/
def currentVmid (impl : Impl) (pe : Pe) : Ident :=
  effVmid impl.vmidBits (el2UsesAarch64 impl pe) (regBit impl pe.regs .vs) (regRead impl pe.regs .vmid)

/-- `HalfOf(regime, va)` (R164): defined only when `TwoPriv(regime)`. -/
def halfOf (regime : Regime) (va : Nat) : Option Half :=
  if twoPriv regime then some (Config.halfOf regime va) else none

/-- Some stage 1 Table descriptor above level `i` has NSTable = 1 (R169, R171). -/
def nsTableAbove (w : Walk) (i : Nat) : Bool :=
  (w.levels.take i).any fun l => l.stage == .s1 && l.nsTable

/-- `NonGlobal(pe, w, i)` (R171), for a level of stage 1 whose VA lies in `half`. nG = 1 is non-global: PRESUMED (G7, D33), Log 21. -/
def nonGlobal (impl : Impl) (pe : Pe) (regime : Regime) (sec : Sec) (half : Half) (w : Walk) (i : Nat) (l : WalkLevel) : Bool :=
  match controllingEl regime with
  | none => false
  | some x => !l.final || effBit impl pe (.fng half x) || (sec == .secure && nsTableAbove w i) || l.nG

/-- The VMID part of `TagFor` (R173, R175). -/
def vmidTag (impl : Impl) (pe : Pe) (regime : Regime) : Option Ident :=
  if regime == .el10 && pe.ctx.el2Enabled then some (currentVmid impl pe) else none

/-- The stage 1 part of a base register: `TTBR0_ELx` for the lower range and for a regime of one range, `TTBR1_ELx` for the upper
(44_common_not_private.md R224). `TTBR0_EL3.CnP`: Log 19. -/
def stage1CnpField (regime : Regime) (half : Option Half) : Field :=
  match regime with
  | .el10 => .cnp (half.getD .lower) .el1
  | .el20 => .cnp (half.getD .lower) .el2
  | .el2 => .cnp .lower .el2
  | .el3 => .cnpEl3

/-- `CnPForEntry(pe, w, contents)` (R224), of the regime and VA range of the walk. R224 names `T2` only where EL2 is enabled; for `S2Only`
information where it is not, `T2` is `VTTBR_EL2` as well. DESIGN CHOICE, Log 47. -/
def cnpForEntry (impl : Impl) (pe : Pe) (regime : Regime) (half : Option Half) (c : Contents) : Bool :=
  let bothStages := regime == .el10 && pe.ctx.el2Enabled
  let cnp1 := effBit impl pe (stage1CnpField regime half)
  let cnp2 := effBit impl pe .vttbrCnp
  impl.hasTtcnp && (match c with
    | .s1Only => cnp1 && (!bothStages || cnp2)
    | .s1s2 => cnp1 && (!bothStages || cnp2)
    | .s2Only => cnp2)

/-- `TargetRegimeE1(pe)` (45_tlbi_aside1.md R240). PRESUMED (G18, D30), Log 22. -/
def targetRegimeE1 : Regime := .el10

/-- `ScopeASIDE1(pe, a)` as data (R240), fixed at issue (R241). -/
def scopeAside1 (impl : Impl) (pe : Pe) (a : Ident) : Scope where
  asid := a
  regime := targetRegimeE1
  sec := pe.ctx.sec
  vmid := currentVmid impl pe

/-- `ScopeASIDE1(pe, a)(e)` (R240): a full 16-bit compare; `e.half` plays no part. -/
def Scope.covers (c : Scope) (e : TlbEntry) : Bool :=
  e.asid == some c.asid && e.regime == c.regime && e.sec == c.sec && (e.vmid == none || e.vmid == some c.vmid)

/-- PE `q` is in `INNER_SHAREABLE(p)` (00_scope.md R6). -/
def innerShareable (s : State) (p q : Nat) : Bool :=
  match s.pe? p, s.pe? q with
  | some a, some b => a.inner == b.inner
  | _, _ => false

/-- PE `q` is in `OUTER_SHAREABLE(p)`, a superset of `INNER_SHAREABLE(p)` (45_tlbi_aside1.md R244). -/
def outerShareable (s : State) (p q : Nat) : Bool :=
  match s.pe? p, s.pe? q with
  | some a, some b => a.outer == b.outer || a.inner == b.inner
  | _, _ => false

/-- `Targets(pe, ·)` of the forms without a domain suffix: `{pe}` (R242). -/
def targetsLocal (_ : State) (p : Nat) : List Nat := [p]

/-- `Targets(pe, ·)` of the `IS` forms (R243). -/
def targetsInner (s : State) (p : Nat) : List Nat := (List.range s.pes.length).filter (innerShareable s p)

/-- `Targets(pe, ·)` of the `OS` forms (R244). -/
def targetsOuter (s : State) (p : Nat) : List Nat := (List.range s.pes.length).filter (outerShareable s p)

end Sys2Proof.Machine
end

