-- ==== Sys2Proof/Machine/Ops.lean ====
section
/-! DEFINITION. The named operations every agent shares: physical memory, raising a fault, matching and using an entry, a walk, filling,
evicting, issuing an invalidation. -/

namespace Sys2Proof.Machine

/-! ### Physical memory (00_scope.md R8, 10_state.md R20 e). An unlisted byte has no value (Log 10). -/

/-- The byte at an address, if one was written. -/
def memByte : Memory → Nat → Option Byte
  | [], _ => none
  | c :: m, a => if a = c.1 then some c.2 else memByte m a

/-- The write of one byte, keeping the addresses strictly rising. -/
def memSet : Memory → Nat → Byte → Memory
  | [], a, v => [(a, v)]
  | c :: m, a, v =>
    if a < c.1 then (a, v) :: c :: m
    else if a = c.1 then (a, v) :: m
    else c :: memSet m a v

/-- Every address of a memory lies above a bound, and the addresses rise strictly. -/
def memAbove : Nat → Memory → Bool
  | _, [] => true
  | b, c :: m => decide (b < c.1) && memAbove c.1 m

/-- The canonical form: addresses strictly rising. (No entry equals what an unlisted address reads as: that is no value.) -/
def Memory.wf : Memory → Bool
  | [] => true
  | c :: m => memAbove c.1 m

/-- The writes of consecutive bytes. -/
def memSetBytes : Memory → Nat → List Byte → Memory
  | m, _, [] => m
  | m, a, b :: bs => memSetBytes (memSet m a b) (a + 1) bs

/-- The `n` low bytes of a value, least significant first. -/
def bytesLittle : Nat → Nat → List Byte
  | 0, _ => []
  | n + 1, v => BitVec.ofNat 8 v :: bytesLittle n (v / 256)

/-- The `n` bytes of a value in the order they lie in memory: the parameter `BYTE_ORDER` (R62). -/
def bytesOf (order : ByteOrder) (n v : Nat) : List Byte :=
  match order with
  | .little => bytesLittle n v
  | .big => (bytesLittle n v).reverse

/-- `MemWrite(addr, n, v)` (R8). -/
def memWrite (order : ByteOrder) (m : Memory) (a : Nat) (n v : Nat) : Memory := memSetBytes m a (bytesOf order n v)

/-- The bytes at consecutive addresses, if each was written. -/
def memBytes (m : Memory) (a : Nat) : Nat → Option (List Byte)
  | 0 => some []
  | n + 1 =>
    match memByte m a, memBytes m (a + 1) n with
    | some b, some bs => some (b :: bs)
    | _, _ => none

/-- The value of bytes, least significant first. -/
def littleValue : List Byte → Nat
  | [] => 0
  | b :: bs => b.toNat + 256 * littleValue bs

/-- `MemRead(addr, n)` (R8): no value where a byte has none. -/
def memRead (order : ByteOrder) (m : Memory) (a : Nat) (n : Nat) : Option Nat :=
  (memBytes m a n).map fun bs =>
    match order with
    | .little => littleValue bs
    | .big => littleValue bs.reverse

/-- The memory of the output address space of a Security state (10_state.md R32). -/
def Spaces.of (m : Spaces) : Sec → Memory
  | .nonSecure => m.nonSecure
  | .secure => m.secure
  | .realm => m.realm

/-- The update of the memory of one Security state. -/
def Spaces.put (m : Spaces) (c : Sec) (n : Memory) : Spaces :=
  match c with
  | .nonSecure => { m with nonSecure := n }
  | .secure => { m with secure := n }
  | .realm => { m with realm := n }

/-- Every space is in the canonical form. -/
def Spaces.wf (m : Spaces) : Bool := Memory.wf m.nonSecure && Memory.wf m.secure && Memory.wf m.realm

/-- `MemWrite(addr, n, v)` in the space of a Security state (R8, R32). -/
def spaceWrite (order : ByteOrder) (m : Spaces) (c : Sec) (a : Nat) (n v : Nat) : Spaces :=
  m.put c (memWrite order (m.of c) a n v)

/-! ### Taking a fault (60_exceptions.md R260) -/

/-- `raise X(info)`: ends the lookup in progress with the fault as its answer; `TLBS`, `PENDING` and `regs` do not change (R260). Saved
state, vector, syndrome and the return from it are not in the source (R268, R269): they are the surrounding machine's (Log 9). -/
def raise (s : State) (f : Fault) : State := s.withAnswer (.faulted f)

/-- The fault of R261 for a fault kind of `Walk`. -/
def walkFault (req : Request) (stage : Stage) (level : Nat) : WalkFault → Fault
  | .translation => .translation req stage level
  | .addressSize => .addressSize req stage level
  | .accessFlag => .accessFlag req stage level
  | .permission => .permission req stage level
  | .other => .otherWalkFault req stage level

/-- The exception of R265 for a route. -/
def lockdownFault (p : Nat) : LockdownRoute → Fault
  | .el1DataAbort => .lockdownDataAbortEl1 p
  | .el2HypTrap => .lockdownHypTrapEl2 p

/-! ### Matching and using an entry (40_tlb_caching.md R121) -/

/-- `e.ia_base <= ia' < e.ia_base + e.ia_size` (R121). -/
def inputMatches (e : TlbEntry) (ia : Nat) : Bool := decide (e.iaBase ≤ ia) && decide (ia < e.iaBase + e.iaSize)

/-- The ASID line of `Match` (R121): global, or tagged with the current ASID of the VA range of the request. -/
def asidMatches (impl : Impl) (pe : Pe) (req : Request) (e : TlbEntry) : Bool :=
  match e.asid with
  | none => true
  | some a => currentAsid impl pe req.regime (Config.halfOf req.regime req.ia) == some a

/-- The VMID line of `Match` (R121). -/
def vmidMatches (impl : Impl) (pe : Pe) (e : TlbEntry) : Bool :=
  match e.vmid with
  | none => true
  | some v => currentVmid impl pe == v

/-- Every line of `Match` but the one on the input address. -/
def contextMatches (impl : Impl) (pe : Pe) (req : Request) (e : TlbEntry) : Bool :=
  e.regime == req.regime && e.sec == req.sec && asidMatches impl pe req e && vmidMatches impl pe e
    && stagesEnabled impl pe req.regime e.contents

/-- `Match(e, req)` (R121), with `ia` the input address of the stage the entry serves. -/
def entryMatches (impl : Impl) (pe : Pe) (req : Request) (ia : Nat) (e : TlbEntry) : Bool :=
  contextMatches impl pe req e && inputMatches e ia

/-- `SharedUnderCnP(q, e)` (44_common_not_private.md R225). -/
def sharedUnderCnp (s : State) (q : Nat) (e : TlbEntry) : Bool :=
  e.cnp && e.owner != q && innerShareable s e.owner q
    && (match s.pe? q with
        | some pe => cnpForEntry s.impl pe e.regime e.half e.contents
        | none => false)

/-- `Usable(pe, e)` (R121). -/
def usable (s : State) (q : Nat) (e : TlbEntry) : Bool := e.owner == q || sharedUnderCnp s q e

/-! ### Walks (10_state.md R33) -/

/-- The non-final entries among those chosen that the PE can use (R33, D6). A walk from the base registers uses no final `S2Only` entry for
its stage 2 inputs: DESIGN CHOICE, Log 46. -/
def walkCandidates (s : State) (req : Request) (ks : List Nat) : List TlbEntry :=
  (ks.filterMap fun k => s.tlbs[k]?).filter fun e => !e.final && usable s req.pe e

/-- `ia'` of R121 for the stage 2 information a walk may use: the stage 1 output address it translates, or, from the base registers,
every stage 2 input address it needs (Log 11, 14). -/
def walkStage2Inputs (s : State) (pe : Pe) (req : Request) (ks : List Nat) : WalkStart → List Nat
  | .stage2Of oa => [oa]
  | .root =>
    if stageEnabled s.impl pe req.regime .s1 then
      Config.stage2Inputs s.impl (pe.regs.asRead s.impl) (pe.ctx.asRead s.impl) s.mem (walkCandidates s req ks) req
    else [Config.disabledStage1Oa req]

/-- `Match` (R121) for a non-final entry that a walk starts from: on the input address of the request for stage 1 information, which
only a walk from the base registers uses, and on an input of stage 2 for stage 2 information alone. -/
def walkMatches (s : State) (pe : Pe) (req : Request) (ks : List Nat) (start : WalkStart) (e : TlbEntry) : Bool :=
  if e.contents.holdsS1 then start == .root && entryMatches s.impl pe req req.ia e
  else (walkStage2Inputs s pe req ks start).any fun ia => entryMatches s.impl pe req ia e

/-- The cached entries a walk uses: of those chosen, the non-final ones the PE can use that match (R33, R121, D6). -/
def walkEntries (s : State) (pe : Pe) (req : Request) (ks : List Nat) (start : WalkStart) : List TlbEntry :=
  (walkCandidates s req ks).filter (walkMatches s pe req ks start)

/-- The walk for a request, with the memory and registers of this moment (R33, R63). -/
def walkFor (s : State) (pe : Pe) (req : Request) (ks : List Nat) (start : WalkStart) : Walk :=
  Config.walk s.impl (pe.regs.asRead s.impl) (pe.ctx.asRead s.impl) s.mem (walkEntries s pe req ks start) start req

/-- `ExternalAbortUndetermined(w, i)` (40_tlb_caching.md R115). -/
def abortUndetermined (w : Walk) (i : Nat) : Bool :=
  match w.finish with
  | .externalAbort _ _ determined readIndex neededFor => !determined && (i == readIndex || neededFor.contains i)
  | _ => false

/-- The three faults whose translation table entries are never cached (R23, 60_exceptions.md R262: the list is closed). -/
def neverCached : WalkFault → Bool
  | .translation => true
  | .addressSize => true
  | .accessFlag => true
  | .permission => false
  | .other => false

/-- The fault a walk ended in, for the level it ended at: the level of that read, or the stage 1 level of that number, which a walk
reads once (60_exceptions.md R262; Log 11). -/
def endingFault (w : Walk) (i : Nat) (l : WalkLevel) : Option WalkFault :=
  match w.finish with
  | .fault kind stage level readIndex =>
    if i = readIndex ∨ (stage = .s1 ∧ l.stage = .s1 ∧ l.level = level) then some kind else none
  | _ => none

/-- The faults that level `i` of a walk generates: the one it is listed with and the one the walk ended in. -/
def levelFaults (w : Walk) (i : Nat) (l : WalkLevel) : List WalkFault := l.generates.toList ++ (endingFault w i l).toList

/-- Level `i` was read no later than the read the walk ended at (40_tlb_caching.md R113 "a prefix of a walk", R120). -/
def readByEnd (w : Walk) (i : Nat) : Bool :=
  match w.finish with
  | .ok _ => true
  | .fault _ _ _ readIndex => decide (i ≤ readIndex)
  | .externalAbort _ _ _ readIndex _ => decide (i ≤ readIndex)

/-- Level `i` of a walk, where every `require` line of `T_FILL` holds of it (40_tlb_caching.md R113, R120). -/
def fillableLevel (impl : Impl) (pe : Pe) (regime : Regime) (w : Walk) (i : Nat) : Option WalkLevel :=
  match w.levels[i]? with
  | none => none
  | some l =>
    if stageEnabled impl pe regime l.stage && (inContext pe.ctx.el regime || impl.fillOutOfContext)
        && readByEnd w i && (levelFaults w i l).all (fun f => !neverCached f) && !abortUndetermined w i
    then some l else none

/-- The ASID part of `TagFor` (42_asid_vmid_tagging.md R175) for an entry that holds stage 1 level `i`: the current ASID where the
translation is non-global or the entry is from a level other than the final one (R168). -/
def asidTag (impl : Impl) (pe : Pe) (req : Request) (w : Walk) (final : Bool) (i : Nat) (l : WalkLevel) : Option Ident :=
  let half := Config.halfOf req.regime req.ia
  if nonGlobal impl pe req.regime req.sec half w i l || !final then currentAsid impl pe req.regime half else none

/-- The entry `T_FILL` makes of one level alone (R113, R175). -/
def singleEntry (impl : Impl) (pe : Pe) (req : Request) (w : Walk) (i : Nat) (l : WalkLevel) : TlbEntry :=
  let c : Contents := match l.stage with
    | .s1 => .s1Only
    | .s2 => .s2Only
  { owner := req.pe, regime := req.regime, sec := req.sec, contents := c, final := l.final
    iaBase := l.iaBase, iaSize := l.iaSize
    half := match l.stage with
      | .s1 => halfOf req.regime l.iaBase
      | .s2 => none
    asid := match l.stage with
      | .s1 => asidTag impl pe req w l.final i l
      | .s2 => none
    vmid := vmidTag impl pe req.regime
    payload := l.descriptor
    ctl := ctlSnapshot impl pe req.regime c
    cnp := cnpForEntry impl pe req.regime (halfOf req.regime req.ia) c
    locked := false
    source := .filled (levelFaults w i l) }

/-- The entry `T_FILL` makes of a stage 1 and a stage 2 level combined (R113, R175; Log 13). -/
def combinedEntry (impl : Impl) (pe : Pe) (req : Request) (w : Walk) (i i2 : Nat) (l1 l2 : WalkLevel) : TlbEntry :=
  let range := Config.combinedRange l1 l2
  { owner := req.pe, regime := req.regime, sec := req.sec, contents := .s1s2, final := l1.final && l2.final
    iaBase := range.1, iaSize := range.2
    half := halfOf req.regime range.1
    asid := asidTag impl pe req w (l1.final && l2.final) i l1
    vmid := vmidTag impl pe req.regime
    payload := Config.combinedPayload l1.descriptor l2.descriptor
    ctl := ctlSnapshot impl pe req.regime .s1s2
    cnp := cnpForEntry impl pe req.regime (halfOf req.regime req.ia) .s1s2
    locked := false
    source := .filled (levelFaults w i l1 ++ levelFaults w i2 l2) }

/-- An entry covers at least one byte (10_state.md R21, "> 0"; Log 37). -/
def positiveSize (e : TlbEntry) : Option TlbEntry := if e.iaSize = 0 then none else some e

/-- The levels an entry is made of. -/
def FillPick.levels : FillPick → List Nat
  | .single i => [i]
  | .combined i1 i2 => [i1, i2]

/-- The entry a walk for a request lets `T_FILL` make of the picked level or levels, if the rules permit it (R113). -/
def fillEntry (impl : Impl) (pe : Pe) (req : Request) (w : Walk) : FillPick → Option TlbEntry
  | .single i =>
    match fillableLevel impl pe req.regime w i with
    | some l => positiveSize (singleEntry impl pe req w i l)
    | none => none
  | .combined i1 i2 =>
    match fillableLevel impl pe req.regime w i1, fillableLevel impl pe req.regime w i2 with
    | some l1, some l2 =>
      if l1.stage = .s1 ∧ l2.stage = .s2 then positiveSize (combinedEntry impl pe req w i1 i2 l1 l2) else none
    | _, _ => none

/-- `T_FILL(pe, w, i)` (R113): a fill the rules do not permit leaves everything as it is (Log 26). The entry is one more member of `TLBS`
even where an equal one is there: the spec does not say whether those are one member or two. DESIGN CHOICE, Log 42. -/
def fill (s : State) (pe : Pe) (req : Request) (w : Walk) (pick : FillPick) : State :=
  match fillEntry s.impl pe req w pick with
  | some e => s.withTlbs (s.tlbs ++ [e])
  | none => s

/-- The fills of one walk, "for any subset" (40_tlb_caching.md R120). -/
def fills (s : State) (pe : Pe) (req : Request) (w : Walk) : List FillPick → State
  | [] => s
  | pick :: picks => fills (fill s pe req w pick) pe req w picks

/-- `T_FILL` by a walk that no lookup asked for, "as the result of [a] speculative access" (R113, R114). -/
def speculativeFill (s : State) (pe : Pe) (req : Request) (plan : WalkPlan) : State :=
  fills s pe req (walkFor s pe req plan.entries .root) plan.fills

/-! ### Eviction and issue -/

/-- `T_EVICT(e)` (40_tlb_caching.md R118), for the entry at place `k`: not enabled for a locked entry (Log 26). -/
def evict (s : State) (k : Nat) : State :=
  match s.tlbs[k]? with
  | some e => if e.locked then s else s.withTlbs (s.tlbs.eraseIdx k)
  | none => s

/-- `T_INVAL_ISSUE` (45_tlbi_aside1.md R241): one record is appended to `PENDING`. -/
def issue (s : State) (r : Pending) : State := s.withPending (s.pending ++ [r])

/-- The act of an existing PE; for any other number there is no PE (00_scope.md R6, `N_PES`; Log 36). -/
def onPe (s : State) (p : Nat) (f : Pe → Host.Outcome State Fault Refusal) : Host.Outcome State Fault Refusal :=
  match s.pe? p with
  | some pe => f pe
  | none => .refused (.noSuchPe p)

end Sys2Proof.Machine
end

