-- ==== Sys2Proof/Machine/Tlbi.lean ====
section
/-! DEFINITION. The meanings of the `TLBI ASIDE1*` instructions (45_tlbi_aside1.md R241 to R245, R248 to R250). -/

namespace Sys2Proof.Machine

/-- The record an instruction of PE `p` issues, with operand register `rt` (R241): the scope is fixed by the state at issue. -/
def tlbiRecord (s : State) (p : Nat) (pe : Pe) (targets : List Nat) (rt : Nat) : Pending where
  issuer := p
  targets := targets
  scope := scopeAside1 s.impl pe (asidOperand (xRead pe rt))

/-- What the members of the family share (R241, R250): where the feature of the form is implemented and `TLBI_ALLOWED(pe)` holds, one
record is issued; no entry, flag or general register changes. -/
def tlbi (feature : Bool) (targets : List Nat) (rt : Nat) (s : State) : Host.Outcome State Fault Refusal :=
  onPe s s.cur fun pe =>
    if feature then
      if pe.ctx.tlbiAllowed then .next (issue s (tlbiRecord s s.cur pe targets rt)) else .refused .tlbiNotAllowed
    else .refused .featureAbsent

/-- `TLBI ASIDE1, Xt` (R242): `Targets = {pe}`. -/
def execTlbiAside1 (rt : Nat) (s : State) : Host.Outcome State Fault Refusal :=
  tlbi true (targetsLocal s s.cur) rt s

/-- `TLBI ASIDE1IS, Xt` (R243): `Targets = INNER_SHAREABLE(pe)`. -/
def execTlbiAside1is (rt : Nat) (s : State) : Host.Outcome State Fault Refusal :=
  tlbi true (targetsInner s s.cur) rt s

/-- `TLBI ASIDE1OS, Xt` (R244): `Targets = OUTER_SHAREABLE(pe)`. -/
def execTlbiAside1os (rt : Nat) (s : State) : Host.Outcome State Fault Refusal :=
  tlbi s.impl.hasTlbiOs (targetsOuter s s.cur) rt s

/-- `TLBI ASIDE1NXS, Xt` (R245): as `TLBI ASIDE1`; the qualifier changes only which memory accesses completion waits for, and this
machine holds none in flight. -/
def execTlbiAside1nxs (rt : Nat) (s : State) : Host.Outcome State Fault Refusal :=
  tlbi s.impl.hasXs (targetsLocal s s.cur) rt s

/-- `TLBI ASIDE1ISNXS, Xt` (R248): as `TLBI ASIDE1IS`, with the qualifier of R245. -/
def execTlbiAside1isnxs (rt : Nat) (s : State) : Host.Outcome State Fault Refusal :=
  tlbi s.impl.hasXs (targetsInner s s.cur) rt s

/-- `TLBI ASIDE1OSNXS, Xt` (R249): as `TLBI ASIDE1OS`, with the qualifier of R245. -/
def execTlbiAside1osnxs (rt : Nat) (s : State) : Host.Outcome State Fault Refusal :=
  tlbi (s.impl.hasTlbiOs && s.impl.hasXs) (targetsOuter s s.cur) rt s

end Sys2Proof.Machine
end

