-- ==== Sys2Proof/Machine/Dispatch.lean ====
section
/-! DEFINITION. The meaning of each instruction, by one direct call. -/

namespace Sys2Proof.Machine

def exec (i : Instr) (s : State) : Host.Outcome State Fault Refusal :=
  match i with
  | .tlbiAside1 rt => Sys2Proof.Machine.execTlbiAside1 rt s
  | .tlbiAside1is rt => Sys2Proof.Machine.execTlbiAside1is rt s
  | .tlbiAside1os rt => Sys2Proof.Machine.execTlbiAside1os rt s
  | .tlbiAside1nxs rt => Sys2Proof.Machine.execTlbiAside1nxs rt s
  | .tlbiAside1isnxs rt => Sys2Proof.Machine.execTlbiAside1isnxs rt s
  | .tlbiAside1osnxs rt => Sys2Proof.Machine.execTlbiAside1osnxs rt s

end Sys2Proof.Machine
end

