-- ==== Sys2Proof/Machine/Context.lean ====
section
/-! DEFINITION. `T_CTX` (10_state.md R31): a write of a System register field, or a change of a context predicate. -/

namespace Sys2Proof.Machine

/-- The PE after a `T_CTX`: the one field or predicate, at once (R31, D16; Log 29). -/
def ctxChange (pe : Pe) : CtxChange → Pe
  | .field f v => { pe with regs := pe.regs.set f v }
  | .el e => { pe with ctx := { pe.ctx with el := e } }
  | .sec c => { pe with ctx := { pe.ctx with sec := c } }
  | .el2Enabled b => { pe with ctx := { pe.ctx with el2Enabled := b } }
  | .regime r => { pe with ctx := { pe.ctx with regime := r } }
  | .stage2Enabled b => { pe with ctx := { pe.ctx with stage2Enabled := b } }
  | .el2Aarch64 b => { pe with ctx := { pe.ctx with el2Aarch64 := b } }
  | .v8_32 rs => { pe with ctx := { pe.ctx with v8_32 := rs } }
  | .tlbiAllowed b => { pe with ctx := { pe.ctx with tlbiAllowed := b } }
  | .eff m => { pe with ctx := { pe.ctx with eff := m } }

/-- An Exception level or Security state is one the implementation has (00_scope.md R6); a change to another is refused. `EL2Enabled` and
`RegimeInUse` are not bounded by the levels that exist. DESIGN CHOICE, Log 44. Nor is `RegimeInUse` bounded by `CurrentEL`: DESIGN CHOICE,
Log 45. -/
def ctxPossible (impl : Impl) : CtxChange → Bool
  | .el e => elImplemented impl e
  | .sec c => secImplemented impl c
  | _ => true

/-- `T_CTX(pe, REG.FIELD, v)` (R31): nothing in `TLBS` and nothing in `PENDING` changes. -/
def ctxAct (s : State) (p : Nat) (pe : Pe) (c : CtxChange) : Host.Outcome State Fault Refusal :=
  if ctxPossible s.impl c then .next (s.withPe p (ctxChange pe c)) else .refused .notImplemented

/-- The surrounding machine's write of `x[t]` (R27): the zero register, `t = 31`, discards it (30_encoding.md R93). -/
def xWrite (pe : Pe) (t : Nat) (v : XWord) : Pe :=
  if h : t < 31 then { pe with x := pe.x.set t v } else pe

end Sys2Proof.Machine
end

