-- ==== Sys2Proof/Machine/Lockdown.lean ====
section
/-! DEFINITION. TLB lockdown (41_tlb_lockdown.md R141, R146, R147; 60_exceptions.md R265). -/

namespace Sys2Proof.Machine

/-- The update of one entry's `locked` bit. -/
def setLocked (b : Bool) (e : TlbEntry) : TlbEntry := { e with locked := b }

/-- `L_UNLOCK_ALL(pe)` (R146). -/
def unlockAll (s : State) (p : Nat) : State :=
  s.withTlbs (s.tlbs.map fun e => if e.owner = p then setLocked false e else e)

/-- `L_LOCK(e)` and `L_UNLOCK(e)` (R146), for the entry at place `k`. -/
def lockAt (s : State) (k : Nat) (b : Bool) : State := s.withTlbs (s.tlbs.modify k (setLocked b))

/-- The removal of an entry by the mechanism (R141). -/
def lockdownRemove (s : State) (k : Nat) : State := s.withTlbs (s.tlbs.eraseIdx k)

/-- `L_PREFETCH(pe, ia, level)` (R146): the fill is performed where R113 permits it. -/
def prefetch (s : State) (pe : Pe) (req : Request) (ks : List Nat) (pick : FillPick) : State :=
  fill s pe req (walkFor s pe req ks .root) pick

/-- An operation of the lockdown mechanism, where lockdown is supported (R146); refused elsewhere (R141, R148). -/
def lockdownAct (s : State) (op : LockdownOp) : Host.Outcome State Fault Refusal :=
  if s.impl.lockdownSupported then
    match op with
    | .unlockAll p => .next (unlockAll s p)
    | .prefetch p regime sec ia access ks pick =>
      onPe s p fun pe => .next (prefetch s pe { pe := p, regime := regime, sec := sec, ia := ia, access := access } ks pick)
    | .lock k => .next (lockAt s k true)
    | .unlock k => .next (lockAt s k false)
    | .remove k => .next (lockdownRemove s k)
  else .refused .lockdownNotSupported

/-- A lockdown function of several operations, in order (R141). -/
def lockdownActs (s : State) : List LockdownOp → Host.Outcome State Fault Refusal
  | [] => .next s
  | op :: ops =>
    match lockdownAct s op with
    | .next t => lockdownActs t ops
    | .fault f => .fault f
    | .refused r => .refused r

/-- An exception due to TLB lockdown (R265): where EL2 is enabled and the PE executes at EL1 or EL0, it takes the route
`LOCKDOWN_EXC_ROUTE`; elsewhere the source says nothing and the model refuses. What causes it is not in the source (R147): here it is an act
of its own, which may come at any step. DESIGN CHOICE, Log 43. -/
def lockdownException (s : State) (p : Nat) (pe : Pe) : Host.Outcome State Fault Refusal :=
  if s.impl.lockdownSupported then
    if pe.ctx.el2Enabled && (pe.ctx.el == .el0 || pe.ctx.el == .el1) then
      .next (raise s (lockdownFault p s.impl.lockdownRoute))
    else .refused .lockdownExceptionUnspecified
  else .refused .lockdownNotSupported

/-- A word the decoder rejects (30_encoding.md R94, R95): never a no-op. In the reserved encodings a lockdown function may live, where
lockdown is supported and its mechanism gives the word a meaning (R94; Log 28). The word itself never ends in an exception due to lockdown,
which is an act of its own: DESIGN CHOICE, Log 43. -/
def rejectWord (s : State) (w : Word) : DecodeReject → Host.Outcome State Fault Refusal
  | .implementationDefined =>
    if s.impl.lockdownSupported then
      onPe s s.cur fun pe =>
        match Config.lockdownWord s.cur (s.pes.map fun q => q.asRead s.impl) s.tlbs w (xRead pe (rtField w)) with
        | some ops => lockdownActs s ops
        | none => .refused (.implementationDefinedEncoding w)
    else .refused (.implementationDefinedEncoding w)
  | .otherTlbMaintenance => .refused (.otherTlbMaintenance w)
  | .notTlbInstruction => .refused (.notTlbInstruction w)

end Sys2Proof.Machine
end

