-- ==== Sys2Proof/Machine/Lookup.lean ====
section
/-! DEFINITION. `T_LOOKUP` (40_tlb_caching.md R119 to R123): the answer to a translation request. -/

namespace Sys2Proof.Machine

/-- The final, usable, matching entries that hold stage 1 information, for the input address of the request. Entries that are not final
are in no `M` (R120), so they raise no conflict abort: DESIGN CHOICE, Log 48. -/
def vaMembers (s : State) (pe : Pe) (req : Request) : List TlbEntry :=
  s.tlbs.filter fun e => e.final && e.contents.holdsS1 && usable s req.pe e && entryMatches s.impl pe req req.ia e

/-- The final, usable, matching `S2Only` entries, for a stage 1 output address (R121, `ia'`); none that is not final (Log 48). -/
def oaMembers (s : State) (pe : Pe) (req : Request) (oa : Nat) : List TlbEntry :=
  s.tlbs.filter fun e => e.final && !e.contents.holdsS1 && usable s req.pe e && entryMatches s.impl pe req oa e

/-- The output address an entry gives for an input address it covers (R32; Log 13). -/
def outputFor (e : TlbEntry) (ia : Nat) : Nat := Config.outputOf e.payload e.iaBase e.iaSize ia

/-- The stage 1 output addresses the `S1Only` entries among the given ones give. -/
def stage1Outputs (es : List TlbEntry) (ia : Nat) : List Nat :=
  (es.filter fun e => e.contents == .s1Only).map fun e => outputFor e ia

/-- `M` of R120, with `ia'` as R121 says: the entries for the input address and, where stage 2 applies, those for the stage 1 output
address, which is that of a matching `S1Only` entry or, with stage 1 disabled, of the request. With stage 1 enabled and no such entry,
final `S2Only` entries match nothing, also where stage 1 is walked: DESIGN CHOICE, Log 46. -/
def members (s : State) (pe : Pe) (req : Request) : List TlbEntry :=
  if stageEnabled s.impl pe req.regime .s1 then
    vaMembers s pe req ++
      (if stage2Applies s.impl pe req.regime then
        (stage1Outputs (vaMembers s pe req) req.ia).flatMap (oaMembers s pe req)
       else [])
  else oaMembers s pe req (Config.disabledStage1Oa req)

/-- The answer to a request. -/
def respond (s : State) (req : Request) (payload : Payload) (ctl : Snapshot) (via : Via) : State :=
  s.withAnswer (.translated req { payload := payload, ctl := ctl, via := via })

/-- The value a snapshot gives a field. -/
def snapshotValue (f : Field) : Snapshot → Option FieldValue
  | [] => none
  | (g, v) :: rest => if g = f then some v else snapshotValue f rest

/-- The member at place `k`; the first one where there is none there. -/
def memberAt (d : TlbEntry) (m : List TlbEntry) (k : Nat) : TlbEntry := m.getD k d

/-- A combination of the control snapshots of members: for each field, the value of the member chosen for it (R123). -/
def mixedCtl (d : TlbEntry) (m : List TlbEntry) : List Field → List Nat → Snapshot
  | [], _ => []
  | f :: fs, ks =>
    match snapshotValue f (memberAt d m (ks.headD 0)).ctl with
    | some v => (f, v) :: mixedCtl d m fs ks.tail
    | none => mixedCtl d m fs ks.tail

/-- The fields of the snapshots of some entries, each once. -/
def ctlFields (m : List TlbEntry) : List Field := (m.flatMap fun e => e.ctl.map (·.1)).eraseDups

/-- What a pick draws from a nonempty `M` with first member `d` (R123): none for the abort, a member's result, or any combination of
parts of payloads and control snapshots. DESIGN CHOICE in what the parts are, Log 15. -/
def conflictDraw (d : TlbEntry) (m : List TlbEntry) : ConflictPick → Option (Payload × Snapshot)
  | .abort => none
  | .member k => some ((memberAt d m k).payload, (memberAt d m k).ctl)
  | .mix i j k ks =>
    some ({ oa := (memberAt d m i).payload.oa, attrs := (memberAt d m j).payload.attrs, perms := (memberAt d m k).payload.perms },
      mixedCtl d m (ctlFields m) ks)

/-- `ConflictOutcome(M, req)` (R123), for a nonempty `M` with first member `d`: the abort, or the result drawn. -/
def conflictOutcome (s : State) (req : Request) (d : TlbEntry) (m : List TlbEntry) (c : ConflictPick) : State :=
  match conflictDraw d m c with
  | none => raise s (.tlbConflictAbort req)
  | some r => respond s req r.1 r.2 .conflict

/-- A conflict among the `S2Only` entries for the output of an `S1Only` hit: the abort, or the stage 1 part with the result drawn for
stage 2, as a second HIT and a stage 2 walk answer it. The spec does not say how the two join: DESIGN CHOICE, Log 15. -/
def conflictStage2 (s : State) (req : Request) (e1 d : TlbEntry) (m : List TlbEntry) (c : ConflictPick) : State :=
  match conflictDraw d m c with
  | none => raise s (.tlbConflictAbort req)
  | some r => respond s req (Config.combinedPayload e1.payload r.1) (e1.ctl ++ r.2) (.conflictAfter e1)

/-- What the contents of an entry answering the whole request would be. -/
def requestContents (s : State) (pe : Pe) (req : Request) : Contents :=
  if stageEnabled s.impl pe req.regime .s1 then
    (if stage2Applies s.impl pe req.regime then .s1s2 else .s1Only)
  else .s2Only

/-- The end of a walk as an answer (R120): the result under the PE's own control values (R222), a fault, or an abort. -/
def finishWalk (s : State) (pe : Pe) (req : Request) (w : Walk) : State :=
  match w.finish with
  | .ok result => respond s req result (ctlSnapshot s.impl pe req.regime (requestContents s pe req)) .walk
  | .fault kind stage level _ => raise s (walkFault req stage level kind)
  | .externalAbort stage level _ _ _ => raise s (.externalAbortOnWalk req stage level)

/-- `MISS` (R120): walk, cache what the choice picks of what the rules permit, answer. -/
def miss (s : State) (pe : Pe) (req : Request) (plan : WalkPlan) : State :=
  let w := walkFor s pe req plan.entries .root
  finishWalk (fills s pe req w plan.fills) pe req w

/-- The end of a stage 2 walk of the output of an `S1Only` entry. -/
def finishStage2 (s : State) (pe : Pe) (req : Request) (e1 : TlbEntry) (w : Walk) : State :=
  match w.finish with
  | .ok result =>
    respond s req (Config.combinedPayload e1.payload result) (e1.ctl ++ ctlSnapshot s.impl pe req.regime .s2Only) (.walkAfter e1)
  | .fault kind stage level _ => raise s (walkFault req stage level kind)
  | .externalAbort stage level _ _ _ => raise s (.externalAbortOnWalk req stage level)

/-- The stage 2 walk after an `S1Only` hit (R119). -/
def missStage2 (s : State) (pe : Pe) (req : Request) (e1 : TlbEntry) (plan : WalkPlan) : State :=
  let w := walkFor s pe req plan.entries (.stage2Of (outputFor e1 req.ia))
  finishStage2 (fills s pe req w plan.fills) pe req e1 w

/-- "an `S1Only` entry followed by an `S2Only` lookup of the stage 1 OA" (R119). A choice the entries do not admit is a MISS. -/
def lookupStage2 (s : State) (pe : Pe) (req : Request) (e1 : TlbEntry) : StageChoice → State
  | .hit =>
    match oaMembers s pe req (outputFor e1 req.ia) with
    | [e2] => respond s req (Config.combinedPayload e1.payload e2.payload) (e1.ctl ++ e2.ctl) (.pair e1 e2)
    | _ => missStage2 s pe req e1 {}
  | .multi c =>
    match oaMembers s pe req (outputFor e1 req.ia) with
    | d :: d' :: m => conflictStage2 s req e1 d (d :: d' :: m) c
    | _ => missStage2 s pe req e1 {}
  | .miss plan => missStage2 s pe req e1 plan

/-- The entries a HIT can use: for the input address, or, with stage 1 disabled, for the stage 1 output address (Log 46). -/
def hitMembers (s : State) (pe : Pe) (req : Request) : List TlbEntry :=
  if stageEnabled s.impl pe req.regime .s1 then vaMembers s pe req
  else oaMembers s pe req (Config.disabledStage1Oa req)

/-- A HIT on the one matching entry (R120): its payload as cached; where it holds stage 1 alone and stage 2 applies, the second lookup of R119. -/
def hitEntry (s : State) (pe : Pe) (req : Request) (e : TlbEntry) (second : StageChoice) : State :=
  if e.contents = .s1Only ∧ stage2Applies s.impl pe req.regime = true then lookupStage2 s pe req e second
  else respond s req e.payload e.ctl (.hit e)

/-- `HIT` only if exactly one entry matches, `MULTI` only if two or more do, `MISS` always (R120). A choice the entries do not admit is
a MISS that caches nothing, since MISS is always allowed. No choice is a conflict among entries that are not final: DESIGN CHOICE, Log 48. -/
def lookupChosen (s : State) (pe : Pe) (req : Request) (ch : LookupChoice) : State :=
  match ch.first with
  | .hit =>
    match hitMembers s pe req with
    | [e] => hitEntry s pe req e ch.second
    | _ => miss s pe req {}
  | .multi c =>
    match members s pe req with
    | d :: d' :: m => conflictOutcome s req d (d :: d' :: m) c
    | _ => miss s pe req {}
  | .miss plan => miss s pe req plan

/-- `T_LOOKUP(req)` (R120): with every applicable stage disabled, TLB contents have no effect (R122). -/
def lookup (s : State) (pe : Pe) (req : Request) (ch : LookupChoice) : State :=
  if stageEnabled s.impl pe req.regime .s1 || stage2Applies s.impl pe req.regime then lookupChosen s pe req ch
  else s.withAnswer (.untranslated req)

/-- The request of an access by a PE: its regime in use and its Security state (R119). The regime is the predicate, whatever `CurrentEL`
is, so a PE at EL2 or EL3 whose regime in use is EL1&0 can hit entries of EL1&0: DESIGN CHOICE, Log 45. -/
def requestOf (p : Nat) (pe : Pe) (ia : Nat) (access : Access) : Request where
  pe := p
  regime := pe.ctx.regime
  sec := pe.ctx.sec
  ia := ia
  access := access

end Sys2Proof.Machine
end

