-- ==== Sys2Proof/Machine/Maintenance.lean ====
section
/-! DEFINITION. The completion of invalidations, `SYNC`, the update of locked entries and the boot routine (45_tlbi_aside1.md R246, R247,
41_tlb_lockdown.md R145, 70_reset_and_hazards.md R293). -/

namespace Sys2Proof.Machine

/-- The walk for an address a locked entry covers, with the registers of its owner at this time (R145). -/
def updateWalk (s : State) (pe : Pe) (e : TlbEntry) (u : LockedUpdate) : Request × Walk :=
  let req : Request := { pe := e.owner, regime := e.regime, sec := e.sec, ia := u.ia, access := u.access }
  (req, walkFor s pe req u.entries (match e.contents with
    | .s2Only => .stage2Of u.ia
    | _ => .root))

/-- What `T_LOCKED_UPDATE` sets of an entry from the one a `T_FILL` would make (R145). -/
def updatedEntry (e n : TlbEntry) : TlbEntry :=
  { e with
    payload := n.payload, iaBase := n.iaBase, iaSize := n.iaSize, asid := n.asid, vmid := n.vmid, ctl := n.ctl
    source := n.source }

/-- `T_LOCKED_UPDATE(e, instr)` (R145), where lockdown is supported, the address is one `e` covers, the walk is `Ok` and the picked level
passes R113 and is of the entry's own kind (Log 28). -/
def lockedUpdate (s : State) (e : TlbEntry) (u : LockedUpdate) : Option TlbEntry :=
  match s.pe? e.owner with
  | none => none
  | some pe =>
    if s.impl.lockdownSupported && inputMatches e u.ia then
      let rw := updateWalk s pe e u
      match rw.2.finish with
      | .ok _ =>
        match fillEntry s.impl pe rw.1 rw.2 u.pick with
        | some n => if n.contents = e.contents ∧ n.final = e.final then some (updatedEntry e n) else none
        | none => none
      | _ => none
    else none

/-- What becomes of a locked entry in scope: remove, keep or update, IMPLEMENTATION DEFINED (R142, R246). -/
def lockedFate (s : State) (e : TlbEntry) : LockedFate → List TlbEntry
  | .remove => []
  | .keep => [e]
  | .update u =>
    match lockedUpdate s e u with
    | some n => [n]
    | none => if u.removeOtherwise then [] else [e]

/-- The entries a record reaches: in scope, and owned or usable by a target (R246). -/
def inScope (s : State) (r : Pending) (e : TlbEntry) : Bool :=
  r.scope.covers e && (r.targets.contains e.owner || r.targets.any fun q => usable s q e)

/-- The entries left of a list when a record completes: an unlocked entry it reaches goes; each locked one takes the next fate
(keep, where no fate is given). Every update walks with `TLBS` as it was before the completion, since R246 gives its loop no order:
DESIGN CHOICE, Log 41. -/
def completeEntries (s : State) (r : Pending) : List LockedFate → List TlbEntry → List TlbEntry
  | _, [] => []
  | fates, e :: es =>
    if inScope s r e then
      if e.locked then
        match fates with
        | [] => e :: completeEntries s r [] es
        | f :: fs => lockedFate s e f ++ completeEntries s r fs es
      else completeEntries s r fates es
    else e :: completeEntries s r fates es

/-- The effect of a record on `TLBS` (R246). -/
def invalidate (s : State) (r : Pending) (fates : List LockedFate) : State := s.withTlbs (completeEntries s r fates s.tlbs)

/-- `T_INVAL_COMPLETE(k)` (R246): always enabled for a record of `PENDING` (R308). -/
def complete (s : State) (k : Nat) (fates : List LockedFate) : State :=
  match s.pending[k]? with
  | some r => (invalidate s r fates).withPending (s.pending.eraseIdx k)
  | none => s

/-- The completion of the records of one issuer, in order. -/
def completeIssuer (p : Nat) : List Pending → List (List LockedFate) → State → State
  | [], _, s => s
  | r :: rs, fates, s =>
    if r.issuer = p then completeIssuer p rs fates.tail (invalidate s r (fates.headD []))
    else completeIssuer p rs fates s

/-- `SYNC(p)` (R247): it can happen only when no record of `PENDING` has `issuer = p`, so the records that still have it complete first
(R246, "at the latest at the issuer's next SYNC"; Log 25). -/
def sync (s : State) (p : Nat) (fates : List (List LockedFate)) : State :=
  (completeIssuer p s.pending fates s).withPending (s.pending.filter fun r => r.issuer != p)

/-- `INVALIDATION_ROUTINE(p)` (R293): no entry of the PE stays, locked ones included; it ends with its own `SYNC`. -/
def invalidationRoutine (s : State) (p : Nat) (fates : List (List LockedFate)) : State :=
  sync (s.withTlbs (s.tlbs.filter fun e => e.owner != p)) p fates

end Sys2Proof.Machine
end

