-- ==== Sys2Proof/Machine/Reset.lean ====
section
/-! DEFINITION. `T_RESET` (70_reset_and_hazards.md R290, 10_state.md R35). -/

namespace Sys2Proof.Machine

/-- The `locked` bits of surviving entries are part of the IMPLEMENTATION DEFINED reset state (R35): drawn where lockdown exists, as
they were where no bit is drawn (Log 27). -/
def relock (impl : Impl) (p : Nat) : List Bool → List TlbEntry → List TlbEntry
  | _, [] => []
  | bs, e :: es =>
    if e.owner = p ∧ impl.lockdownSupported = true then
      match bs with
      | [] => e :: relock impl p [] es
      | b :: bs' => { e with locked := b } :: relock impl p bs' es
    else e :: relock impl p bs es

/-- `TLBS` after a reset of PE `p`, by `RESET_TLB_STATE` (R290). -/
def resetEntries (impl : Impl) (p : Nat) (draw : ResetDraw) (es : List TlbEntry) : List TlbEntry :=
  match impl.resetTlbState with
  | .unknown => es.filter (fun e => e.owner != p) ++ draw.entries.map (unknownEntry impl p)
  | .empty => es.filter fun e => e.owner != p
  | .preserved => relock impl p draw.locks es

/-- A PE after its reset (R35): every field drawn but `SCTLR_<el>.M = 0`; the context drawn but `CurrentEL = el`. -/
def resetPe (pe : Pe) (el : RegEl) (draw : ResetDraw) : Pe :=
  { pe with
    regs := draw.regs.set (.sctlrM el) 0
    ctx := { draw.ctx with el := el.toEl } }

/-- `T_RESET(p, el)` (R290): the PE's `PENDING` records are dropped, those of other PEs stay. -/
def resetAct (s : State) (p : Nat) (pe : Pe) (el : RegEl) (draw : ResetDraw) : State :=
  ((s.withTlbs (resetEntries s.impl p draw s.tlbs)).withPending (s.pending.filter fun r => r.issuer != p)).withPe p
    (resetPe pe el draw)

/-- Reset is taken to an implemented Exception level (R34), into an implemented Security state. The other predicates it draws are not
bounded by the levels that exist (DESIGN CHOICE, Log 44), nor `RegimeInUse` by the level of the reset (DESIGN CHOICE, Log 45). -/
def resetPossible (impl : Impl) (el : RegEl) (draw : ResetDraw) : Bool :=
  elImplemented impl el.toEl && secImplemented impl draw.ctx.sec

end Sys2Proof.Machine
end

