-- ==== Sys2Proof/Machine/Events.lean ====
section
/-! DEFINITION. The acts of the agents other than an instruction (00_scope.md R12), and which act comes next. -/

namespace Sys2Proof.Machine

/-- The next act, and the state from which it is made: the head of the agenda, or, where the agenda is empty, the environment's free
choice (20_memory.md R67; Log 7). -/
def nextEvent (s : State) : Event × State :=
  match s.agenda with
  | e :: rest => (e, s.withAgenda rest)
  | [] => (Config.environment s.draws, s.withDraws (s.draws + 1))

/-- The acts that are not instructions, each one atomic step (R67). `step` gives the words of `instr` to the decoder; here, where none
reaches, the word is rejected as any word that is no instruction of the table. -/
def perform (s : State) : Event → Host.Outcome State Fault Refusal
  | .instr _ w => .refused (.notTlbInstruction w)
  | .lookup p ia access ch => onPe s p fun pe => .next (lookup s pe (requestOf p pe ia access) ch)
  | .fill p regime sec ia access plan =>
    onPe s p fun pe => .next (speculativeFill s pe { pe := p, regime := regime, sec := sec, ia := ia, access := access } plan)
  | .evict k => .next (evict s k)
  | .complete k fates => .next (complete s k fates)
  | .sync p fates => onPe s p fun _ => .next (sync s p fates)
  | .ctx p c => onPe s p fun pe => ctxAct s p pe c
  | .xreg p t v => onPe s p fun pe => .next (s.withPe p (xWrite pe t v))
  | .memWrite c a n v =>
    if secImplemented s.impl c then .next (s.withMem (spaceWrite s.impl.byteOrder s.mem c a n v)) else .refused .notImplemented
  | .reset p el draw =>
    onPe s p fun pe => if resetPossible s.impl el draw then .next (resetAct s p pe el draw) else .refused .notImplemented
  | .invalidationRoutine p fates => onPe s p fun _ => .next (invalidationRoutine s p fates)
  | .lockdown op => lockdownAct s op
  | .lockdownException p => onPe s p fun pe => lockdownException s p pe

end Sys2Proof.Machine
end

