-- ==== Sys2Proof/Machine/Step.lean ====
section
/-! DEFINITION. One step of the machine: the next act of an agent. -/

namespace Sys2Proof.Machine

/-- PE `p` executes the word `w`: the decoded instruction, or the rejection of the word. -/
def runWord (s : State) (p : Nat) (w : Word) : Host.Outcome State Fault Refusal :=
  match decode w with
  | .ok i => exec i (s.withCur p)
  | .error r => rejectWord (s.withCur p) w r

/-- One act, from the state it is made from. -/
def act (s : State) : Event → Host.Outcome State Fault Refusal
  | .instr p w => runWord s p w
  | e => perform s e

/-- One step (20_memory.md R67): the next act of an agent. -/
def step (s : State) : Host.Outcome State Fault Refusal := act (nextEvent s).2 (nextEvent s).1

/-- The state in which the executing PE's next act, at the head of the agenda, is the instruction of these bits (Log 7). -/
def State.withFetchWord (s : State) (nbits w : Nat) : State :=
  s.withAgenda (.instr s.cur (tableWord nbits w) :: s.agenda)

end Sys2Proof.Machine
end

