-- ==== Sys2Proof/Safety.lean ====
section
/-! DEFINITION. What the claims call a good state and a good run: the invariant, and the software obligations that are predicates. -/

namespace Sys2Proof.Machine

/-- An entry made by `T_FILL` carries no fault that is never cached, and the tag the rules give it. -/
structure FilledInv (e : TlbEntry) (generates : List WalkFault) : Prop where
  /-- NO_FAULTING_ENTRY (10_state.md R23). -/
  cacheable : ∀ g ∈ generates, neverCached g = false
  /-- No ASID in a regime of one privilege level (42_asid_vmid_tagging.md R163). -/
  singlePrivGlobal : twoPriv e.regime = false → e.asid = none
  /-- No ASID on stage 2 information alone (R163, D25). -/
  stage2Global : e.contents = .s2Only → e.asid = none
  /-- Levels other than the final one are non-global (R168). -/
  nonFinalTagged : twoPriv e.regime = true → e.contents.holdsS1 = true → e.final = false → e.asid.isSome = true
  /-- A VMID only in the EL1&0 regime (R173). -/
  vmidRegime : e.vmid.isSome = true → e.regime = .el10

/-- A member of `TLBS` in a machine with these parameters and this many PEs. -/
structure EntryInv (impl : Impl) (n : Nat) (e : TlbEntry) : Prop where
  ownerExists : e.owner < n
  /-- 10_state.md R21, "> 0". -/
  coversSome : 0 < e.iaSize
  /-- 10_state.md R25. -/
  lockedSupported : e.locked = true → impl.lockdownSupported = true
  /-- 44_common_not_private.md R220. -/
  cnpSupported : e.cnp = true → impl.hasTtcnp = true
  filled : ∀ generates, e.source = .filled generates → FilledInv e generates

/-- A record of `PENDING`. -/
structure PendingInv (n : Nat) (r : Pending) : Prop where
  issuerExists : r.issuer < n
  targetsIssuer : r.issuer ∈ r.targets
  targetsExist : ∀ q ∈ r.targets, q < n
  regime : r.scope.regime = .el10

/-- A PE is at an implemented Exception level, in an implemented Security state (00_scope.md R6). -/
structure PeInv (impl : Impl) (pe : Pe) : Prop where
  level : elImplemented impl pe.ctx.el = true
  security : secImplemented impl pe.ctx.sec = true

/-- The invariant of the machine: every step keeps it. -/
structure MachineInv (s : State) : Prop where
  entries : ∀ e ∈ s.tlbs, EntryInv s.impl s.pes.length e
  records : ∀ r ∈ s.pending, PendingInv s.pes.length r
  pes : ∀ pe ∈ s.pes, PeInv s.impl pe
  memory : Spaces.wf s.mem = true
  cur : s.cur < s.pes.length

/-- An entry translates an input address: `e.ia_base <= ia < e.ia_base + e.ia_size` (10_state.md R21, 40_tlb_caching.md R121). -/
def coversAddress (e : TlbEntry) (ia : Nat) : Prop := e.iaBase ≤ ia ∧ ia < e.iaBase + e.iaSize

/-- The law of tags (42_asid_vmid_tagging.md R161), with the other lines of `Match` but the one on the address, and with `Usable`
(40_tlb_caching.md R121): a PE may use this member of `TLBS` for this request. -/
def tagLaw (s : State) (pe : Pe) (req : Request) (e : TlbEntry) : Prop :=
  e ∈ s.tlbs ∧ usable s req.pe e = true ∧ e.regime = req.regime ∧ e.sec = req.sec
    ∧ (e.asid = none ∨ e.asid = currentAsid s.impl pe req.regime (Config.halfOf req.regime req.ia))
    ∧ (e.vmid = none ∨ e.vmid = some (currentVmid s.impl pe))
    ∧ (e.contents.holdsS1 = true → stageEnabled s.impl pe req.regime .s1 = true)
    ∧ (e.contents.holdsS2 = true → stageEnabled s.impl pe req.regime .s2 = true)

/-- The `require` lines of `T_FILL` for level `i` of a walk, which is `l` (40_tlb_caching.md R113, R115, R120, 60_exceptions.md R262): its
stage is enabled; it is in context, or `FILL_OUT_OF_CONTEXT` holds; it generates none of the three faults; it was read before the read at
which the walk ended in one of them, and is not the level that raised it; no external abort leaves it undetermined (Log 11). -/
def fillPermitted (impl : Impl) (pe : Pe) (regime : Regime) (w : Walk) (i : Nat) (l : WalkLevel) : Prop :=
  w.levels[i]? = some l ∧ stageEnabled impl pe regime l.stage = true
    ∧ (inContext pe.ctx.el regime = true ∨ impl.fillOutOfContext = true)
    ∧ (∀ f, l.generates = some f → f ≠ .translation ∧ f ≠ .addressSize ∧ f ≠ .accessFlag)
    ∧ (∀ kind stage level k, w.finish = .fault kind stage level k → i ≤ k
        ∧ (kind = .translation ∨ kind = .addressSize ∨ kind = .accessFlag → i < k ∧ ¬ (stage = .s1 ∧ l.stage = .s1 ∧ l.level = level)))
    ∧ (∀ stage level determined k needed, w.finish = .externalAbort stage level determined k needed → i ≤ k
        ∧ (determined = false → i < k ∧ i ∉ needed))

/-- A payload and control values drawn from entries (40_tlb_caching.md R123; Log 15): output address, attributes and permissions are each
a member's, and every control value is a member's. -/
def drawnFrom (m : List TlbEntry) (payload : Payload) (ctl : Snapshot) : Prop :=
  (∃ e ∈ m, payload.oa = e.payload.oa) ∧ (∃ e ∈ m, payload.attrs = e.payload.attrs) ∧ (∃ e ∈ m, payload.perms = e.payload.perms)
    ∧ ∀ fv ∈ ctl, ∃ e ∈ m, fv ∈ e.ctl

/-- No request of a PE finds two matching entries (40_tlb_caching.md R123). -/
def conflictFree (s : State) (pe : Pe) (req : Request) : Prop := (members s pe req).length ≤ 1

/-- Two PEs that share tables of a regime agree on what R304 of 70_reset_and_hazards.md asks of software: the current ASID of each VA
range, the current VMID, the Security state, and the Effective value of every cacheable field. -/
def sharingAgrees (impl : Impl) (a b : Pe) (regime : Regime) : Prop :=
  a.ctx.sec = b.ctx.sec
    ∧ (∀ half, currentAsid impl a regime half = currentAsid impl b regime half)
    ∧ currentVmid impl a = currentVmid impl b
    ∧ ∀ f ∈ cacheableFields impl, eff impl a f = eff impl b f

/-- The order of initialisation of 70_reset_and_hazards.md R294 for PE `p` reset to `el`: where an invalidation routine is needed
(R292), it runs between a reset and the first write that enables translation. `ready` says whether it has run since the last reset. -/
def bootOrder (impl : Impl) (p : Nat) (el : RegEl) : Bool → List Event → Bool
  | _, [] => true
  | ready, .reset q _ _ :: es => if q = p then bootOrder impl p el (!impl.resetNeedsRoutine) es else bootOrder impl p el ready es
  | ready, .invalidationRoutine q _ :: es => bootOrder impl p el (ready || q == p) es
  | ready, .ctx q (.field f v) :: es =>
    (ready || !(q == p && f == .sctlrM el && v.getLsbD 0)) && bootOrder impl p el ready es
  | ready, _ :: es => bootOrder impl p el ready es

end Sys2Proof.Machine
end

