-- ==== Sys2Proof/Certificates/Slice0/Obligations.lean ====
section
/-! DEFINITION. The statements for the provers. "Log n" is notes/assumptions/n.md. -/

open Sys2Proof Sys2Proof.Machine

/-! ### Encoding -/

/-- Decode and encode agree on every well-formed instruction (30_encoding.md R92, R93; the words are general knowledge, Log 20). -/
def Obligations.DecodeOfEncode : Prop :=
  ∀ i : Instr, i.wellFormed = true → decode (encode i) = .ok i

/-- Every word that decodes is the encoding of what it decodes to, which is well-formed: no bit of a word is dropped. -/
def Obligations.EncodeOfDecode : Prop :=
  ∀ (w : Word) (i : Instr), decode w = .ok i → i.wellFormed = true ∧ encode i = w

/-- Words written out from the opcode map of R92 (95_test_vectors.md, 2.1), which is general knowledge (Log 20). -/
def Obligations.WrittenWordsDecode : Prop :=
  decode 0xD5088740#32 = .ok (.tlbiAside1 0) ∧ decode 0xD508875F#32 = .ok (.tlbiAside1 31)
    ∧ decode 0xD5088341#32 = .ok (.tlbiAside1is 1) ∧ decode 0xD5088142#32 = .ok (.tlbiAside1os 2)
    ∧ decode 0xD5089743#32 = .ok (.tlbiAside1nxs 3) ∧ decode 0xD508935E#32 = .ok (.tlbiAside1isnxs 30)
    ∧ decode 0xD5089145#32 = .ok (.tlbiAside1osnxs 5)

/-- A word that encodes no instruction never runs as a no-op (30_encoding.md R94, R95; 45_tlbi_aside1.md R251): in the reserved encodings
it is refused as one of them where lockdown is not supported, in the `TLBI` space as another maintenance instruction, and elsewhere as
no TLB instruction, whether lockdown is supported or not. The bits that tell the spaces apart are general knowledge (Log 20, 28). -/
def Obligations.OtherWordsAreRefused : Prop :=
  ∀ (s : State) (p : Nat) (w : Word) (rest : List Event),
    s.agenda = .instr p w :: rest → (∀ i : Instr, i.wellFormed = true → encode i ≠ w) →
    let system := w.extractLsb' 22 10 = 0b1101010100#10
    let op0 := w.extractLsb' 19 2
    let crn := w.extractLsb' 12 4
    let reserved := system ∧ (op0 = 0b01#2 ∨ op0 = 0b11#2) ∧ (crn = 0b1011#4 ∨ crn = 0b1111#4)
    let maintenance := system ∧ w.getLsbD 21 = false ∧ op0 = 0b01#2 ∧ (crn = 0b1000#4 ∨ crn = 0b1001#4)
    (reserved → s.impl.lockdownSupported = false → step s = .refused (.implementationDefinedEncoding w))
    ∧ (maintenance → step s = .refused (.otherTlbMaintenance w))
    ∧ (¬ reserved → ¬ maintenance → step s = .refused (.notTlbInstruction w))

/-- A step at which PE `p` is given a word runs the instruction the word decodes to, as that PE, with the word taken off the agenda;
nothing is added around it. -/
def Obligations.StepRunsDecodedInstruction : Prop :=
  ∀ (s : State) (p : Nat) (w : Word) (i : Instr) (rest : List Event),
    s.agenda = .instr p w :: rest → decode w = .ok i → step s = exec i { s with agenda := rest, cur := p }

/-! ### The instructions -/

/-- `TLBI ASIDE1` and, with the XS feature, `TLBI ASIDE1NXS` append one record whose only target is the executing PE, and change nothing
else (R241, R242, R245). That the executing PE is the only target, and that `NXS` needs its feature, are general knowledge (Log 23), as
are the regime, Security state and VMID of the scope (Log 22). -/
def Obligations.LocalFormsIssueOneRecord : Prop :=
  ∀ (s : State) (pe : Pe) (rt : Nat), s.pe? s.cur = some pe → pe.ctx.tlbiAllowed = true →
    exec (.tlbiAside1 rt) s = .next { s with pending := s.pending ++
      [{ issuer := s.cur, targets := [s.cur]
         scope := { asid := asidOperand (xRead pe rt), regime := .el10, sec := pe.ctx.sec, vmid := currentVmid s.impl pe } }] }
    ∧ (s.impl.hasXs = true →
      exec (.tlbiAside1nxs rt) s = .next { s with pending := s.pending ++
        [{ issuer := s.cur, targets := [s.cur]
           scope := { asid := asidOperand (xRead pe rt), regime := .el10, sec := pe.ctx.sec, vmid := currentVmid s.impl pe } }] })

/-- `TLBI ASIDE1IS` and, with the XS feature, `TLBI ASIDE1ISNXS` append one record whose targets are the PEs of the executing PE's
Inner Shareable domain, and change nothing else (R241, R243, R248; Log 22, 23). -/
def Obligations.InnerFormsIssueOneRecord : Prop :=
  ∀ (s : State) (pe : Pe) (rt : Nat), s.pe? s.cur = some pe → pe.ctx.tlbiAllowed = true →
    ∃ targets : List Nat,
      (∀ q, q ∈ targets ↔ ∃ other, s.pe? q = some other ∧ other.inner = pe.inner)
      ∧ exec (.tlbiAside1is rt) s = .next { s with pending := s.pending ++
          [{ issuer := s.cur, targets := targets
             scope := { asid := asidOperand (xRead pe rt), regime := .el10, sec := pe.ctx.sec, vmid := currentVmid s.impl pe } }] }
      ∧ (s.impl.hasXs = true →
        exec (.tlbiAside1isnxs rt) s = .next { s with pending := s.pending ++
          [{ issuer := s.cur, targets := targets
             scope := { asid := asidOperand (xRead pe rt), regime := .el10, sec := pe.ctx.sec, vmid := currentVmid s.impl pe } }] })

/-- With the Outer Shareable feature, `TLBI ASIDE1OS` and, with the XS feature too, `TLBI ASIDE1OSNXS` append one record whose targets
are the PEs of the executing PE's Outer Shareable domain, a superset of its Inner Shareable domain, and change nothing else (R241,
R244, R249; Log 22, 23). -/
def Obligations.OuterFormsIssueOneRecord : Prop :=
  ∀ (s : State) (pe : Pe) (rt : Nat), s.pe? s.cur = some pe → pe.ctx.tlbiAllowed = true → s.impl.hasTlbiOs = true →
    ∃ targets : List Nat,
      (∀ q, q ∈ targets ↔ ∃ other, s.pe? q = some other ∧ (other.outer = pe.outer ∨ other.inner = pe.inner))
      ∧ exec (.tlbiAside1os rt) s = .next { s with pending := s.pending ++
          [{ issuer := s.cur, targets := targets
             scope := { asid := asidOperand (xRead pe rt), regime := .el10, sec := pe.ctx.sec, vmid := currentVmid s.impl pe } }] }
      ∧ (s.impl.hasXs = true →
        exec (.tlbiAside1osnxs rt) s = .next { s with pending := s.pending ++
          [{ issuer := s.cur, targets := targets
             scope := { asid := asidOperand (xRead pe rt), regime := .el10, sec := pe.ctx.sec, vmid := currentVmid s.impl pe } }] })

/-- Executing any member of the family does not remove entries at that step: it appends one record to `PENDING`, of the executing PE,
with the targets of the instruction (which PEs they are is `LocalFormsIssueOneRecord` to `OuterFormsIssueOneRecord`; Log 23) and the
scope of the operand ASID with the Security state and VMID as they are now (Log 22); every other part of the state is unchanged (R241). -/
def Obligations.IssueRemovesNothing : Prop :=
  ∀ (i : Instr) (s t : State), exec i s = .next t →
    ∃ pe, s.pe? s.cur = some pe
      ∧ t.pending = s.pending ++
          [{ issuer := s.cur
             targets := match i with
               | .tlbiAside1 _ => targetsLocal s s.cur
               | .tlbiAside1is _ => targetsInner s s.cur
               | .tlbiAside1os _ => targetsOuter s s.cur
               | .tlbiAside1nxs _ => targetsLocal s s.cur
               | .tlbiAside1isnxs _ => targetsInner s s.cur
               | .tlbiAside1osnxs _ => targetsOuter s s.cur
             scope := scopeAside1 s.impl pe (asidOperand (xRead pe i.rt)) }]
      ∧ t.tlbs = s.tlbs ∧ t.pes = s.pes ∧ t.mem = s.mem ∧ t.impl = s.impl ∧ t.cur = s.cur ∧ t.answer = s.answer
      ∧ t.agenda = s.agenda ∧ t.draws = s.draws ∧ ∀ c a, memByte (t.mem.of c) a = memByte (s.mem.of c) a

/-- The operand (R93, general knowledge, Log 20): bits 63 to 48 of `x[t]`; the low 48 bits play no part; register 31 gives 0. -/
def Obligations.OperandIsTopSixteenBits : Prop :=
  ∀ (pe : Pe) (t : Nat),
    (asidOperand (xRead pe 31) = 0)
    ∧ (∀ h : t < 31, ∀ k < 16, (asidOperand (xRead pe t)).getLsbD k = (pe.x[t]).getLsbD (48 + k))
    ∧ ∀ v v' : XWord, v.extractLsb' 48 16 = v'.extractLsb' 48 16 → asidOperand v = asidOperand v'

/-- Where `TLBI_ALLOWED(pe)` is false every member of the family whose feature is implemented is refused (R250). `TLBI ASIDE1` and
`TLBI ASIDE1IS` need none; what the others need is general knowledge (Log 23). -/
def Obligations.NotAllowedIsRefused : Prop :=
  ∀ (s : State) (pe : Pe) (i : Instr), s.pe? s.cur = some pe → pe.ctx.tlbiAllowed = false →
    (match i with
      | .tlbiAside1 _ => True
      | .tlbiAside1is _ => True
      | .tlbiAside1os _ => s.impl.hasTlbiOs = true
      | .tlbiAside1nxs _ => s.impl.hasXs = true
      | .tlbiAside1isnxs _ => s.impl.hasXs = true
      | .tlbiAside1osnxs _ => s.impl.hasTlbiOs = true ∧ s.impl.hasXs = true) →
    exec i s = .refused .tlbiNotAllowed

/-- Where a feature is absent the forms it brings are no `TLBI` instructions (R92, general knowledge, Log 23). -/
def Obligations.AbsentFeatureIsRefused : Prop :=
  ∀ (s : State) (pe : Pe) (rt : Nat), s.pe? s.cur = some pe →
    (s.impl.hasTlbiOs = false →
      exec (.tlbiAside1os rt) s = .refused .featureAbsent ∧ exec (.tlbiAside1osnxs rt) s = .refused .featureAbsent)
    ∧ (s.impl.hasXs = false →
      exec (.tlbiAside1nxs rt) s = .refused .featureAbsent ∧ exec (.tlbiAside1isnxs rt) s = .refused .featureAbsent
        ∧ exec (.tlbiAside1osnxs rt) s = .refused .featureAbsent)

/-- The scope of the family (R240): the entries whose tag is the specified ASID, by a full 16-bit compare; the VA range an entry
translates, and the value and Effective value of `TCR2_ELx.A2`, play no part. That the scope is EL1&0, the PE's Security state and
its current VMID is general knowledge (Log 22). -/
def Obligations.ScopeIgnoresHalfAndA2 : Prop :=
  ∀ (impl : Impl) (pe : Pe) (a : Ident) (e : TlbEntry),
    ((scopeAside1 impl pe a).covers e = true ↔
      e.asid = some a ∧ e.regime = .el10 ∧ e.sec = pe.ctx.sec ∧ (e.vmid = none ∨ e.vmid = some (currentVmid impl pe)))
    ∧ (∀ h, (scopeAside1 impl pe a).covers { e with half := h } = (scopeAside1 impl pe a).covers e)
    ∧ (∀ x v, scopeAside1 impl { pe with regs := pe.regs.set (.a2 x) v } a = scopeAside1 impl pe a)
    ∧ ∀ m, scopeAside1 impl { pe with ctx := { pe.ctx with eff := m } } a = scopeAside1 impl pe a

/-- The surrounding machine's write of a general register (R27; Log 5): the register reads back the value, the zero register discards
it, and nothing else changes, in this PE or in the state, but that the act leaves the agenda. -/
def Obligations.GeneralRegisterWrite : Prop :=
  ∀ (s : State) (p : Nat) (pe : Pe) (k : Nat) (v : XWord) (rest : List Event),
    s.agenda = .xreg p k v :: rest → s.pe? p = some pe → k < 32 →
    ∃ x : Vector XWord 31,
      step s = .next { s with agenda := rest, pes := s.pes.set p { pe with x := x } }
      ∧ xRead { pe with x := x } k = (if k = 31 then 0 else v)
      ∧ ∀ j, j ≠ k → xRead { pe with x := x } j = xRead pe j

/-! ### Identifiers and tags -/

/-- The identification fields are constant: no step changes what they read, which says the implemented sizes. The encodings are general
knowledge (R201, R205; Log 35). -/
def Obligations.IdentificationFieldsAreConstant : Prop :=
  ∀ s t : State, step s = .next t →
    idAsidBits t.impl = idAsidBits s.impl ∧ idVmidBits t.impl = idVmidBits s.impl
      ∧ (idAsidBits t.impl = 0b0010#4 ↔ s.impl.asidBits = .bits16) ∧ (idVmidBits t.impl = 0b0010#4 ↔ s.impl.vmidBits = .bits16)

/-- The current ASID under `TCR_ELx.AS = 0`, on an 8-bit implementation (D11), or for VMSAv8-32 (R204), has its upper byte 0 and is the
low byte of the field that `AsidSelectionRule` says is selected; with 16 bits and AS = 1 it is the whole field (general knowledge,
Log 21) (R202). -/
def Obligations.AsidSizeRule : Prop :=
  ∀ (impl : Impl) (pe : Pe) (regime : Regime) (x : CtlEl) (half : Half), controllingEl regime = some x →
    let y := asidSelect (effBit impl pe (.a2 x)) (regBit impl pe.regs (.a1 x)) half
    ((regBit impl pe.regs (.asSize x) = false ∨ impl.asidBits = .bits8 ∨ usesV8_32 impl pe regime = true) →
        ∃ a, currentAsid impl pe regime half = some a ∧ a.extractLsb' 8 8 = 0#8
          ∧ a.extractLsb' 0 8 = (regRead impl pe.regs (.asid y x)).extractLsb' 0 8)
      ∧ ((regBit impl pe.regs (.asSize x) = true ∧ impl.asidBits = .bits16 ∧ usesV8_32 impl pe regime = false) →
        currentAsid impl pe regime half = some (regRead impl pe.regs (.asid y x)))

/-- Which ASID field is current (R165): with `A2 = 1` the one of the VA range, whatever `A1`; with `A2 = 0` the one `A1` selects, for
both ranges; `A2` reads 0 without `TCR2_ELx`. The upper range under two ASIDs and the values of `A1` are general knowledge (Log 21).
Stated where all sixteen bits are used. -/
def Obligations.AsidSelectionRule : Prop :=
  ∀ (impl : Impl) (pe : Pe) (regime : Regime) (x : CtlEl), controllingEl regime = some x →
    impl.asidBits = .bits16 → usesV8_32 impl pe regime = false → regBit impl pe.regs (.asSize x) = true →
    (effBit impl pe (.a2 x) = true → ∀ half, currentAsid impl pe regime half = some (pe.regs.get (.asid half x)))
    ∧ (effBit impl pe (.a2 x) = false → regBit impl pe.regs (.a1 x) = false →
        ∀ half, currentAsid impl pe regime half = some (pe.regs.get (.asid .lower x)))
    ∧ (effBit impl pe (.a2 x) = false → regBit impl pe.regs (.a1 x) = true →
        ∀ half, currentAsid impl pe regime half = some (pe.regs.get (.asid .upper x)))
    ∧ (impl.hasTcr2 = false → effBit impl pe (.a2 x) = false)

/-- The current VMID (R172, R206): the whole field with 16 bits, EL2 using AArch64 and `VS = 1` (general knowledge, Log 21); otherwise
its low byte with the upper byte 0. EL2 uses AArch64 where both the implementation and the PE's context say so (Log 49). The field itself
still reads as written. -/
def Obligations.VmidSizeRule : Prop :=
  ∀ (impl : Impl) (pe : Pe),
    (impl.vmidBits = .bits16 → El.el2 ∈ impl.aarch64Els → pe.ctx.el2Aarch64 = true → regBit impl pe.regs .vs = true →
        currentVmid impl pe = pe.regs.vmid)
    ∧ ((impl.vmidBits = .bits8 ∨ El.el2 ∉ impl.aarch64Els ∨ pe.ctx.el2Aarch64 = false ∨ regBit impl pe.regs .vs = false) →
        (currentVmid impl pe).extractLsb' 8 8 = 0#8
          ∧ (currentVmid impl pe).extractLsb' 0 8 = pe.regs.vmid.extractLsb' 0 8)
    ∧ ∀ v, regRead impl (pe.regs.set .vmid v) .vmid = v

/-- Software running with `AS = 0` must write the upper byte of the operand as 0 (R203, R303): no entry it fills is in the scope of an
operand whose upper byte is not 0, whichever PE issues it. -/
def Obligations.UpperOperandByteMatchesNothing : Prop :=
  ∀ (impl : Impl) (pe issuer : Pe) (req : Request) (w : Walk) (pick : FillPick) (e : TlbEntry) (a : Ident),
    fillEntry impl pe req w pick = some e →
    (∀ x, controllingEl req.regime = some x → regBit impl pe.regs (.asSize x) = false) →
    a.extractLsb' 8 8 ≠ 0#8 → (scopeAside1 impl issuer a).covers e = false

/-- Forced non-global (R170): where `TCR2_ELx.FNGy` is 1 the nG field plays no part in the `TTBRy_ELx` VA range and every entry holding
stage 1 information there is cached as non-global, with the current ASID, whatever `TCR2_ELx.A2`; without `TCR2_ELx` the field reads 0.
That the Effective value of the field is meant is R170's own reading of the source; that the tag is the current ASID is R175. -/
def Obligations.ForcedNonGlobal : Prop :=
  ∀ (impl : Impl) (pe : Pe) (req : Request) (w : Walk) (x : CtlEl),
    controllingEl req.regime = some x →
    (effBit impl pe (.fng (Config.halfOf req.regime req.ia) x) = true →
      (∀ (i : Nat) (l : WalkLevel) (b : Bool),
          nonGlobal impl pe req.regime req.sec (Config.halfOf req.regime req.ia) w i { l with nG := b } = true)
      ∧ ∀ pick e, fillEntry impl pe req w pick = some e → e.contents.holdsS1 = true →
          e.asid = currentAsid impl pe req.regime (Config.halfOf req.regime req.ia) ∧ e.asid ≠ none)
    ∧ (impl.hasTcr2 = false → ∀ half, regRead impl pe.regs (.fng half x) = 0 ∧ effBit impl pe (.fng half x) = false)

/-- NSTable (R169, as R171 collects it): in Secure state, in a two-privilege-level regime, a table with NSTable = 1 at any stage 1 level
above makes the translation non-global whatever nG; in Non-secure and Realm state NSTable plays no part. That "any level" is a stage 1
level above this one is R171's. -/
def Obligations.NsTableActsInSecureStateOnly : Prop :=
  ∀ (impl : Impl) (pe : Pe) (regime : Regime) (half : Half) (w : Walk) (i : Nat) (l : WalkLevel) (x : CtlEl),
    controllingEl regime = some x →
    ((∃ j m, j < i ∧ w.levels[j]? = some m ∧ m.stage = .s1 ∧ m.nsTable = true) →
      ∀ b, nonGlobal impl pe regime .secure half w i { l with nG := b } = true)
    ∧ ∀ sec, sec ≠ .secure → ∀ w' : Walk, nonGlobal impl pe regime sec half w i l = nonGlobal impl pe regime sec half w' i l

/-- The ASID tag of a new entry (R168, R171, R175). Stage 2 information and single-privilege regimes give none (R163, D25). Elsewhere the
tag is the current ASID exactly when the translation is non-global by nG = 1 (general knowledge, Log 21), FNGy = 1, NSTable = 1 above the
stage 1 level in Secure state, or a level other than the final one; a combined entry asks this of the stage 1 level it holds, and counts
as not final where either level is (Log 37). -/
def Obligations.AsidTagOfNewEntry : Prop :=
  ∀ (impl : Impl) (pe : Pe) (req : Request) (w : Walk) (pick : FillPick) (e : TlbEntry),
    fillEntry impl pe req w pick = some e →
    let half := Config.halfOf req.regime req.ia
    let nsAbove := fun (i : Nat) => req.sec = .secure ∧ ∃ j m, j < i ∧ w.levels[j]? = some m ∧ m.stage = .s1 ∧ m.nsTable = true
    let current := e.asid = currentAsid impl pe req.regime half ∧ e.asid ≠ none
    (twoPriv req.regime = false → e.asid = none)
    ∧ (∀ i l, pick = .single i → w.levels[i]? = some l →
        (l.stage = .s2 → e.asid = none)
        ∧ (∀ x, controllingEl req.regime = some x → l.stage = .s1 →
            let tagged := l.final = false ∨ l.nG = true ∨ effBit impl pe (.fng half x) = true ∨ nsAbove i
            (tagged → current) ∧ (¬ tagged → e.asid = none)))
    ∧ (∀ i1 i2 l1 l2, pick = .combined i1 i2 → w.levels[i1]? = some l1 → w.levels[i2]? = some l2 →
        ∀ x, controllingEl req.regime = some x →
          let tagged := l1.final = false ∨ l2.final = false ∨ l1.nG = true ∨ effBit impl pe (.fng half x) = true ∨ nsAbove i1
          (tagged → current) ∧ (¬ tagged → e.asid = none))

/-- The VMID of a new entry (R173): in the EL1&0 regime with EL2 enabled every entry, global or not, of stage 1 or of stage 2, whatever
stage is disabled, carries the current VMID; with EL2 not enabled, and in every other regime, it carries none. -/
def Obligations.VmidTagOfNewEntry : Prop :=
  ∀ (impl : Impl) (pe : Pe) (req : Request) (w : Walk) (pick : FillPick) (e : TlbEntry),
    fillEntry impl pe req w pick = some e →
    (req.regime = .el10 → pe.ctx.el2Enabled = true → e.vmid = some (currentVmid impl pe))
    ∧ (req.regime = .el10 → pe.ctx.el2Enabled = false → e.vmid = none)
    ∧ (req.regime ≠ .el10 → e.vmid = none)

/-- How fields read (R6, R8, D10, D28). A field of an absent feature: a direct read and the Effective value are 0. Every other field: a
direct read is what is stored, and the Effective value is that read, but where the context gives it a value, which is then the first one
given, cut to the field's width (Log 17). The walk and the lockdown mechanism are given each field as it reads. -/
def Obligations.AbsentFeaturesReadZero : Prop :=
  ∀ (impl : Impl) (pe : Pe) (f : Field),
    (fieldPresent impl f = false → regRead impl pe.regs f = 0 ∧ eff impl pe f = 0)
    ∧ (fieldPresent impl f = true → regRead impl pe.regs f = pe.regs.get f
        ∧ ((∀ v, (f, v) ∉ pe.ctx.eff) → eff impl pe f = pe.regs.get f)
        ∧ ∀ pre v post, pe.ctx.eff = pre ++ (f, v) :: post → (∀ u, (f, u) ∉ pre) → eff impl pe f = fieldTrunc f v)
    ∧ (pe.asRead impl).regs.get f = regRead impl pe.regs f
    ∧ (fieldPresent impl f = false ↔
        ((∃ x, f = .a2 x) ∨ ∃ y x, f = .fng y x) ∧ impl.hasTcr2 = false
        ∨ ((∃ y x, f = .cnp y x) ∨ f = .cnpEl3 ∨ f = .vttbrCnp) ∧ impl.hasTtcnp = false)

/-! ### Filling -/

/-- `OutOfContext` (R111): exactly the cases of the list. -/
def Obligations.OutOfContextCases : Prop :=
  ∀ (el : El) (regime : Regime),
    (outOfContext el regime = true ↔
      ((el = .el2 ∨ el = .el3) ∧ regime = .el10) ∨ (el = .el3 ∧ (regime = .el2 ∨ regime = .el20)))
    ∧ (inContext el regime = true ↔ outOfContext el regime = false)

/-- `T_FILL` by a walk that no lookup asked for (R113, R115): the step answers a next state, in which `TLBS` has gained exactly the entries
that the walk of this moment gives for the picks, each as one more member (Log 42), and nothing else has changed. Whatever the walk, every
level an entry is made of meets the `require` lines, among them that it lies before the read at which the walk ended in one of the three
faults and is not the level that raised it (R120, R262). The entry's fields are as R113 sets them: those of the level, or, of a stage 1 and
a stage 2 level together, the combined range and payload (Log 13; final where both levels are, Log 37), with the Effective value of each
cacheable field in use (R24; Log 18). -/
def Obligations.FillsOnlyWhatIsPermitted : Prop :=
  (∀ (s : State) (p : Nat) (pe : Pe) (regime : Regime) (sec : Sec) (ia : Nat) (access : Access) (plan : WalkPlan) (rest : List Event),
    s.agenda = .fill p regime sec ia access plan :: rest → s.pe? p = some pe →
    let req : Request := { pe := p, regime := regime, sec := sec, ia := ia, access := access }
    step s = .next { s with
      agenda := rest
      tlbs := s.tlbs ++ plan.fills.filterMap (fillEntry s.impl pe req (walkFor s pe req plan.entries .root)) })
  ∧ ∀ (impl : Impl) (pe : Pe) (req : Request) (w : Walk) (pick : FillPick) (e : TlbEntry), fillEntry impl pe req w pick = some e →
      e.owner = req.pe ∧ e.regime = req.regime ∧ e.sec = req.sec ∧ e.locked = false ∧ 0 < e.iaSize
      ∧ (∀ f v, (f, v) ∈ e.ctl ↔ f ∈ cacheableFields impl ∧ fieldUsed req.regime e.contents f = true ∧ v = eff impl pe f)
      ∧ (∀ i, pick = .single i → ∃ l, fillPermitted impl pe req.regime w i l
          ∧ e.final = l.final ∧ e.iaBase = l.iaBase ∧ e.iaSize = l.iaSize ∧ e.payload = l.descriptor
          ∧ (l.stage = .s1 → e.contents = .s1Only ∧ e.half = halfOf req.regime e.iaBase)
          ∧ (l.stage = .s2 → e.contents = .s2Only ∧ e.half = none))
      ∧ (∀ i1 i2, pick = .combined i1 i2 → ∃ l1 l2,
          fillPermitted impl pe req.regime w i1 l1 ∧ fillPermitted impl pe req.regime w i2 l2 ∧ l1.stage = .s1 ∧ l2.stage = .s2
          ∧ e.final = (l1.final && l2.final) ∧ (e.iaBase, e.iaSize) = Config.combinedRange l1 l2 ∧ e.contents = .s1s2
          ∧ e.half = halfOf req.regime e.iaBase ∧ e.payload = Config.combinedPayload l1.descriptor l2.descriptor)

/-- Every fill that the `require` lines of `T_FILL` permit is admitted (R113): a level of which they hold, and a stage 1 level with a
stage 2 level, of which they hold, give an entry, unless the range they cover is empty (Log 37). -/
def Obligations.PermittedFillsAreAdmitted : Prop :=
  ∀ (impl : Impl) (pe : Pe) (req : Request) (w : Walk),
    (∀ i l, fillPermitted impl pe req.regime w i l → l.iaSize ≠ 0 → ∃ e, fillEntry impl pe req w (.single i) = some e)
    ∧ ∀ i1 i2 l1 l2, fillPermitted impl pe req.regime w i1 l1 → fillPermitted impl pe req.regime w i2 l2 →
        l1.stage = .s1 → l2.stage = .s2 → (Config.combinedRange l1 l2).2 ≠ 0 →
        ∃ e, fillEntry impl pe req w (.combined i1 i2) = some e

/-- With `FILL_OUT_OF_CONTEXT` false (D2) an out-of-context regime gets no entry, by a fill or by a lookup (R111, R113). -/
def Obligations.OutOfContextRegimesAreNotFilled : Prop :=
  ∀ (s t : State) (p : Nat) (pe : Pe) (ev : Event) (rest : List Event) (regime : Regime),
    s.agenda = ev :: rest → s.pe? p = some pe → s.impl.fillOutOfContext = false → outOfContext pe.ctx.el regime = true →
    ((∃ sec ia access plan, ev = .fill p regime sec ia access plan) ∨
      (pe.ctx.regime = regime ∧ ∃ ia access ch, ev = .lookup p ia access ch)) →
    step s = .next t → t.tlbs = s.tlbs

/-! ### Looking up -/

/-- A lookup by an existing PE answers a next state, whatever it finds: no register, record, byte of memory or parameter changes, no
entry goes, and what comes is what `T_FILL` makes, for the picks of the choice, of the walk the choice makes: from the base registers on
a MISS, or of the output of the `S1Only` entry hit on a MISS of stage 2. A fault it raises is its answer (R120, R260; Log 9). -/
def Obligations.LookupFrame : Prop :=
  ∀ (s : State) (p : Nat) (pe : Pe) (ia : Nat) (access : Access) (ch : LookupChoice) (rest : List Event),
    s.agenda = .lookup p ia access ch :: rest → s.pe? p = some pe →
    let req := requestOf p pe ia access
    ∃ es a, step s = .next { s with agenda := rest, tlbs := s.tlbs ++ es, answer := some a }
      ∧ ∀ e ∈ es, ∃ (start : WalkStart) (plan : WalkPlan) (pick : FillPick), pick ∈ plan.fills
          ∧ fillEntry s.impl pe req (walkFor s pe req plan.entries start) pick = some e
          ∧ ((start = .root ∧ ch.first = .miss plan)
            ∨ (ch.first = .hit ∧ ch.second = .miss plan
                ∧ ∃ e1, hitMembers s pe req = [e1] ∧ e1.contents = .s1Only ∧ start = .stage2Of (outputFor e1 ia)))

/-- `Match` and the law of tags (R121, R161): whatever a lookup answers from entries, by a HIT, by a HIT of each stage, or by a draw from
several that match (how those two join is Log 15), it answers from members of `TLBS` that the PE may use, of its regime and Security state,
whose ASID is none or the PE's current one for the VA range of the address, whose VMID is none or its current one, whose stages are enabled,
and which cover the address: that of the request for stage 1 information, and for stage 2 information alone the stage 1 output address,
which is that of the `S1Only` entry (Log 13) or of the disabled stage 1 (Log 14). The same holds of every non-final entry a walk starts
from, with the stage 2 input addresses of the walk (Log 11). That no other entry answers, after a stage 1 walk or from a level other than
the final one, is Log 46 and 48. -/
def Obligations.HitObeysTags : Prop :=
  ∀ (s : State) (p : Nat) (pe : Pe) (ia : Nat) (access : Access), s.pe? p = some pe →
    let req := requestOf p pe ia access
    let lawful := fun (e : TlbEntry) (a : Nat) =>
      e ∈ s.tlbs ∧ usable s p e = true ∧ e.regime = pe.ctx.regime ∧ e.sec = pe.ctx.sec
        ∧ (e.asid = none ∨ e.asid = currentAsid s.impl pe pe.ctx.regime (Config.halfOf pe.ctx.regime ia))
        ∧ (e.vmid = none ∨ e.vmid = some (currentVmid s.impl pe))
        ∧ (e.contents.holdsS1 = true → stageEnabled s.impl pe pe.ctx.regime .s1 = true)
        ∧ (e.contents.holdsS2 = true → stageEnabled s.impl pe pe.ctx.regime .s2 = true)
        ∧ e.iaBase ≤ a ∧ a < e.iaBase + e.iaSize
    let stage1 := fun (e : TlbEntry) => lawful e ia ∧ e.final = true ∧ e.contents.holdsS1 = true
    let stage2 := fun (oa : Nat) (e : TlbEntry) => lawful e oa ∧ e.final = true ∧ e.contents = .s2Only
    let disabled := fun (e : TlbEntry) =>
      stageEnabled s.impl pe pe.ctx.regime .s1 = false ∧ stage2 (Config.disabledStage1Oa req) e
    let first := fun (e : TlbEntry) => stage1 e ∧ e.contents = .s1Only
    (∀ (ks : List Nat) (start : WalkStart), ∀ e ∈ walkEntries s pe req ks start, e.final = false
        ∧ (e.contents.holdsS1 = true → start = .root ∧ lawful e ia)
        ∧ (e.contents.holdsS1 = false → ∃ a ∈ walkStage2Inputs s pe req ks start, lawful e a))
    ∧ ∀ (t : State) (ch : LookupChoice) (rest : List Event) (tr : Translation),
        s.agenda = .lookup p ia access ch :: rest → step s = .next t → t.answer = some (.translated req tr) →
        (∀ e, tr.via = .hit e → (stage1 e ∨ disabled e) ∧ tr.payload = e.payload ∧ tr.ctl = e.ctl)
        ∧ (∀ e e', tr.via = .pair e e' → first e ∧ stage2 (outputFor e ia) e'
            ∧ tr.payload = Config.combinedPayload e.payload e'.payload ∧ tr.ctl = e.ctl ++ e'.ctl)
        ∧ (∀ e, tr.via = .walkAfter e → first e ∧ ∃ result, tr.payload = Config.combinedPayload e.payload result)
        ∧ (tr.via = .conflict → ∃ m, drawnFrom m tr.payload tr.ctl
            ∧ ∀ e ∈ m, stage1 e ∨ disabled e ∨ ∃ e1, first e1 ∧ stage2 (outputFor e1 ia) e)
        ∧ (∀ e, tr.via = .conflictAfter e → first e
            ∧ ∃ m payload ctl, (∀ e' ∈ m, stage2 (outputFor e ia) e') ∧ drawnFrom m payload ctl
              ∧ tr.payload = Config.combinedPayload e.payload payload ∧ tr.ctl = e.ctl ++ ctl)

/-- `M` is exact (R120, R121): the members for an input address, and those for a stage 1 output address, are exactly the final entries
that hold the information, that the PE may use and of which every line of `Match` holds; and `M` is those for the address of the request
with, where stage 2 applies, those for the outputs of the `S1Only` ones (Log 13) and no others (Log 46), or, with stage 1 disabled, those
for its output (Log 14). -/
def Obligations.MembersAreExact : Prop :=
  ∀ (s : State) (pe : Pe) (req : Request) (e : TlbEntry),
    let lawful := fun (a : Nat) =>
      e ∈ s.tlbs ∧ e.final = true ∧ usable s req.pe e = true ∧ e.regime = req.regime ∧ e.sec = req.sec
        ∧ (e.asid = none ∨ e.asid = currentAsid s.impl pe req.regime (Config.halfOf req.regime req.ia))
        ∧ (e.vmid = none ∨ e.vmid = some (currentVmid s.impl pe))
        ∧ (e.contents.holdsS1 = true → stageEnabled s.impl pe req.regime .s1 = true)
        ∧ (e.contents.holdsS2 = true → stageEnabled s.impl pe req.regime .s2 = true)
        ∧ e.iaBase ≤ a ∧ a < e.iaBase + e.iaSize
    (e ∈ vaMembers s pe req ↔ lawful req.ia ∧ e.contents.holdsS1 = true)
    ∧ (∀ oa, e ∈ oaMembers s pe req oa ↔ lawful oa ∧ e.contents = .s2Only)
    ∧ (stageEnabled s.impl pe req.regime .s1 = true → (e ∈ members s pe req ↔
        e ∈ vaMembers s pe req
        ∨ (stage2Applies s.impl pe req.regime = true
          ∧ ∃ e1 ∈ vaMembers s pe req, e1.contents = .s1Only ∧ e ∈ oaMembers s pe req (outputFor e1 req.ia))))
    ∧ (stageEnabled s.impl pe req.regime .s1 = false →
        (e ∈ members s pe req ↔ e ∈ oaMembers s pe req (Config.disabledStage1Oa req)))

/-- HIT and MISS are both admitted (R120): where one entry matches and holds all the request needs, the choice HIT answers its payload as
cached, with the control values cached with it, and nothing else changes; the choice MISS answers what the walk of this moment gives: its
result under the PE's own control values (R222), its fault, or the external abort, each a recorded answer of a step that goes on (Log 9),
and it caches what its picks make of that walk, each as one more member (Log 42). -/
def Obligations.HitAndMissAdmitted : Prop :=
  ∀ (s : State) (p : Nat) (pe : Pe) (ia : Nat) (access : Access) (second : StageChoice) (plan : WalkPlan) (rest : List Event)
    (e : TlbEntry),
    s.pe? p = some pe →
    let req := requestOf p pe ia access
    let stage1 := stageEnabled s.impl pe pe.ctx.regime .s1
    let stage2 := stage2Applies s.impl pe pe.ctx.regime
    (s.agenda = .lookup p ia access { first := .hit, second := second } :: rest →
      stage1 = true → (e.contents ≠ .s1Only ∨ stage2 = false) → vaMembers s pe req = [e] →
      step s = .next { s with agenda := rest
                              answer := some (.translated req { payload := e.payload, ctl := e.ctl, via := .hit e }) })
    ∧ (s.agenda = .lookup p ia access { first := .miss plan, second := second } :: rest → (stage1 = true ∨ stage2 = true) →
      let w := walkFor s pe req plan.entries .root
      let contents : Contents := if stage1 then (if stage2 then .s1s2 else .s1Only) else .s2Only
      step s = .next { s with
        agenda := rest
        tlbs := s.tlbs ++ plan.fills.filterMap (fillEntry s.impl pe req w)
        answer := some (match w.finish with
          | .ok result => .translated req { payload := result, ctl := ctlSnapshot s.impl pe pe.ctx.regime contents, via := .walk }
          | .fault kind stage level _ => .faulted (walkFault req stage level kind)
          | .externalAbort stage level _ _ _ => .faulted (.externalAbortOnWalk req stage level)) })

/-- A lookup where stage 2 applies (R119, R120, R121). With stage 1 disabled, one `S2Only` entry that matches the stage 1 output address
(Log 14) answers alone. An `S1Only` entry that matches alone is followed by a lookup of its output address (Log 13): one `S2Only` entry
for it answers with it, several raise the conflict abort or give a drawn result joined to it (Log 15), and a MISS walks stage 2 of that
address, answers its result joined to the entry, its fault or abort (Log 9), and caches what its picks make of that walk, each as one
more member (Log 42). -/
def Obligations.TwoStageLookup : Prop :=
  ∀ (s : State) (p : Nat) (pe : Pe) (ia : Nat) (access : Access) (second : StageChoice) (rest : List Event) (e : TlbEntry),
    s.agenda = .lookup p ia access { first := .hit, second := second } :: rest → s.pe? p = some pe →
    stage2Applies s.impl pe pe.ctx.regime = true →
    let req := requestOf p pe ia access
    let oa := outputFor e ia
    (stageEnabled s.impl pe pe.ctx.regime .s1 = false → oaMembers s pe req (Config.disabledStage1Oa req) = [e] →
      step s = .next { s with agenda := rest
                              answer := some (.translated req { payload := e.payload, ctl := e.ctl, via := .hit e }) })
    ∧ (stageEnabled s.impl pe pe.ctx.regime .s1 = true → vaMembers s pe req = [e] → e.contents = .s1Only →
      (∀ e2, second = .hit → oaMembers s pe req oa = [e2] →
        step s = .next { s with
          agenda := rest
          answer := some (.translated req
            { payload := Config.combinedPayload e.payload e2.payload, ctl := e.ctl ++ e2.ctl, via := .pair e e2 }) })
      ∧ (∀ pick, second = .multi pick → 2 ≤ (oaMembers s pe req oa).length →
        ∃ a, step s = .next { s with agenda := rest, answer := some a }
          ∧ (pick = .abort → a = .faulted (.tlbConflictAbort req))
          ∧ (pick ≠ .abort → ∃ payload ctl, drawnFrom (oaMembers s pe req oa) payload ctl
              ∧ a = .translated req
                  { payload := Config.combinedPayload e.payload payload, ctl := e.ctl ++ ctl, via := .conflictAfter e }))
      ∧ (∀ plan, second = .miss plan →
        let w := walkFor s pe req plan.entries (.stage2Of oa)
        step s = .next { s with
          agenda := rest
          tlbs := s.tlbs ++ plan.fills.filterMap (fillEntry s.impl pe req w)
          answer := some (match w.finish with
            | .ok result => .translated req
                { payload := Config.combinedPayload e.payload result, ctl := e.ctl ++ ctlSnapshot s.impl pe pe.ctx.regime .s2Only
                  via := .walkAfter e }
            | .fault kind stage level _ => .faulted (walkFault req stage level kind)
            | .externalAbort stage level _ _ _ => .faulted (.externalAbortOnWalk req stage level)) }))

/-- With stage 1 disabled and stage 2 not applying, a lookup is `Untranslated` and nothing else changes (R120, R122). -/
def Obligations.DisabledStagesUntranslated : Prop :=
  ∀ (s : State) (p : Nat) (pe : Pe) (ia : Nat) (access : Access) (ch : LookupChoice) (rest : List Event),
    s.agenda = .lookup p ia access ch :: rest → s.pe? p = some pe →
    stageEnabled s.impl pe pe.ctx.regime .s1 = false → stage2Applies s.impl pe pe.ctx.regime = false →
    step s = .next { s with agenda := rest, answer := some (.untranslated (requestOf p pe ia access)) }

/-- When a stage is enabled and when stage 2 applies (R30, R122; that no other regime has a stage 2 is Log 39), and what a disabled stage
does: while `SCTLR_ELx.M = 0` no entry holding stage 1 information of the regime it controls matches (R122, D4); while stage 2 is disabled
no entry holding stage 2 information does. -/
def Obligations.DisabledStageMatchesNothing : Prop :=
  ∀ (impl : Impl) (pe : Pe) (req : Request) (ia : Nat) (e : TlbEntry),
    (stageEnabled impl pe .el10 .s1 = true ↔ pe.regs.get (.sctlrM .el1) = 1)
    ∧ (stageEnabled impl pe .el20 .s1 = true ↔ pe.regs.get (.sctlrM .el2) = 1)
    ∧ (stageEnabled impl pe .el2 .s1 = true ↔ pe.regs.get (.sctlrM .el2) = 1)
    ∧ (stageEnabled impl pe .el3 .s1 = true ↔ pe.regs.get (.sctlrM .el3) = 1)
    ∧ (∀ regime, stageEnabled impl pe regime .s2 = true ↔ regime = .el10 ∧ pe.ctx.stage2Enabled = true)
    ∧ (∀ regime, stage2Applies impl pe regime = true ↔
        regime = .el10 ∧ pe.ctx.el2Enabled = true ∧ pe.ctx.stage2Enabled = true)
    ∧ (pe.regs.get (.sctlrM (sctlrOf req.regime)) = 0 → e.contents.holdsS1 = true → entryMatches impl pe req ia e = false)
    ∧ (pe.ctx.stage2Enabled = false → e.contents.holdsS2 = true → entryMatches impl pe req ia e = false)

/-- Several matching entries (R123, R264): the choice of the abort raises the TLB conflict abort; any other answers a payload each part
of which is a member's; no entry goes either way, and where all members agree the answer is what they agree on. The parts of a draw are
Log 15, that an `S1Only` entry and the `S2Only` entry for its output are two members is Log 13, that two equal entries are is Log 42, and
the abort as a recorded answer of a step that goes on is Log 9. -/
def Obligations.ConflictOutcomes : Prop :=
  ∀ (s : State) (p : Nat) (pe : Pe) (ia : Nat) (access : Access) (pick : ConflictPick) (second : StageChoice) (rest : List Event),
    s.agenda = .lookup p ia access { first := .multi pick, second := second } :: rest → s.pe? p = some pe →
    let req := requestOf p pe ia access
    (stageEnabled s.impl pe pe.ctx.regime .s1 = true ∨ stage2Applies s.impl pe pe.ctx.regime = true) →
    2 ≤ (members s pe req).length →
    ∃ a, step s = .next { s with agenda := rest, answer := some a }
      ∧ (pick = .abort → a = .faulted (.tlbConflictAbort req))
      ∧ (pick ≠ .abort → ∃ tr, a = .translated req tr ∧ tr.via = .conflict
          ∧ (∃ e ∈ members s pe req, tr.payload.oa = e.payload.oa)
          ∧ (∃ e ∈ members s pe req, tr.payload.attrs = e.payload.attrs)
          ∧ (∃ e ∈ members s pe req, tr.payload.perms = e.payload.perms)
          ∧ (∀ fv ∈ tr.ctl, ∃ e ∈ members s pe req, fv ∈ e.ctl)
          ∧ ∀ payload, (∀ e ∈ members s pe req, e.payload = payload) → tr.payload = payload)

/-- Where no two final entries match a request, its lookup raises no TLB conflict abort, whatever is chosen (R123, R264). That entries that
are not final raise none either is the model's choice (R267; Log 48). -/
def Obligations.ConflictNeedsTwoMatches : Prop :=
  ∀ (s t : State) (p : Nat) (pe : Pe) (ia : Nat) (access : Access) (ch : LookupChoice) (rest : List Event),
    s.agenda = .lookup p ia access ch :: rest → s.pe? p = some pe → conflictFree s pe (requestOf p pe ia access) →
    step s = .next t → ∀ req, t.answer ≠ some (.faulted (.tlbConflictAbort req))

/-! ### Context, memory, eviction -/

/-- `T_CTX` (R31): a write of a field, or a change of a predicate, changes nothing in `TLBS` and nothing in `PENDING`. A written field
stores the value cut to its width (how a stored field reads is `AbsentFeaturesReadZero`) and no other field and no predicate changes; a
change of a predicate changes that predicate alone, and no field. No other PE changes, and the machine goes on. That the change holds at
once is the model's choice (D16, Log 29). That a change to an Exception level or Security state that is not implemented is refused, and
that no other change is, are the model's choice (Log 44, 45). -/
def Obligations.RegisterWriteKeepsTheTlb : Prop :=
  ∀ (s : State) (p : Nat) (pe : Pe) (c : CtxChange) (rest : List Event),
    s.agenda = .ctx p c :: rest → s.pe? p = some pe →
    (∀ e, c = .el e → elImplemented s.impl e = false → step s = .refused .notImplemented)
    ∧ (∀ k, c = .sec k → secImplemented s.impl k = false → step s = .refused .notImplemented)
    ∧ ((∀ e, c = .el e → elImplemented s.impl e = true) → (∀ k, c = .sec k → secImplemented s.impl k = true) →
      ∃ t pe', step s = .next t ∧ t.tlbs = s.tlbs ∧ t.pending = s.pending ∧ t.mem = s.mem ∧ t.impl = s.impl
        ∧ t.pe? p = some pe' ∧ (∀ q, q ≠ p → t.pe? q = s.pe? q)
        ∧ pe'.x = pe.x ∧ pe'.inner = pe.inner ∧ pe'.outer = pe.outer
        ∧ (∀ f v, c = .field f v →
            pe'.regs.get f = fieldTrunc f v ∧ (∀ g, g ≠ f → pe'.regs.get g = pe.regs.get g) ∧ pe'.ctx = pe.ctx)
        ∧ ((∀ f v, c ≠ .field f v) → pe'.regs = pe.regs)
        ∧ (∀ e, c = .el e → pe'.ctx = { pe.ctx with el := e })
        ∧ (∀ k, c = .sec k → pe'.ctx = { pe.ctx with sec := k })
        ∧ (∀ b, c = .el2Enabled b → pe'.ctx = { pe.ctx with el2Enabled := b })
        ∧ (∀ r, c = .regime r → pe'.ctx = { pe.ctx with regime := r })
        ∧ (∀ b, c = .stage2Enabled b → pe'.ctx = { pe.ctx with stage2Enabled := b })
        ∧ (∀ b, c = .el2Aarch64 b → pe'.ctx = { pe.ctx with el2Aarch64 := b })
        ∧ (∀ rs, c = .v8_32 rs → pe'.ctx = { pe.ctx with v8_32 := rs })
        ∧ (∀ b, c = .tlbiAllowed b → pe'.ctx = { pe.ctx with tlbiAllowed := b })
        ∧ (∀ m, c = .eff m → pe'.ctx = { pe.ctx with eff := m }))

/-- A write to memory by any agent reaches no entry (R63): the bytes written read back, cut to their number and in the byte order of the
parameter (the model's use of them, Log 10), every other byte of that Security state's space and every other space (R32) is as before,
and `TLBS`, `PENDING` and the PEs do not change. In the space of a Security state that is not implemented it is refused. -/
def Obligations.MemoryWriteKeepsTheTlb : Prop :=
  ∀ (s : State) (c : Sec) (a n v : Nat) (rest : List Event),
    s.agenda = .memWrite c a n v :: rest →
    (secImplemented s.impl c = false → step s = .refused .notImplemented)
    ∧ (secImplemented s.impl c = true → Spaces.wf s.mem = true →
      ∃ t, step s = .next t ∧ t.tlbs = s.tlbs ∧ t.pending = s.pending ∧ t.pes = s.pes ∧ t.impl = s.impl ∧ t.answer = s.answer
        ∧ memRead s.impl.byteOrder (t.mem.of c) a n = some (v % 256 ^ n)
        ∧ (∀ b, (b < a ∨ a + n ≤ b) → memByte (t.mem.of c) b = memByte (s.mem.of c) b)
        ∧ ∀ d, d ≠ c → t.mem.of d = s.mem.of d)

/-- `T_EVICT` (R118): an unlocked entry leaves, alone, so that an equal one stays (Log 42); a locked one stays; nothing else
changes. -/
def Obligations.EvictionTakesOneUnlockedEntry : Prop :=
  ∀ (s : State) (k : Nat) (e : TlbEntry) (rest : List Event),
    s.agenda = .evict k :: rest → s.tlbs[k]? = some e →
    (e.locked = false → step s = .next { s with agenda := rest, tlbs := s.tlbs.take k ++ s.tlbs.drop (k + 1) })
    ∧ (e.locked = true → step s = .next { s with agenda := rest })

/-! ### Completing invalidations -/

/-- `T_INVAL_COMPLETE` (R246, R308): it is always enabled; afterwards no unlocked entry is left that is in scope and that a target owns
or can use; every entry out of scope is still there; every entry there was there or is the update of a locked one; the record alone
leaves `PENDING`. -/
def Obligations.CompletionRemovesTheScope : Prop :=
  ∀ (s : State) (k : Nat) (fates : List LockedFate) (r : Pending) (rest : List Event),
    s.agenda = .complete k fates :: rest → s.pending[k]? = some r →
    ∃ t, step s = .next t ∧ t.pending = s.pending.eraseIdx k ∧ t.pes = s.pes ∧ t.mem = s.mem ∧ t.impl = s.impl
      ∧ (∀ e ∈ t.tlbs, e.locked = false → r.scope.covers e = true → e.owner ∉ r.targets ∧ ∀ q ∈ r.targets, usable t q e = false)
      ∧ (∀ e ∈ s.tlbs, r.scope.covers e = false → e ∈ t.tlbs)
      ∧ (∀ e ∈ t.tlbs, e ∈ s.tlbs ∨ ∃ e' ∈ s.tlbs, e'.locked = true ∧ r.scope.covers e' = true ∧ e.owner = e'.owner ∧ e.locked = true)

/-- `SYNC(p)` (R247; Log 25): when it has happened no record of `PENDING` has the issuer `p`, and each of them has gone through
`T_INVAL_COMPLETE` (R246): no unlocked entry in its scope is left that a target owns or can use. Every other record is still there in
order, entries outside the scopes stay, and, where the issuer had no record, nothing else changes. -/
def Obligations.SyncWaitsForItsRecords : Prop :=
  ∀ (s : State) (p : Nat) (pe : Pe) (fates : List (List LockedFate)) (rest : List Event),
    s.agenda = .sync p fates :: rest → s.pe? p = some pe →
    ∃ t, step s = .next t ∧ t.pending = s.pending.filter (fun r => r.issuer != p)
      ∧ t.pes = s.pes ∧ t.mem = s.mem ∧ t.impl = s.impl
      ∧ (∀ r ∈ s.pending, r.issuer = p → ∀ e ∈ t.tlbs, e.locked = false → r.scope.covers e = true →
          e.owner ∉ r.targets ∧ ∀ q ∈ r.targets, usable t q e = false)
      ∧ (∀ e ∈ s.tlbs, (∀ r ∈ s.pending, r.issuer = p → r.scope.covers e = false) → e ∈ t.tlbs)
      ∧ ((∀ r ∈ s.pending, r.issuer ≠ p) → t = { s with agenda := rest })

/-- What the family promises (R240, R246, R247; E1 of 95_test_vectors.md): PE `p` executes a `TLBI ASIDE1*` word, whose features are
implemented where it needs any (Log 23), and then `SYNC`, which completes it in its own step (Log 25); both steps answer next states, and
in the second no unlocked entry tagged with the operand ASID, of the EL1&0 regime, of the PE's Security state and of its current VMID or
none (Log 22), is usable by any target of the form (Log 23), whichever half of the VA range the entry translates. Of a locked entry
nothing is promised (R142). -/
def Obligations.AsidIsGoneAfterTlbiAndSync : Prop :=
  ∀ (s : State) (p : Nat) (pe : Pe) (w : Word) (i : Instr) (fates : List (List LockedFate)) (rest : List Event),
    s.agenda = .instr p w :: .sync p fates :: rest → s.pe? p = some pe → decode w = .ok i →
    pe.ctx.tlbiAllowed = true →
    (match i with
      | .tlbiAside1 _ => True
      | .tlbiAside1is _ => True
      | .tlbiAside1os _ => s.impl.hasTlbiOs = true
      | .tlbiAside1nxs _ => s.impl.hasXs = true
      | .tlbiAside1isnxs _ => s.impl.hasXs = true
      | .tlbiAside1osnxs _ => s.impl.hasTlbiOs = true ∧ s.impl.hasXs = true) →
    ∃ t u, step s = .next t ∧ t.tlbs = s.tlbs ∧ step t = .next u ∧ u.pes = s.pes
      ∧ (∀ r ∈ u.pending, r.issuer ≠ p)
      ∧ ∀ q, (q ∈ match i with
            | .tlbiAside1 _ => targetsLocal s p
            | .tlbiAside1is _ => targetsInner s p
            | .tlbiAside1os _ => targetsOuter s p
            | .tlbiAside1nxs _ => targetsLocal s p
            | .tlbiAside1isnxs _ => targetsInner s p
            | .tlbiAside1osnxs _ => targetsOuter s p) →
          ∀ e ∈ u.tlbs, e.locked = false → e.asid = some (asidOperand (xRead pe i.rt)) → e.regime = .el10 → e.sec = pe.ctx.sec →
            (e.vmid = none ∨ e.vmid = some (currentVmid s.impl pe)) → usable u q e = false

/-- What a completed invalidation may make of a locked entry in its scope (R142, R145, R246; Log 28, 41), where no other entry is in
scope: it is removed, kept, or updated. An update sets payload, range, tags and control values as a fill by a walk for an address it
covers, with the registers of its owner, would set them, and the entry stays locked; where the walk does not end well or the level is not
permitted or not of the entry's kind, the entry is kept or removed. -/
def Obligations.LockedEntryFates : Prop :=
  ∀ (s : State) (k : Nat) (r : Pending) (rest : List Event) (pre post : List TlbEntry) (e : TlbEntry) (pe : Pe) (f : LockedFate),
    s.agenda = .complete k [f] :: rest → s.pending[k]? = some r → s.tlbs = pre ++ e :: post → s.pe? e.owner = some pe →
    e.locked = true → s.impl.lockdownSupported = true → inScope s r e = true → (∀ x ∈ pre ++ post, inScope s r x = false) →
    let left := fun (es : List TlbEntry) =>
      step s = .next { s with agenda := rest, pending := s.pending.eraseIdx k, tlbs := pre ++ es ++ post }
    (f = .remove → left [])
    ∧ (f = .keep → left [e])
    ∧ (∀ u, f = .update u →
      let req : Request := { pe := e.owner, regime := e.regime, sec := e.sec, ia := u.ia, access := u.access }
      let w := walkFor s pe req u.entries (if e.contents = .s2Only then .stage2Of u.ia else .root)
      let otherwise := if u.removeOtherwise then [] else [e]
      left (match w.finish, fillEntry s.impl pe req w u.pick with
        | .ok _, some n =>
          if e.iaBase ≤ u.ia ∧ u.ia < e.iaBase + e.iaSize ∧ n.contents = e.contents ∧ n.final = e.final then
            [{ e with payload := n.payload, iaBase := n.iaBase, iaSize := n.iaSize, asid := n.asid, vmid := n.vmid, ctl := n.ctl
                      source := n.source }]
          else otherwise
        | _, _ => otherwise))

/-! ### Common not private -/

/-- A PE may use its own entries, and an entry of another PE exactly under Common not private (R121, R220, R223, R225, R227): it was made
with its owner's CnP 1, the two PEs are in one Inner Shareable domain, and the PE's own CnP is 1 for every stage the sharing needs: the
stage 2 one for stage 2 information (where EL2 is not enabled too: Log 47), and, in EL1&0 with EL2 enabled, both for stage 1 information.
Without FEAT_TTCNP none is usable. -/
def Obligations.SharingNeedsCnpOfBothStages : Prop :=
  ∀ (s : State) (q : Nat) (pe : Pe) (e : TlbEntry), s.pe? q = some pe →
    (e.owner = q → usable s q e = true)
    ∧ (e.owner ≠ q → (usable s q e = true ↔
        s.impl.hasTtcnp = true ∧ e.cnp = true
        ∧ (∃ o, s.pe? e.owner = some o ∧ o.inner = pe.inner)
        ∧ (e.contents = .s2Only → effBit s.impl pe .vttbrCnp = true)
        ∧ (e.contents ≠ .s2Only → effBit s.impl pe (stage1CnpField e.regime e.half) = true)
        ∧ (e.contents ≠ .s2Only → e.regime = .el10 → pe.ctx.el2Enabled = true → effBit s.impl pe .vttbrCnp = true)))

/-- `CnPForEntry` at a fill (R224): the entry is common not private exactly when the owner's CnP bits say so then: FEAT_TTCNP is
implemented, and the Effective CnP is 1 for every stage that the sharing needs, which in EL1&0 with EL2 enabled is both for stage 1
information (R223). The stage 2 one is read for stage 2 information where EL2 is not enabled too: Log 47. -/
def Obligations.FilledCnpNeedsBothStages : Prop :=
  ∀ (impl : Impl) (pe : Pe) (req : Request) (w : Walk) (pick : FillPick) (e : TlbEntry),
    fillEntry impl pe req w pick = some e →
    (e.cnp = true ↔
      impl.hasTtcnp = true
      ∧ (e.contents = .s2Only → effBit impl pe .vttbrCnp = true)
      ∧ (e.contents ≠ .s2Only → effBit impl pe (stage1CnpField req.regime (halfOf req.regime req.ia)) = true)
      ∧ (e.contents ≠ .s2Only → req.regime = .el10 → pe.ctx.el2Enabled = true → effBit impl pe .vttbrCnp = true))

/-- What software that keeps R304 gets (R222): where two PEs agree on the current ASID, VMID and every cacheable field, an entry either
of them fills carries the control values the other has, and its tags, where it has them, are the other's current identifiers. -/
def Obligations.AgreeingPesFillAlike : Prop :=
  ∀ (impl : Impl) (a b : Pe) (req : Request) (w : Walk) (pick : FillPick) (e : TlbEntry),
    sharingAgrees impl a b req.regime → fillEntry impl a req w pick = some e →
    e.ctl = ctlSnapshot impl b req.regime e.contents
      ∧ (e.asid ≠ none → e.asid = currentAsid impl b req.regime (Config.halfOf req.regime req.ia))
      ∧ (e.vmid ≠ none → e.vmid = some (currentVmid impl b))

/-! ### Lockdown -/

/-- A locked entry stays (R142): no step but the completion of maintenance, the boot routine, a reset, a lockdown function or a word in
the reserved encodings can take it from `TLBS`. -/
def Obligations.LockedEntryRemains : Prop :=
  ∀ (s t : State) (e : TlbEntry), step s = .next t → e ∈ s.tlbs → e.locked = true →
    e ∈ t.tlbs
    ∨ (∃ k fates, (nextEvent s).1 = .complete k fates)
    ∨ (∃ p fates, (nextEvent s).1 = .sync p fates)
    ∨ (∃ p fates, (nextEvent s).1 = .invalidationRoutine p fates)
    ∨ (∃ p el draw, (nextEvent s).1 = .reset p el draw)
    ∨ (∃ op, (nextEvent s).1 = .lockdown op)
    ∨ (∃ p w, (nextEvent s).1 = .instr p w ∧ decode w = .error .implementationDefined)

/-- The operations of the lockdown mechanism (R141, R146), where lockdown is supported: unlock all clears the lock of every entry of the
PE and changes nothing else; lock and unlock set one entry's lock; a prefetch performs the fill that R113 permits of the walk of this
moment, as one more member (Log 42), and no other; a removal takes one entry. Where lockdown is not supported each is refused (R141,
R148). That these are the mechanism's operations is the model's choice (Log 28). -/
def Obligations.LockdownFunctions : Prop :=
  ∀ (s : State) (op : LockdownOp) (rest : List Event), s.agenda = .lockdown op :: rest →
    let left := fun (es : List TlbEntry) => step s = .next { s with agenda := rest, tlbs := es }
    (s.impl.lockdownSupported = false → step s = .refused .lockdownNotSupported)
    ∧ (s.impl.lockdownSupported = true →
      (∀ p, op = .unlockAll p → left (s.tlbs.map fun e => if e.owner = p then { e with locked := false } else e))
      ∧ (∀ (k : Nat) (b : Bool) (e : TlbEntry), op = (if b then .lock k else .unlock k) → s.tlbs[k]? = some e →
          left (s.tlbs.take k ++ { e with locked := b } :: s.tlbs.drop (k + 1)))
      ∧ (∀ k, op = .remove k → left (s.tlbs.take k ++ s.tlbs.drop (k + 1)))
      ∧ (∀ p pe regime sec ia access ks pick, op = .prefetch p regime sec ia access ks pick → s.pe? p = some pe →
          let req : Request := { pe := p, regime := regime, sec := sec, ia := ia, access := access }
          left (s.tlbs ++ (fillEntry s.impl pe req (walkFor s pe req ks .root) pick).toList)))

/-- A word in the reserved encodings, where lockdown is supported (R94, R141): it does, in order, the operations that the mechanism makes
of the executing PE, the registers as they read, `TLBS`, the word and its operand, each with the effect it has as an act of its own, up to
the first that is refused, which refuses the word; or it is refused where the mechanism gives it no meaning. Which encodings are reserved
is general knowledge (Log 28); that the word ends in no exception due to lockdown is Log 43. -/
def Obligations.ReservedWordsRunTheMechanism : Prop :=
  (∀ (s : State) (p : Nat) (pe : Pe) (w : Word) (rest : List Event),
    s.agenda = .instr p w :: rest → s.pe? p = some pe → s.impl.lockdownSupported = true →
    w.extractLsb' 22 10 = 0b1101010100#10 → (w.extractLsb' 19 2 = 0b01#2 ∨ w.extractLsb' 19 2 = 0b11#2) →
    (w.extractLsb' 12 4 = 0b1011#4 ∨ w.extractLsb' 12 4 = 0b1111#4) →
    step s = match Config.lockdownWord p (s.pes.map fun q => q.asRead s.impl) s.tlbs w (xRead pe (rtField w)) with
      | some ops => lockdownActs { s with agenda := rest, cur := p } ops
      | none => .refused (.implementationDefinedEncoding w))
  ∧ ∀ s : State, lockdownActs s [] = .next s
    ∧ ∀ (op : LockdownOp) (ops : List LockdownOp), lockdownActs s (op :: ops) =
        match step { s with agenda := .lockdown op :: s.agenda } with
        | .next t => lockdownActs t ops
        | .fault f => .fault f
        | .refused r => .refused r

/-- An exception due to TLB lockdown (R265): only where lockdown is supported, EL2 is enabled and the PE executes at EL0 or EL1, and then
by the one route of `LOCKDOWN_EXC_ROUTE`; nothing else changes. For every other combination the model refuses. That the exception is a
recorded answer of a step that goes on is Log 9, that it is an act of its own is Log 43. -/
def Obligations.LockdownExceptionRoute : Prop :=
  ∀ (s : State) (p : Nat) (pe : Pe) (rest : List Event), s.agenda = .lockdownException p :: rest → s.pe? p = some pe →
    let condition := s.impl.lockdownSupported = true ∧ pe.ctx.el2Enabled = true ∧ (pe.ctx.el = .el0 ∨ pe.ctx.el = .el1)
    (condition → s.impl.lockdownRoute = .el1DataAbort →
      step s = .next { s with agenda := rest, answer := some (.faulted (.lockdownDataAbortEl1 p)) })
    ∧ (condition → s.impl.lockdownRoute = .el2HypTrap →
      step s = .next { s with agenda := rest, answer := some (.faulted (.lockdownHypTrapEl2 p)) })
    ∧ (¬ condition → ∃ r, step s = .refused r)

/-! ### Reset and boot -/

/-- `T_RESET(p, el)` (R290, R35): `SCTLR_<el>.M` is 0 and `CurrentEL` is `el`, every other field and predicate as drawn; the PE's records
are dropped and the others stay; the entries of other PEs stay as they are. The PE's own are none (`empty`), the entries drawn, made
unshareable (D17) and otherwise arbitrary (`unknown`; Log 27), or what they were (`preserved`), but for their locks, which are drawn where
lockdown is supported (Log 27). That the general registers stay is the model's choice (Log 5). -/
def Obligations.ResetEffect : Prop :=
  ∀ (s : State) (p : Nat) (pe : Pe) (el : RegEl) (draw : ResetDraw) (rest : List Event),
    s.agenda = .reset p el draw :: rest → s.pe? p = some pe → resetPossible s.impl el draw = true →
    ∃ t pe', step s = .next t ∧ t.pe? p = some pe' ∧ (∀ q, q ≠ p → t.pe? q = s.pe? q)
      ∧ pe'.regs.get (.sctlrM el) = 0 ∧ (∀ f, f ≠ .sctlrM el → pe'.regs.get f = draw.regs.get f)
      ∧ pe'.ctx = { draw.ctx with el := el.toEl } ∧ pe'.x = pe.x ∧ pe'.inner = pe.inner ∧ pe'.outer = pe.outer
      ∧ t.pending = s.pending.filter (fun r => r.issuer != p) ∧ t.mem = s.mem ∧ t.impl = s.impl
      ∧ (∀ e ∈ s.tlbs, e.owner ≠ p → e ∈ t.tlbs)
      ∧ (∀ e ∈ t.tlbs, e.owner ≠ p → e ∈ s.tlbs)
      ∧ (s.impl.resetTlbState = .empty → t.tlbs = s.tlbs.filter fun e => e.owner != p)
      ∧ (s.impl.resetTlbState = .unknown → t.tlbs = (s.tlbs.filter fun e => e.owner != p) ++ draw.entries.map fun (e : TlbEntry) =>
          { e with owner := p, cnp := false, iaSize := max 1 e.iaSize, locked := e.locked && s.impl.lockdownSupported
                   source := .unknownReset })
      ∧ (s.impl.resetTlbState = .preserved → t.tlbs.length = s.tlbs.length
          ∧ ∀ (k : Nat) (e : TlbEntry), s.tlbs[k]? = some e → ∃ b : Bool, t.tlbs[k]? = some { e with locked := b }
              ∧ (e.owner ≠ p ∨ s.impl.lockdownSupported = false → b = e.locked))

/-- Why an UNKNOWN TLB is harmless straight after reset (R291): a lookup by the reset PE in the regime that `SCTLR_<el>.M` controls, where
stage 2 does not apply, is `Untranslated`, whatever entries the reset left. -/
def Obligations.UntranslatedAfterReset : Prop :=
  ∀ (s : State) (p : Nat) (pe : Pe) (el : RegEl) (draw : ResetDraw) (ia : Nat) (access : Access) (ch : LookupChoice) (rest : List Event),
    s.agenda = .reset p el draw :: .lookup p ia access ch :: rest → s.pe? p = some pe → resetPossible s.impl el draw = true →
    sctlrOf draw.ctx.regime = el → (draw.ctx.regime = .el10 → draw.ctx.el2Enabled = false ∨ draw.ctx.stage2Enabled = false) →
    ∃ t u req, step s = .next t ∧ step t = .next u ∧ u.answer = some (.untranslated req) ∧ u.tlbs = t.tlbs

/-- `INVALIDATION_ROUTINE(p)` (R293): afterwards the PE owns no entry, locked or not, and it has no record in `PENDING`: by the `SYNC` it
ends with each has gone through `T_INVAL_COMPLETE` (R246, R247; Log 25), so no unlocked entry in its scope is left that a target owns or
can use. An entry of another PE, locked or not, that is in the scope of none of the PE's records is still there. -/
def Obligations.RoutineEmptiesTheTlb : Prop :=
  ∀ (s : State) (p : Nat) (pe : Pe) (fates : List (List LockedFate)) (rest : List Event),
    s.agenda = .invalidationRoutine p fates :: rest → s.pe? p = some pe →
    ∃ t, step s = .next t ∧ (∀ e ∈ t.tlbs, e.owner ≠ p) ∧ t.pending = s.pending.filter (fun r => r.issuer != p)
      ∧ (∀ r ∈ s.pending, r.issuer = p → ∀ e ∈ t.tlbs, e.locked = false → r.scope.covers e = true →
          e.owner ∉ r.targets ∧ ∀ q ∈ r.targets, usable t q e = false)
      ∧ (∀ e ∈ s.tlbs, e.owner ≠ p → (∀ r ∈ s.pending, r.issuer = p → r.scope.covers e = false) → e ∈ t.tlbs)
      ∧ t.pes = s.pes ∧ t.mem = s.mem ∧ t.impl = s.impl

/-- What `State.reset` leaves that the spec gives (R35): every PE at EL3 with `SCTLR_EL3.M = 0`. That it is EL3, that nothing is pending
and that memory lists nothing are the model's (Log 4, 10). -/
def Obligations.ResetState : Prop :=
  (∀ pe ∈ State.reset.pes, pe.ctx.el = .el3 ∧ pe.regs.get (.sctlrM .el3) = 0)
    ∧ State.reset.pending = [] ∧ State.reset.mem = {} ∧ State.reset.answer = none

/-! ### Invariants of every step -/

/-- The invariant holds at reset, whatever the UNKNOWN entries are. -/
def Obligations.ResetMeetsInvariant : Prop := MachineInv State.reset

/-- Every step keeps the invariant: entries have owners, cover something, carry no fault that is never cached (R23), are tagged as R163,
R168 and R173 say, are locked only where lockdown exists (R25) and shareable only with FEAT_TTCNP (R220); records of `PENDING` name PEs
that exist and target their issuer; every PE is at an implemented level; memory keeps its canonical form. -/
def Obligations.StepKeepsInvariant : Prop :=
  ∀ s t : State, MachineInv s → step s = .next t → MachineInv t

/-- No step changes a parameter, the number of PEs, or a PE's Shareable domains (00_scope.md R6). -/
def Obligations.ParametersAreConstant : Prop :=
  ∀ s t : State, step s = .next t →
    t.impl = s.impl ∧ t.pes.length = s.pes.length
      ∧ ∀ p a b, s.pe? p = some a → t.pe? p = some b → b.inner = a.inner ∧ b.outer = a.outer

/-- Which acts write what (R31, R36, R60, R241): only `T_CTX`, a general register change and a reset change a PE, and only the PE they
name; only a write to a Security state's memory changes it; a record comes only from an instruction of its issuer. -/
def Obligations.EachPartHasItsWriters : Prop :=
  ∀ s t : State, step s = .next t →
    (∀ p, t.pe? p ≠ s.pe? p →
      (∃ c, (nextEvent s).1 = .ctx p c) ∨ (∃ k v, (nextEvent s).1 = .xreg p k v) ∨ ∃ el draw, (nextEvent s).1 = .reset p el draw)
    ∧ (∀ c, t.mem.of c ≠ s.mem.of c → ∃ a n v, (nextEvent s).1 = .memWrite c a n v)
    ∧ (∀ r ∈ t.pending, r ∉ s.pending → ∃ w i, (nextEvent s).1 = .instr r.issuer w ∧ decode w = .ok i ∧ t.tlbs = s.tlbs)

/-- Which acts add an entry (R36, D2): an entry comes into `TLBS` only by a fill of its owner, as `T_FILL` makes it of the walk for the
request of the event, by a lookup of its owner, as `T_FILL` makes it of a walk for the request of the lookup, by a reset of its owner,
or, where lockdown is supported, by an operation of the mechanism, by a word in the reserved encodings, or by the update of a locked
entry when an invalidation completes. Every other act leaves no entry that was not there. -/
def Obligations.EntriesComeOnlyByFillResetOrLockdown : Prop :=
  ∀ (s t : State) (e : TlbEntry), step s = .next t → e ∈ t.tlbs → e ∉ s.tlbs →
    (∃ pe regime sec ia access plan, s.pe? e.owner = some pe ∧ (nextEvent s).1 = .fill e.owner regime sec ia access plan
      ∧ let req : Request := { pe := e.owner, regime := regime, sec := sec, ia := ia, access := access }
        ∃ pick ∈ plan.fills, fillEntry s.impl pe req (walkFor s pe req plan.entries .root) pick = some e)
    ∨ (∃ pe ia access ch, s.pe? e.owner = some pe ∧ (nextEvent s).1 = .lookup e.owner ia access ch
      ∧ let req := requestOf e.owner pe ia access
        ∃ start ks pick, fillEntry s.impl pe req (walkFor s pe req ks start) pick = some e)
    ∨ (∃ el draw, (nextEvent s).1 = .reset e.owner el draw)
    ∨ (s.impl.lockdownSupported = true
      ∧ ((∃ op, (nextEvent s).1 = .lockdown op)
        ∨ (∃ p w, (nextEvent s).1 = .instr p w ∧ decode w = .error .implementationDefined)
        ∨ (e.locked = true
          ∧ ((∃ k fates, (nextEvent s).1 = .complete k fates) ∨ (∃ p fates, (nextEvent s).1 = .sync p fates)
            ∨ ∃ p fates, (nextEvent s).1 = .invalidationRoutine p fates))))
end

