-- ==== Sys2Proof/Laws/Decode.lean ====
section
/-! SUPPORT. The opcode map: no two rows can fit one word. -/

namespace Sys2Proof

/-- The rows of the map are told apart by their fixed bits. -/
theorem opcodeRows_disjoint : opcodeRows.Pairwise fun a b => a.pattern ≠ b.pattern := by
  simp [opcodeRows]

/-- Every pattern lies within the mask, so a word fits a row only by its fixed bits. -/
theorem opcodeRows_masked : ∀ r ∈ opcodeRows, r.pattern &&& opcodeMask = r.pattern := by
  simp [opcodeRows, opcodeMask]

/-- What a decoded word fits: a row of the map, with its operand field. -/
theorem findRow_some {w : Word} {i : Instr} : ∀ {rows : List OpcodeRow}, findRow w rows = some i →
    ∃ r ∈ rows, w &&& opcodeMask = r.pattern ∧ i = r.instr (rtField w)
  | [], h => by cases h
  | r :: rs, h => by
    simp only [findRow] at h
    split at h
    · cases h; exact ⟨r, by simp, ‹_›, rfl⟩
    · obtain ⟨r', h1, h2⟩ := findRow_some h; exact ⟨r', by simp [h1], h2⟩

/-- A word decodes exactly when a row is found. -/
theorem decode_ok_iff (w : Word) (i : Instr) : decode w = .ok i ↔ findRow w opcodeRows = some i := by
  unfold decode; split <;> simp_all

end Sys2Proof
end

