-- ==== Sys2Proof/Laws/Fields.lean ====
section
/-! SUPPORT. System register fields: what a write of one field does to the read of another. -/

namespace Sys2Proof.Machine

@[simp] theorem setCtl_ctl (r : Regs) (x z : CtlEl) (e : ElRegs) : (r.setCtl x e).ctl z = if z = x then e else r.ctl z := by
  cases x <;> cases z <;> rfl

@[simp] theorem setHalf_half (r : ElRegs) (y z : Half) (h : HalfRegs) : (r.setHalf y h).half z = if z = y then h else r.half z := by
  cases y <;> cases z <;> rfl

/-- A field written is read back, cut to its width, and no other field changes. -/
theorem get_set (r : Regs) (f g : Field) (v : FieldValue) : (r.set f v).get g = if g = f then fieldTrunc f v else r.get g := by
  cases f with
  | sctlrM x => cases x <;> (cases g with
    | sctlrM z => cases z <;> rfl
    | asid y z => cases y <;> cases z <;> rfl
    | cnp y z => cases y <;> cases z <;> rfl
    | a1 z => cases z <;> rfl
    | asSize z => cases z <;> rfl
    | a2 z => cases z <;> rfl
    | fng y z => cases y <;> cases z <;> rfl
    | _ => rfl)
  | asid y x => cases y <;> cases x <;> (cases g with
    | sctlrM z => cases z <;> rfl
    | asid y z => cases y <;> cases z <;> simp [Regs.get, Regs.set, Regs.ctl, Regs.setCtl, ElRegs.half, ElRegs.setHalf, fieldTrunc, fieldWidth]
    | cnp y z => cases y <;> cases z <;> rfl
    | a1 z => cases z <;> rfl
    | asSize z => cases z <;> rfl
    | a2 z => cases z <;> rfl
    | fng y z => cases y <;> cases z <;> rfl
    | _ => rfl)
  | cnp y x => cases y <;> cases x <;> (cases g with
    | sctlrM z => cases z <;> rfl
    | asid y z => cases y <;> cases z <;> rfl
    | cnp y z => cases y <;> cases z <;> rfl
    | a1 z => cases z <;> rfl
    | asSize z => cases z <;> rfl
    | a2 z => cases z <;> rfl
    | fng y z => cases y <;> cases z <;> rfl
    | _ => rfl)
  | fng y x => cases y <;> cases x <;> (cases g with
    | sctlrM z => cases z <;> rfl
    | asid y z => cases y <;> cases z <;> rfl
    | cnp y z => cases y <;> cases z <;> rfl
    | a1 z => cases z <;> rfl
    | asSize z => cases z <;> rfl
    | a2 z => cases z <;> rfl
    | fng y z => cases y <;> cases z <;> rfl
    | _ => rfl)
  | a1 x => cases x <;> (cases g with
    | sctlrM z => cases z <;> rfl
    | asid y z => cases y <;> cases z <;> rfl
    | cnp y z => cases y <;> cases z <;> rfl
    | a1 z => cases z <;> rfl
    | asSize z => cases z <;> rfl
    | a2 z => cases z <;> rfl
    | fng y z => cases y <;> cases z <;> rfl
    | _ => rfl)
  | asSize x => cases x <;> (cases g with
    | sctlrM z => cases z <;> rfl
    | asid y z => cases y <;> cases z <;> rfl
    | cnp y z => cases y <;> cases z <;> rfl
    | a1 z => cases z <;> rfl
    | asSize z => cases z <;> rfl
    | a2 z => cases z <;> rfl
    | fng y z => cases y <;> cases z <;> rfl
    | _ => rfl)
  | a2 x => cases x <;> (cases g with
    | sctlrM z => cases z <;> rfl
    | asid y z => cases y <;> cases z <;> rfl
    | cnp y z => cases y <;> cases z <;> rfl
    | a1 z => cases z <;> rfl
    | asSize z => cases z <;> rfl
    | a2 z => cases z <;> rfl
    | fng y z => cases y <;> cases z <;> rfl
    | _ => rfl)
  | cnpEl3 => cases g with
    | sctlrM z => cases z <;> rfl
    | _ => rfl
  | vttbrCnp => cases g with
    | sctlrM z => cases z <;> rfl
    | _ => rfl
  | vs => cases g with
    | sctlrM z => cases z <;> rfl
    | _ => rfl
  | vmid => cases g with
    | sctlrM z => cases z <;> rfl
    | vmid => simp [Regs.get, Regs.set, fieldTrunc, fieldWidth]
    | _ => rfl

/-- Zeroing fields leaves every other field as it is. -/
theorem get_zeroed (g : Field) (fs : List Field) : ∀ r : Regs,
    (fs.foldl (fun r f => r.set f 0) r).get g = if g ∈ fs then 0 else r.get g := by
  induction fs with
  | nil => intro r; simp
  | cons f fs ih =>
    intro r
    simp only [List.foldl_cons, ih, get_set, List.mem_cons]
    by_cases h1 : g ∈ fs
    · simp [h1]
    · by_cases h2 : g = f
      · simp [h2, fieldTrunc]
      · simp [h1, h2]

/-- The abstract functions are given each field as a direct read returns it (00_scope.md R8, D10). -/
theorem asRead_get (impl : Impl) (r : Regs) (f : Field) : (r.asRead impl).get f = regRead impl r f := by
  have hmem : f ∈ featureFields.filter (fun f => !fieldPresent impl f) ↔ fieldPresent impl f = false := by
    rw [List.mem_filter]
    refine ⟨fun h => by simpa using h.2, fun h => ⟨?_, by simp [h]⟩⟩
    cases f with
    | a2 x => cases x <;> simp [featureFields]
    | fng y x => cases y <;> cases x <;> simp [featureFields]
    | cnp y x => cases y <;> cases x <;> simp [featureFields]
    | cnpEl3 => simp [featureFields]
    | vttbrCnp => simp [featureFields]
    | _ => simp [fieldPresent] at h
  rw [Regs.asRead, get_zeroed]
  simp only [hmem, regRead]
  cases fieldPresent impl f <;> simp

end Sys2Proof.Machine
end

