-- ==== Sys2Proof/Laws/Memory.lean ====
section
/-! SUPPORT. Physical memory: reading after a write, and the canonical form. -/

namespace Sys2Proof.Machine

/-- A byte written is read back, and every other byte is as before. -/
theorem memByte_memSet (m : Memory) (a b : Nat) (v : Byte) (h : Memory.wf m = true) :
    memByte (memSet m a v) b = if b = a then some v else memByte m b := by
  induction m with
  | nil => simp [memSet, memByte]
  | cons c m ih =>
    have hw : Memory.wf m = true := by
      cases m with
      | nil => rfl
      | cons d m => simp only [Memory.wf, memAbove, Bool.and_eq_true] at h ⊢; exact h.2
    simp only [memSet]
    split
    · simp only [memByte]
    · split
      · simp only [memByte]; split <;> simp_all
      · next h1 h2 =>
        simp only [memByte, ih hw]
        by_cases hb : b = c.1
        · subst hb; simp [Ne.symm h2]
        · simp [hb]

/-- A bound below a memory stays below it when a byte above the bound is written. -/
theorem memAbove_memSet (b : Nat) (m : Memory) (a : Nat) (v : Byte) (h : memAbove b m = true) (hb : b < a) :
    memAbove b (memSet m a v) = true := by
  induction m generalizing b with
  | nil => simp [memSet, memAbove, hb]
  | cons c m ih =>
    simp only [memAbove, Bool.and_eq_true, decide_eq_true_eq] at h
    simp only [memSet]
    split
    · simp_all [memAbove]
    · split
      · next h1 => subst h1; simp_all [memAbove]
      · next h1 h2 => simp only [memAbove, Bool.and_eq_true, decide_eq_true_eq]; exact ⟨h.1, ih c.1 h.2 (by omega)⟩

/-- The write of a byte keeps the canonical form. -/
theorem memSet_wf (m : Memory) (a : Nat) (v : Byte) (h : Memory.wf m = true) : Memory.wf (memSet m a v) = true := by
  cases m with
  | nil => rfl
  | cons c m =>
    simp only [Memory.wf] at h
    simp only [memSet]
    split
    · simp_all [Memory.wf, memAbove]
    · split
      · next h1 => subst h1; exact h
      · exact memAbove_memSet c.1 m a v h (by omega)

/-- The writes of consecutive bytes keep the canonical form. -/
theorem memSetBytes_wf (bs : List Byte) : ∀ (m : Memory) (a : Nat), Memory.wf m = true → Memory.wf (memSetBytes m a bs) = true := by
  induction bs with
  | nil => intro m a h; exact h
  | cons b bs ih => intro m a h; exact ih _ _ (memSet_wf m a b h)

/-- `MemWrite` keeps the canonical form. -/
theorem memWrite_wf (o : ByteOrder) (m : Memory) (a : Nat) (n v : Nat) (h : Memory.wf m = true) :
    Memory.wf (memWrite o m a n v) = true := memSetBytes_wf _ m a h

/-- The space written is read back, and the other spaces are as before. -/
theorem put_of (m : Spaces) (c d : Sec) (n : Memory) : (m.put c n).of d = if d = c then n else m.of d := by
  cases c <;> cases d <;> rfl

/-- The spaces are in the canonical form when each of them is. -/
theorem wf_iff (m : Spaces) : Spaces.wf m = true ↔ ∀ c, Memory.wf (m.of c) = true := by
  simp only [Spaces.wf, Bool.and_eq_true]
  constructor
  · rintro ⟨⟨h1, h2⟩, h3⟩ c; cases c <;> assumption
  · intro h; exact ⟨⟨h .nonSecure, h .secure⟩, h .realm⟩

/-- A write in one space keeps the canonical form of all. -/
theorem spaceWrite_wf (o : ByteOrder) (m : Spaces) (c : Sec) (a : Nat) (n v : Nat) (h : Spaces.wf m = true) :
    Spaces.wf (spaceWrite o m c a n v) = true := by
  rw [wf_iff] at h ⊢
  intro d
  rw [spaceWrite, put_of]
  split
  · exact memWrite_wf o _ a n v (h c)
  · exact h d

/-- The bytes of a value are as many as asked for. -/
@[simp] theorem bytesLittle_length (n v : Nat) : (bytesLittle n v).length = n := by
  induction n generalizing v with
  | zero => rfl
  | succ n ih => simp [bytesLittle, ih]

/-- The bytes of a value, in memory order, are as many as asked for. -/
@[simp] theorem bytesOf_length (o : ByteOrder) (n v : Nat) : (bytesOf o n v).length = n := by
  cases o <;> simp [bytesOf]

/-- What a byte reads after the writes of consecutive bytes. -/
theorem memByte_memSetBytes (bs : List Byte) : ∀ (m : Memory) (a b : Nat), Memory.wf m = true →
    memByte (memSetBytes m a bs) b = if a ≤ b ∧ b < a + bs.length then bs[b - a]? else memByte m b := by
  induction bs with
  | nil => intro m a b _; simp only [memSetBytes, List.length_nil]; rw [if_neg (by omega)]
  | cons x bs ih =>
    intro m a b h
    rw [memSetBytes, ih _ _ _ (memSet_wf m a x h), memByte_memSet m a b x h]
    by_cases hb : b = a
    · subst hb; simp
    · by_cases h1 : a + 1 ≤ b ∧ b < a + 1 + bs.length
      · have h2 : a ≤ b ∧ b < a + (x :: bs).length := by simp only [List.length_cons]; omega
        have h3 : b - a = (b - (a + 1)) + 1 := by omega
        rw [if_pos h1, if_pos h2, h3, List.getElem?_cons_succ]
      · have h2 : ¬ (a ≤ b ∧ b < a + (x :: bs).length) := by simp only [List.length_cons]; omega
        rw [if_neg h1, if_neg h2, if_neg hb]

/-- The value of the bytes of a value, cut to as many bytes. -/
theorem littleValue_bytesLittle (n v : Nat) : littleValue (bytesLittle n v) = v % 256 ^ n := by
  induction n generalizing v with
  | zero => simp [bytesLittle, littleValue, Nat.mod_one]
  | succ n ih =>
    rw [bytesLittle, littleValue, ih, Nat.pow_succ', Nat.mod_mul]; rfl

end Sys2Proof.Machine
end

