-- ==== Sys2Proof/Laws/State.lean ====
section
/-! SUPPORT. One lemma per field per update of the state, and the lemmas on naming a PE. -/

namespace Sys2Proof.Machine

@[simp] theorem withTlbs_impl (s : State) (es : List TlbEntry) : (s.withTlbs es).impl = s.impl := rfl
@[simp] theorem withTlbs_pes (s : State) (es : List TlbEntry) : (s.withTlbs es).pes = s.pes := rfl
@[simp] theorem withTlbs_tlbs (s : State) (es : List TlbEntry) : (s.withTlbs es).tlbs = es := rfl
@[simp] theorem withTlbs_pending (s : State) (es : List TlbEntry) : (s.withTlbs es).pending = s.pending := rfl
@[simp] theorem withTlbs_mem (s : State) (es : List TlbEntry) : (s.withTlbs es).mem = s.mem := rfl
@[simp] theorem withTlbs_cur (s : State) (es : List TlbEntry) : (s.withTlbs es).cur = s.cur := rfl
@[simp] theorem withTlbs_answer (s : State) (es : List TlbEntry) : (s.withTlbs es).answer = s.answer := rfl
@[simp] theorem withTlbs_agenda (s : State) (es : List TlbEntry) : (s.withTlbs es).agenda = s.agenda := rfl
@[simp] theorem withTlbs_draws (s : State) (es : List TlbEntry) : (s.withTlbs es).draws = s.draws := rfl

@[simp] theorem withPending_impl (s : State) (rs : List Pending) : (s.withPending rs).impl = s.impl := rfl
@[simp] theorem withPending_pes (s : State) (rs : List Pending) : (s.withPending rs).pes = s.pes := rfl
@[simp] theorem withPending_tlbs (s : State) (rs : List Pending) : (s.withPending rs).tlbs = s.tlbs := rfl
@[simp] theorem withPending_pending (s : State) (rs : List Pending) : (s.withPending rs).pending = rs := rfl
@[simp] theorem withPending_mem (s : State) (rs : List Pending) : (s.withPending rs).mem = s.mem := rfl
@[simp] theorem withPending_cur (s : State) (rs : List Pending) : (s.withPending rs).cur = s.cur := rfl
@[simp] theorem withPending_answer (s : State) (rs : List Pending) : (s.withPending rs).answer = s.answer := rfl
@[simp] theorem withPending_agenda (s : State) (rs : List Pending) : (s.withPending rs).agenda = s.agenda := rfl
@[simp] theorem withPending_draws (s : State) (rs : List Pending) : (s.withPending rs).draws = s.draws := rfl

@[simp] theorem withPe_impl (s : State) (p : Nat) (pe : Pe) : (s.withPe p pe).impl = s.impl := rfl
@[simp] theorem withPe_pes (s : State) (p : Nat) (pe : Pe) : (s.withPe p pe).pes = s.pes.set p pe := rfl
@[simp] theorem withPe_tlbs (s : State) (p : Nat) (pe : Pe) : (s.withPe p pe).tlbs = s.tlbs := rfl
@[simp] theorem withPe_pending (s : State) (p : Nat) (pe : Pe) : (s.withPe p pe).pending = s.pending := rfl
@[simp] theorem withPe_mem (s : State) (p : Nat) (pe : Pe) : (s.withPe p pe).mem = s.mem := rfl
@[simp] theorem withPe_cur (s : State) (p : Nat) (pe : Pe) : (s.withPe p pe).cur = s.cur := rfl
@[simp] theorem withPe_answer (s : State) (p : Nat) (pe : Pe) : (s.withPe p pe).answer = s.answer := rfl
@[simp] theorem withPe_agenda (s : State) (p : Nat) (pe : Pe) : (s.withPe p pe).agenda = s.agenda := rfl
@[simp] theorem withPe_draws (s : State) (p : Nat) (pe : Pe) : (s.withPe p pe).draws = s.draws := rfl

@[simp] theorem withMem_impl (s : State) (m : Spaces) : (s.withMem m).impl = s.impl := rfl
@[simp] theorem withMem_pes (s : State) (m : Spaces) : (s.withMem m).pes = s.pes := rfl
@[simp] theorem withMem_tlbs (s : State) (m : Spaces) : (s.withMem m).tlbs = s.tlbs := rfl
@[simp] theorem withMem_pending (s : State) (m : Spaces) : (s.withMem m).pending = s.pending := rfl
@[simp] theorem withMem_mem (s : State) (m : Spaces) : (s.withMem m).mem = m := rfl
@[simp] theorem withMem_cur (s : State) (m : Spaces) : (s.withMem m).cur = s.cur := rfl
@[simp] theorem withMem_answer (s : State) (m : Spaces) : (s.withMem m).answer = s.answer := rfl
@[simp] theorem withMem_agenda (s : State) (m : Spaces) : (s.withMem m).agenda = s.agenda := rfl
@[simp] theorem withMem_draws (s : State) (m : Spaces) : (s.withMem m).draws = s.draws := rfl

@[simp] theorem withCur_impl (s : State) (p : Nat) : (s.withCur p).impl = s.impl := rfl
@[simp] theorem withCur_pes (s : State) (p : Nat) : (s.withCur p).pes = s.pes := rfl
@[simp] theorem withCur_tlbs (s : State) (p : Nat) : (s.withCur p).tlbs = s.tlbs := rfl
@[simp] theorem withCur_pending (s : State) (p : Nat) : (s.withCur p).pending = s.pending := rfl
@[simp] theorem withCur_mem (s : State) (p : Nat) : (s.withCur p).mem = s.mem := rfl
@[simp] theorem withCur_cur (s : State) (p : Nat) : (s.withCur p).cur = p := rfl
@[simp] theorem withCur_answer (s : State) (p : Nat) : (s.withCur p).answer = s.answer := rfl
@[simp] theorem withCur_agenda (s : State) (p : Nat) : (s.withCur p).agenda = s.agenda := rfl
@[simp] theorem withCur_draws (s : State) (p : Nat) : (s.withCur p).draws = s.draws := rfl

@[simp] theorem withAnswer_impl (s : State) (a : Answer) : (s.withAnswer a).impl = s.impl := rfl
@[simp] theorem withAnswer_pes (s : State) (a : Answer) : (s.withAnswer a).pes = s.pes := rfl
@[simp] theorem withAnswer_tlbs (s : State) (a : Answer) : (s.withAnswer a).tlbs = s.tlbs := rfl
@[simp] theorem withAnswer_pending (s : State) (a : Answer) : (s.withAnswer a).pending = s.pending := rfl
@[simp] theorem withAnswer_mem (s : State) (a : Answer) : (s.withAnswer a).mem = s.mem := rfl
@[simp] theorem withAnswer_cur (s : State) (a : Answer) : (s.withAnswer a).cur = s.cur := rfl
@[simp] theorem withAnswer_answer (s : State) (a : Answer) : (s.withAnswer a).answer = some a := rfl
@[simp] theorem withAnswer_agenda (s : State) (a : Answer) : (s.withAnswer a).agenda = s.agenda := rfl
@[simp] theorem withAnswer_draws (s : State) (a : Answer) : (s.withAnswer a).draws = s.draws := rfl

@[simp] theorem withAgenda_impl (s : State) (es : List Event) : (s.withAgenda es).impl = s.impl := rfl
@[simp] theorem withAgenda_pes (s : State) (es : List Event) : (s.withAgenda es).pes = s.pes := rfl
@[simp] theorem withAgenda_tlbs (s : State) (es : List Event) : (s.withAgenda es).tlbs = s.tlbs := rfl
@[simp] theorem withAgenda_pending (s : State) (es : List Event) : (s.withAgenda es).pending = s.pending := rfl
@[simp] theorem withAgenda_mem (s : State) (es : List Event) : (s.withAgenda es).mem = s.mem := rfl
@[simp] theorem withAgenda_cur (s : State) (es : List Event) : (s.withAgenda es).cur = s.cur := rfl
@[simp] theorem withAgenda_answer (s : State) (es : List Event) : (s.withAgenda es).answer = s.answer := rfl
@[simp] theorem withAgenda_agenda (s : State) (es : List Event) : (s.withAgenda es).agenda = es := rfl
@[simp] theorem withAgenda_draws (s : State) (es : List Event) : (s.withAgenda es).draws = s.draws := rfl

@[simp] theorem withDraws_impl (s : State) (n : Nat) : (s.withDraws n).impl = s.impl := rfl
@[simp] theorem withDraws_pes (s : State) (n : Nat) : (s.withDraws n).pes = s.pes := rfl
@[simp] theorem withDraws_tlbs (s : State) (n : Nat) : (s.withDraws n).tlbs = s.tlbs := rfl
@[simp] theorem withDraws_pending (s : State) (n : Nat) : (s.withDraws n).pending = s.pending := rfl
@[simp] theorem withDraws_mem (s : State) (n : Nat) : (s.withDraws n).mem = s.mem := rfl
@[simp] theorem withDraws_cur (s : State) (n : Nat) : (s.withDraws n).cur = s.cur := rfl
@[simp] theorem withDraws_answer (s : State) (n : Nat) : (s.withDraws n).answer = s.answer := rfl
@[simp] theorem withDraws_agenda (s : State) (n : Nat) : (s.withDraws n).agenda = s.agenda := rfl
@[simp] theorem withDraws_draws (s : State) (n : Nat) : (s.withDraws n).draws = n := rfl

@[simp] theorem withTlbs_pe? (s : State) (es : List TlbEntry) (q : Nat) : (s.withTlbs es).pe? q = s.pe? q := rfl
@[simp] theorem withPending_pe? (s : State) (rs : List Pending) (q : Nat) : (s.withPending rs).pe? q = s.pe? q := rfl
@[simp] theorem withMem_pe? (s : State) (m : Spaces) (q : Nat) : (s.withMem m).pe? q = s.pe? q := rfl
@[simp] theorem withCur_pe? (s : State) (p : Nat) (q : Nat) : (s.withCur p).pe? q = s.pe? q := rfl
@[simp] theorem withAnswer_pe? (s : State) (a : Answer) (q : Nat) : (s.withAnswer a).pe? q = s.pe? q := rfl
@[simp] theorem withAgenda_pe? (s : State) (es : List Event) (q : Nat) : (s.withAgenda es).pe? q = s.pe? q := rfl
@[simp] theorem withDraws_pe? (s : State) (n : Nat) (q : Nat) : (s.withDraws n).pe? q = s.pe? q := rfl

/-- A PE that exists has a number below `N_PES`. -/
theorem pe?_lt {s : State} {p : Nat} {pe : Pe} (h : s.pe? p = some pe) : p < s.pes.length :=
  (List.getElem?_eq_some_iff.mp h).1

/-- The PEs named by `pe?` are those of the list. -/
theorem pe?_mem {s : State} {p : Nat} {pe : Pe} (h : s.pe? p = some pe) : pe ∈ s.pes :=
  List.mem_of_getElem? h

/-- The updated PE is read back, and the others are as before. -/
theorem withPe_pe? (s : State) (p : Nat) (pe : Pe) (q : Nat) :
    (s.withPe p pe).pe? q = if p = q then (if p < s.pes.length then some pe else none) else s.pe? q := by
  simp only [State.pe?, withPe_pes, List.getElem?_set]

/-- What an act of an existing PE can answer: the PE exists and the act answers it. -/
theorem onPe_next {s t : State} {p : Nat} {f : Pe → Host.Outcome State Fault Refusal} (h : onPe s p f = .next t) :
    ∃ pe, s.pe? p = some pe ∧ f pe = .next t := by
  unfold onPe at h
  split at h
  · exact ⟨_, ‹_›, h⟩
  · cases h

/-- An act of an existing PE is the act. -/
theorem onPe_some {s : State} {p : Nat} {pe : Pe} (f : Pe → Host.Outcome State Fault Refusal) (h : s.pe? p = some pe) :
    onPe s p f = f pe := by
  simp [onPe, h]

end Sys2Proof.Machine
end

