-- ==== Sys2Proof/Laws/Ops.lean ====
section
/-! SUPPORT. One lemma for each shared operation that says what it can do; the claims cite these instead of unfolding the operations. -/

namespace Sys2Proof.Machine

/-! ### Raising and answering -/

@[simp] theorem raise_impl (s : State) (f : Fault) : (raise s f).impl = s.impl := rfl
@[simp] theorem raise_pes (s : State) (f : Fault) : (raise s f).pes = s.pes := rfl
@[simp] theorem raise_tlbs (s : State) (f : Fault) : (raise s f).tlbs = s.tlbs := rfl
@[simp] theorem raise_pending (s : State) (f : Fault) : (raise s f).pending = s.pending := rfl
@[simp] theorem raise_mem (s : State) (f : Fault) : (raise s f).mem = s.mem := rfl
@[simp] theorem raise_answer (s : State) (f : Fault) : (raise s f).answer = some (.faulted f) := rfl

/-- Every way a lookup ends records one answer. -/
theorem respond_answers (s : State) (req : Request) (p : Payload) (c : Snapshot) (v : Via) :
    ∃ a, respond s req p c v = s.withAnswer a := ⟨_, rfl⟩

theorem conflictOutcome_answers (s : State) (req : Request) (d : TlbEntry) (m : List TlbEntry) (c : ConflictPick) :
    ∃ a, conflictOutcome s req d m c = s.withAnswer a := by
  unfold conflictOutcome; split <;> exact ⟨_, rfl⟩

theorem conflictStage2_answers (s : State) (req : Request) (e1 d : TlbEntry) (m : List TlbEntry) (c : ConflictPick) :
    ∃ a, conflictStage2 s req e1 d m c = s.withAnswer a := by
  unfold conflictStage2; split <;> exact ⟨_, rfl⟩

theorem finishWalk_answers (s : State) (pe : Pe) (req : Request) (w : Walk) : ∃ a, finishWalk s pe req w = s.withAnswer a := by
  unfold finishWalk; split <;> exact ⟨_, rfl⟩

theorem finishStage2_answers (s : State) (pe : Pe) (req : Request) (e1 : TlbEntry) (w : Walk) :
    ∃ a, finishStage2 s pe req e1 w = s.withAnswer a := by
  unfold finishStage2; split <;> exact ⟨_, rfl⟩

/-! ### Filling -/

/-- A level that may be cached meets every requirement of 40_tlb_caching.md R113. -/
theorem fillableLevel_spec {impl : Impl} {pe : Pe} {regime : Regime} {w : Walk} {i : Nat} {l : WalkLevel}
    (h : fillableLevel impl pe regime w i = some l) :
    w.levels[i]? = some l ∧ stageEnabled impl pe regime l.stage = true
      ∧ (inContext pe.ctx.el regime = true ∨ impl.fillOutOfContext = true)
      ∧ readByEnd w i = true ∧ (∀ f ∈ levelFaults w i l, neverCached f = false) ∧ abortUndetermined w i = false := by
  unfold fillableLevel at h
  split at h
  · cases h
  · next l' hl =>
    split at h
    · next hc =>
      cases h
      simp only [Bool.and_eq_true, Bool.or_eq_true, List.all_eq_true, Bool.not_eq_true'] at hc
      obtain ⟨⟨⟨⟨h1, h2⟩, h3⟩, h4⟩, h5⟩ := hc
      exact ⟨hl, h1, h2, h3, h4, h5⟩
    · cases h

/-- What a level that may be cached is, whatever faults the walk lists (40_tlb_caching.md R120, 60_exceptions.md R262): it is not the
level at which the walk ended in one of the three faults, nor one after it. -/
theorem fillableLevel_before_fault {impl : Impl} {pe : Pe} {regime : Regime} {w : Walk} {i : Nat} {l : WalkLevel}
    {kind : WalkFault} {stage : Stage} {level k : Nat} (h : fillableLevel impl pe regime w i = some l)
    (hf : w.finish = .fault kind stage level k) (hk : neverCached kind = true) :
    i < k ∧ ¬ (stage = .s1 ∧ l.stage = .s1 ∧ l.level = level) := by
  obtain ⟨-, -, -, h1, h2, -⟩ := fillableLevel_spec h
  simp only [readByEnd, hf, decide_eq_true_eq] at h1
  have h3 : ¬ (i = k ∨ (stage = .s1 ∧ l.stage = .s1 ∧ l.level = level)) := by
    intro hc
    have := h2 kind (by simp [levelFaults, endingFault, hf, hc])
    rw [hk] at this; cases this
  rw [not_or] at h3
  exact ⟨by omega, h3.2⟩

/-- A fault is one that may be cached exactly when it is none of the three. -/
theorem neverCached_eq_false (f : WalkFault) : neverCached f = false ↔ f ≠ .translation ∧ f ≠ .addressSize ∧ f ≠ .accessFlag := by
  cases f <;> simp [neverCached]

/-- The levels that may be cached are exactly those of which every `require` line holds. -/
theorem fillableLevel_iff {impl : Impl} {pe : Pe} {regime : Regime} {w : Walk} {i : Nat} {l : WalkLevel} :
    fillableLevel impl pe regime w i = some l ↔ fillPermitted impl pe regime w i l := by
  constructor
  · intro h
    obtain ⟨h1, h2, h3, h4, h5, h6⟩ := fillableLevel_spec h
    refine ⟨h1, h2, h3, fun f hf => (neverCached_eq_false f).mp (h5 f (by simp [levelFaults, hf])), ?_, ?_⟩
    · intro kind stage level k hk
      refine ⟨by simpa [readByEnd, hk] using h4, fun hkind => fillableLevel_before_fault h hk ?_⟩
      rcases hkind with rfl | rfl | rfl <;> rfl
    · intro stage level determined k needed hk
      have hle : i ≤ k := by simpa [readByEnd, hk] using h4
      refine ⟨hle, fun hd => ?_⟩
      subst hd
      simp only [abortUndetermined, hk, Bool.not_false, Bool.true_and, Bool.or_eq_false_iff, beq_eq_false_iff_ne] at h6
      exact ⟨by omega, by simpa using h6.2⟩
  · rintro ⟨h1, h2, h3, h4, h5, h6⟩
    have hread : readByEnd w i = true := by
      unfold readByEnd
      split
      · rfl
      · next hk => simpa using (h5 _ _ _ _ hk).1
      · next hk => simpa using (h6 _ _ _ _ _ hk).1
    have hfaults : ∀ f ∈ levelFaults w i l, neverCached f = false := by
      intro f hf
      rcases List.mem_append.mp hf with hf | hf
      · exact (neverCached_eq_false f).mpr (h4 f (by simpa using hf))
      · unfold endingFault at hf
        split at hf
        · next kind stage level k hk =>
          split at hf
          · next hc =>
            simp only [Option.toList_some, List.mem_singleton] at hf; subst hf
            rw [neverCached_eq_false]
            by_contra hn
            have hkind : f = .translation ∨ f = .addressSize ∨ f = .accessFlag := by tauto
            obtain ⟨q1, q2⟩ := (h5 _ _ _ _ hk).2 hkind
            rcases hc with rfl | hc
            · omega
            · exact q2 hc
          · simp at hf
        · simp at hf
    have habort : abortUndetermined w i = false := by
      unfold abortUndetermined
      split
      · next hk =>
        have h := (h6 _ _ _ _ _ hk).2
        rename_i determined k needed
        cases determined with
        | true => rfl
        | false =>
          obtain ⟨q1, q2⟩ := h rfl
          simpa using ⟨by omega, q2⟩
      · rfl
    have hctx : (inContext pe.ctx.el regime || impl.fillOutOfContext) = true := by simpa using h3
    have hall : ((levelFaults w i l).all fun f => !neverCached f) = true := by simpa using hfaults
    simp only [fillableLevel, h1, h2, hctx, hread, hall, habort, Bool.and_self, Bool.not_false, if_true]

/-- What the entry of a fill is made from: one permitted level, or a stage 1 and a stage 2 level, both permitted. -/
theorem fillEntry_cases {impl : Impl} {pe : Pe} {req : Request} {w : Walk} {pick : FillPick} {e : TlbEntry}
    (h : fillEntry impl pe req w pick = some e) :
    (∃ i l, fillableLevel impl pe req.regime w i = some l ∧ e = singleEntry impl pe req w i l ∧ e.iaSize ≠ 0
      ∧ pick = .single i) ∨
    (∃ i1 i2 l1 l2, fillableLevel impl pe req.regime w i1 = some l1 ∧ fillableLevel impl pe req.regime w i2 = some l2
      ∧ l1.stage = .s1 ∧ l2.stage = .s2 ∧ e = combinedEntry impl pe req w i1 i2 l1 l2 ∧ e.iaSize ≠ 0
      ∧ pick = .combined i1 i2) := by
  unfold fillEntry at h
  split at h
  · split at h
    · unfold positiveSize at h; split at h
      · cases h
      · cases h; exact .inl ⟨_, _, ‹_›, rfl, ‹_›, rfl⟩
    · cases h
  · split at h
    · split at h
      · unfold positiveSize at h; split at h
        · cases h
        · cases h; exact .inr ⟨_, _, _, _, ‹_›, ‹_›, (‹_ ∧ _›).1, (‹_ ∧ _›).2, rfl, ‹_›, rfl⟩
      · cases h
    · cases h

/-- Every level an entry is made of may be cached. -/
theorem fillEntry_levels {impl : Impl} {pe : Pe} {req : Request} {w : Walk} {pick : FillPick} {e : TlbEntry}
    (h : fillEntry impl pe req w pick = some e) :
    ∀ i ∈ pick.levels, ∃ l, fillableLevel impl pe req.regime w i = some l := by
  unfold fillEntry at h
  split at h
  · split at h
    · next hl => intro i hi; simp only [FillPick.levels, List.mem_singleton] at hi; subst hi; exact ⟨_, hl⟩
    · cases h
  · split at h
    · next h1 h2 =>
      intro i hi
      simp only [FillPick.levels, List.mem_cons, List.not_mem_nil, or_false] at hi
      rcases hi with rfl | rfl
      · exact ⟨_, h1⟩
      · exact ⟨_, h2⟩
    · cases h

/-- The fields of a filled entry that do not depend on the level. -/
theorem fillEntry_fixed {impl : Impl} {pe : Pe} {req : Request} {w : Walk} {pick : FillPick} {e : TlbEntry}
    (h : fillEntry impl pe req w pick = some e) :
    e.owner = req.pe ∧ e.regime = req.regime ∧ e.sec = req.sec ∧ e.locked = false ∧ 0 < e.iaSize
      ∧ e.vmid = vmidTag impl pe req.regime ∧ e.ctl = ctlSnapshot impl pe req.regime e.contents
      ∧ e.cnp = cnpForEntry impl pe req.regime (halfOf req.regime req.ia) e.contents := by
  rcases fillEntry_cases h with ⟨i, l, -, rfl, hs, -⟩ | ⟨i1, i2, l1, l2, -, -, -, -, rfl, hs, -⟩ <;>
    exact ⟨rfl, rfl, rfl, rfl, Nat.pos_of_ne_zero hs, rfl, rfl, rfl⟩

/-- A permitted fill appends its entry; any other changes nothing. -/
theorem fill_eq (s : State) (pe : Pe) (req : Request) (w : Walk) (pick : FillPick) :
    fill s pe req w pick = s.withTlbs (s.tlbs ++ (fillEntry s.impl pe req w pick).toList) := by
  unfold fill; split <;> simp_all [State.withTlbs]

/-- The fills of a walk append the entries the rules permit, in the order of the picks. -/
theorem fills_eq (pe : Pe) (req : Request) (w : Walk) (picks : List FillPick) : ∀ s : State,
    fills s pe req w picks = s.withTlbs (s.tlbs ++ picks.filterMap (fillEntry s.impl pe req w)) := by
  induction picks with
  | nil => intro s; simp [fills, State.withTlbs]
  | cons pick picks ih =>
    intro s
    rw [fills, ih, fill_eq]
    cases h : fillEntry s.impl pe req w pick <;> simp [State.withTlbs, h]

/-- The fills of a walk only append entries, each of which the rules permit. -/
theorem fills_spec (pe : Pe) (req : Request) (w : Walk) (picks : List FillPick) (s : State) :
    ∃ es, fills s pe req w picks = s.withTlbs (s.tlbs ++ es)
      ∧ ∀ e ∈ es, ∃ pick ∈ picks, fillEntry s.impl pe req w pick = some e :=
  ⟨_, fills_eq pe req w picks s, fun _ he => List.mem_filterMap.mp he⟩

/-! ### Eviction -/

/-- What an eviction can do: nothing, or the removal of one unlocked entry. -/
theorem evict_cases (s : State) (k : Nat) :
    evict s k = s ∨ ∃ e, s.tlbs[k]? = some e ∧ e.locked = false ∧ evict s k = s.withTlbs (s.tlbs.eraseIdx k) := by
  unfold evict
  split
  · split
    · exact .inl rfl
    · exact .inr ⟨_, ‹_›, by simp_all, rfl⟩
  · exact .inl rfl

/-! ### Looking up -/

/-- The walk a choice of a lookup makes and may cache from: on a MISS the one from the base registers; on a MISS after an `S1Only` hit
the stage 2 walk of the output of that entry. -/
def LookupWalks (s : State) (pe : Pe) (req : Request) (ch : LookupChoice) (start : WalkStart) (plan : WalkPlan) : Prop :=
  (start = .root ∧ ch.first = .miss plan) ∨
  (ch.first = .hit ∧ ch.second = .miss plan
    ∧ ∃ e1, hitMembers s pe req = [e1] ∧ e1.contents = .s1Only ∧ start = .stage2Of (outputFor e1 req.ia))

/-- A lookup records one answer and appends the entries that its choice picks, and the rules permit, from the walk it makes; nothing
else changes. -/
def LooksUp (s : State) (pe : Pe) (req : Request) (ch : LookupChoice) (t : State) : Prop :=
  ∃ es a, t = (s.withTlbs (s.tlbs ++ es)).withAnswer a
    ∧ ∀ e ∈ es, ∃ start plan, LookupWalks s pe req ch start plan
        ∧ ∃ pick ∈ plan.fills, fillEntry s.impl pe req (walkFor s pe req plan.entries start) pick = some e

theorem looksUp_of_answer {s t : State} {pe : Pe} {req : Request} {ch : LookupChoice} (h : ∃ a, t = s.withAnswer a) :
    LooksUp s pe req ch t := by
  obtain ⟨a, rfl⟩ := h
  exact ⟨[], a, by simp [State.withTlbs], by simp⟩

theorem looksUp_of_fills {s t : State} {pe : Pe} {req : Request} {ch : LookupChoice} {start : WalkStart} {plan : WalkPlan}
    (hw : plan.fills ≠ [] → LookupWalks s pe req ch start plan)
    (h : ∃ a, t = (fills s pe req (walkFor s pe req plan.entries start) plan.fills).withAnswer a) : LooksUp s pe req ch t := by
  obtain ⟨a, rfl⟩ := h
  obtain ⟨es, h1, h2⟩ := fills_spec pe req (walkFor s pe req plan.entries start) plan.fills s
  refine ⟨es, a, by rw [h1], fun e he => ?_⟩
  obtain ⟨pick, hp, hk⟩ := h2 e he
  exact ⟨start, plan, hw (List.ne_nil_of_mem hp), pick, hp, hk⟩

theorem miss_looksUp {s : State} {pe : Pe} {req : Request} {ch : LookupChoice} {plan : WalkPlan}
    (hw : plan.fills ≠ [] → LookupWalks s pe req ch .root plan) : LooksUp s pe req ch (miss s pe req plan) :=
  looksUp_of_fills hw (finishWalk_answers _ _ _ _)

theorem missStage2_looksUp {s : State} {pe : Pe} {req : Request} {ch : LookupChoice} {e1 : TlbEntry} {plan : WalkPlan}
    (hw : plan.fills ≠ [] → LookupWalks s pe req ch (.stage2Of (outputFor e1 req.ia)) plan) :
    LooksUp s pe req ch (missStage2 s pe req e1 plan) :=
  looksUp_of_fills hw (finishStage2_answers _ _ _ _ _)

theorem lookupStage2_looksUp {s : State} {pe : Pe} {req : Request} {ch : LookupChoice} {e1 : TlbEntry}
    (h1 : ch.first = .hit) (h2 : hitMembers s pe req = [e1]) (h3 : e1.contents = .s1Only) :
    LooksUp s pe req ch (lookupStage2 s pe req e1 ch.second) := by
  unfold lookupStage2
  split
  · split
    · exact looksUp_of_answer ⟨_, rfl⟩
    · exact missStage2_looksUp (fun h => absurd rfl h)
  · split
    · exact looksUp_of_answer (conflictStage2_answers ..)
    · exact missStage2_looksUp (fun h => absurd rfl h)
  · next plan hc => exact missStage2_looksUp (fun _ => .inr ⟨h1, hc, e1, h2, h3, rfl⟩)

/-- What a lookup can do. -/
theorem lookup_looksUp (s : State) (pe : Pe) (req : Request) (ch : LookupChoice) : LooksUp s pe req ch (lookup s pe req ch) := by
  unfold lookup
  split
  · unfold lookupChosen
    split
    · next hf =>
      split
      · next e he =>
        unfold hitEntry
        split
        · next hc => exact lookupStage2_looksUp hf he hc.1
        · exact looksUp_of_answer ⟨_, rfl⟩
      · exact miss_looksUp (fun h => absurd rfl h)
    · split
      · exact looksUp_of_answer (conflictOutcome_answers ..)
      · exact miss_looksUp (fun h => absurd rfl h)
    · next plan hf => exact miss_looksUp (fun _ => .inl ⟨rfl, hf⟩)
  · exact looksUp_of_answer ⟨_, rfl⟩

/-! ### The law of tags (42_asid_vmid_tagging.md R161) -/

/-- What matching an entry says of its tags. -/
theorem contextMatches_tags {impl : Impl} {pe : Pe} {req : Request} {e : TlbEntry} (h : contextMatches impl pe req e = true) :
    e.regime = req.regime ∧ e.sec = req.sec
      ∧ (e.asid = none ∨ e.asid = currentAsid impl pe req.regime (Config.halfOf req.regime req.ia))
      ∧ (e.vmid = none ∨ e.vmid = some (currentVmid impl pe))
      ∧ (e.contents.holdsS1 = true → stageEnabled impl pe req.regime .s1 = true)
      ∧ (e.contents.holdsS2 = true → stageEnabled impl pe req.regime .s2 = true) := by
  simp only [contextMatches, Bool.and_eq_true, beq_iff_eq] at h
  obtain ⟨⟨⟨⟨h1, h2⟩, h3⟩, h4⟩, h5⟩ := h
  refine ⟨h1, h2, ?_, ?_, ?_, ?_⟩
  · unfold asidMatches at h3
    split at h3
    · exact .inl ‹_›
    · next a ha => simp only [beq_iff_eq] at h3; rw [ha, h3]; exact .inr rfl
  · unfold vmidMatches at h4
    split at h4
    · exact .inl ‹_›
    · next v hv => simp only [beq_iff_eq] at h4; rw [hv, h4]; exact .inr rfl
  · intro hc; cases he : e.contents <;> simp_all [stagesEnabled, Contents.stages, Contents.holdsS1]
  · intro hc; cases he : e.contents <;> simp_all [stagesEnabled, Contents.stages, Contents.holdsS2]

/-- What the range line of `Match` says. -/
theorem inputMatches_covers {e : TlbEntry} {ia : Nat} (h : inputMatches e ia = true) : coversAddress e ia := by
  simpa [inputMatches, coversAddress] using h

/-- A member for the input address: final, of stage 1 information, lawful, and for that address. -/
theorem vaMembers_lawful {s : State} {pe : Pe} {req : Request} {e : TlbEntry} (h : e ∈ vaMembers s pe req) :
    tagLaw s pe req e ∧ e.final = true ∧ e.contents.holdsS1 = true ∧ coversAddress e req.ia := by
  simp only [vaMembers, List.mem_filter, Bool.and_eq_true, entryMatches] at h
  obtain ⟨h1, ⟨⟨h2, h3⟩, h4⟩, h5, h6⟩ := h
  exact ⟨⟨h1, h4, contextMatches_tags h5⟩, h2, h3, inputMatches_covers h6⟩

/-- A member for a stage 1 output address: final, of stage 2 information alone, lawful, and for that address. -/
theorem oaMembers_lawful {s : State} {pe : Pe} {req : Request} {oa : Nat} {e : TlbEntry} (h : e ∈ oaMembers s pe req oa) :
    tagLaw s pe req e ∧ e.final = true ∧ e.contents = .s2Only ∧ coversAddress e oa := by
  simp only [oaMembers, List.mem_filter, Bool.and_eq_true, Bool.not_eq_true', entryMatches] at h
  obtain ⟨h1, ⟨⟨h2, h3⟩, h4⟩, h5, h6⟩ := h
  exact ⟨⟨h1, h4, contextMatches_tags h5⟩, h2, by cases he : e.contents <;> simp_all [Contents.holdsS1], inputMatches_covers h6⟩

/-- A member of `M`: one for the input address; with stage 1 disabled, one for its output address; or one for the output address of a
matching `S1Only` entry. -/
theorem members_cases {s : State} {pe : Pe} {req : Request} {e : TlbEntry} (h : e ∈ members s pe req) :
    e ∈ vaMembers s pe req
      ∨ (stageEnabled s.impl pe req.regime .s1 = false ∧ e ∈ oaMembers s pe req (Config.disabledStage1Oa req))
      ∨ ∃ e1 ∈ vaMembers s pe req, e1.contents = .s1Only ∧ e ∈ oaMembers s pe req (outputFor e1 req.ia) := by
  unfold members at h
  split at h
  · rcases List.mem_append.mp h with h | h
    · exact .inl h
    · split at h
      · obtain ⟨oa, ho, h⟩ := List.mem_flatMap.mp h
        simp only [stage1Outputs, List.mem_map, List.mem_filter, beq_iff_eq] at ho
        obtain ⟨e1, ⟨h1, h2⟩, rfl⟩ := ho
        exact .inr (.inr ⟨e1, h1, h2, h⟩)
      · cases h
  · next hn => exact .inr (.inl ⟨by simpa using hn, h⟩)

/-- An entry that a HIT can use. -/
theorem hitMembers_cases {s : State} {pe : Pe} {req : Request} {e : TlbEntry} (h : e ∈ hitMembers s pe req) :
    e ∈ vaMembers s pe req
      ∨ (stageEnabled s.impl pe req.regime .s1 = false ∧ e ∈ oaMembers s pe req (Config.disabledStage1Oa req)) := by
  unfold hitMembers at h
  split at h
  · exact .inl h
  · next hn => exact .inr ⟨by simpa using hn, h⟩

/-- Every cached entry a walk uses obeys the law, is not final, and is for the address that the walk uses it for. -/
theorem walkEntries_lawful {s : State} {pe : Pe} {req : Request} {ks : List Nat} {start : WalkStart} {e : TlbEntry}
    (h : e ∈ walkEntries s pe req ks start) : tagLaw s pe req e ∧ e.final = false
      ∧ (e.contents.holdsS1 = true → start = .root ∧ coversAddress e req.ia)
      ∧ (e.contents.holdsS1 = false → ∃ ia ∈ walkStage2Inputs s pe req ks start, coversAddress e ia) := by
  simp only [walkEntries, walkCandidates, List.mem_filter, List.mem_filterMap, Bool.and_eq_true, Bool.not_eq_true'] at h
  obtain ⟨⟨⟨k, -, h1⟩, h2, h3⟩, h4⟩ := h
  unfold walkMatches at h4
  split at h4
  · next hs =>
    simp only [entryMatches, Bool.and_eq_true, beq_iff_eq] at h4
    obtain ⟨h4, h5, h6⟩ := h4
    exact ⟨⟨List.mem_of_getElem? h1, h3, contextMatches_tags h5⟩, h2, fun _ => ⟨h4, inputMatches_covers h6⟩,
      fun hn => absurd hs (by simp [hn])⟩
  · next hs =>
    simp only [List.any_eq_true, entryMatches, Bool.and_eq_true] at h4
    obtain ⟨ia, h4, h5, h6⟩ := h4
    exact ⟨⟨List.mem_of_getElem? h1, h3, contextMatches_tags h5⟩, h2, fun hn => absurd hn hs,
      fun _ => ⟨ia, h4, inputMatches_covers h6⟩⟩

/-! ### Drawing from several matching entries (40_tlb_caching.md R123) -/

theorem memberAt_mem {d : TlbEntry} {m : List TlbEntry} (hd : d ∈ m) (k : Nat) : memberAt d m k ∈ m := by
  unfold memberAt
  rw [List.getD_eq_getElem?_getD]
  cases h : m[k]? with
  | none => simpa using hd
  | some x => simpa using List.mem_of_getElem? h

theorem snapshotValue_mem {f : Field} {v : FieldValue} : ∀ {c : Snapshot}, snapshotValue f c = some v → (f, v) ∈ c
  | [], h => by cases h
  | (g, w) :: c, h => by
    simp only [snapshotValue] at h
    split at h
    · next hg => cases h; subst hg; simp
    · exact List.mem_cons_of_mem _ (snapshotValue_mem h)

theorem mixedCtl_mem {d : TlbEntry} {m : List TlbEntry} (hd : d ∈ m) : ∀ (fs : List Field) (ks : List Nat) (fv : Field × FieldValue),
    fv ∈ mixedCtl d m fs ks → ∃ e ∈ m, fv ∈ e.ctl := by
  intro fs
  induction fs with
  | nil => intro ks fv h; cases h
  | cons f fs ih =>
    intro ks fv h
    simp only [mixedCtl] at h
    split at h
    · next v hv =>
      rcases List.mem_cons.mp h with rfl | h
      · exact ⟨_, memberAt_mem hd _, snapshotValue_mem hv⟩
      · exact ih _ _ h
    · exact ih _ _ h

/-- A result drawn from `M`: each part of the payload, and each control value, is that of a member. -/
theorem conflictDraw_spec {d : TlbEntry} {m : List TlbEntry} (hd : d ∈ m) {c : ConflictPick} {r : Payload × Snapshot}
    (h : conflictDraw d m c = some r) : drawnFrom m r.1 r.2 := by
  cases c with
  | abort => cases h
  | member k =>
    cases h
    exact ⟨⟨_, memberAt_mem hd k, rfl⟩, ⟨_, memberAt_mem hd k, rfl⟩, ⟨_, memberAt_mem hd k, rfl⟩, fun fv hf => ⟨_, memberAt_mem hd k, hf⟩⟩
  | mix i j k ks =>
    cases h
    exact ⟨⟨_, memberAt_mem hd i, rfl⟩, ⟨_, memberAt_mem hd j, rfl⟩, ⟨_, memberAt_mem hd k, rfl⟩, mixedCtl_mem hd _ _⟩

/-! ### Completing invalidations -/

/-- What is left after a completion: an entry as it was, out of scope or locked; or the update of a locked one. -/
theorem completeEntries_mem (s : State) (r : Pending) (es : List TlbEntry) : ∀ (fates : List LockedFate) (x : TlbEntry),
    x ∈ completeEntries s r fates es →
      (x ∈ es ∧ (inScope s r x = false ∨ x.locked = true)) ∨
      ∃ e ∈ es, e.locked = true ∧ inScope s r e = true ∧ ∃ u, lockedUpdate s e u = some x := by
  induction es with
  | nil => intro fates x hx; simp [completeEntries] at hx
  | cons e es ih =>
    intro fates x hx
    have step : ∀ f', x ∈ completeEntries s r f' es →
        (x ∈ e :: es ∧ (inScope s r x = false ∨ x.locked = true)) ∨
        ∃ e' ∈ e :: es, e'.locked = true ∧ inScope s r e' = true ∧ ∃ u, lockedUpdate s e' u = some x := by
      intro f' h
      rcases ih f' x h with ⟨h1, h2⟩ | ⟨e', h1, h2⟩
      · exact .inl ⟨List.mem_cons_of_mem _ h1, h2⟩
      · exact .inr ⟨e', List.mem_cons_of_mem _ h1, h2⟩
    simp only [completeEntries] at hx
    split at hx
    · next hin =>
      split at hx
      · next hl =>
        split at hx
        · rcases List.mem_cons.mp hx with rfl | hx
          · exact .inl ⟨by simp, .inr hl⟩
          · exact step _ hx
        · next _ f fs =>
          rcases List.mem_append.mp hx with hx | hx
          · cases f with
            | remove => simp [lockedFate] at hx
            | keep => simp only [lockedFate, List.mem_singleton] at hx; subst hx; exact .inl ⟨by simp, .inr hl⟩
            | update u =>
              simp only [lockedFate] at hx
              split at hx
              · next n hn => simp only [List.mem_singleton] at hx; subst hx; exact .inr ⟨e, by simp, hl, hin, u, hn⟩
              · split at hx
                · simp at hx
                · simp only [List.mem_singleton] at hx; subst hx; exact .inl ⟨by simp, .inr hl⟩
          · exact step _ hx
      · exact step _ hx
    · next hin =>
      rcases List.mem_cons.mp hx with rfl | hx
      · exact .inl ⟨by simp, .inl (by simpa using hin)⟩
      · exact step _ hx

/-- An entry out of scope stays. -/
theorem completeEntries_keeps (s : State) (r : Pending) (es : List TlbEntry) : ∀ (fates : List LockedFate) (x : TlbEntry),
    x ∈ es → inScope s r x = false → x ∈ completeEntries s r fates es := by
  induction es with
  | nil => intro _ _ h; cases h
  | cons e es ih =>
    intro fates x hx hs
    simp only [completeEntries]
    rcases List.mem_cons.mp hx with rfl | hx
    · simp [hs]
    · split
      · split
        · split
          · exact List.mem_cons_of_mem _ (ih _ _ hx hs)
          · exact List.mem_append_right _ (ih _ _ hx hs)
        · exact ih _ _ hx hs
      · exact List.mem_cons_of_mem _ (ih _ _ hx hs)

/-- What an update of a locked entry sets, and from what. -/
theorem lockedUpdate_cases {s : State} {e x : TlbEntry} {u : LockedUpdate} (h : lockedUpdate s e u = some x) :
    ∃ pe n result, s.pe? e.owner = some pe ∧ s.impl.lockdownSupported = true ∧ inputMatches e u.ia = true
      ∧ (updateWalk s pe e u).2.finish = .ok result
      ∧ fillEntry s.impl pe (updateWalk s pe e u).1 (updateWalk s pe e u).2 u.pick = some n
      ∧ n.contents = e.contents ∧ n.final = e.final ∧ x = updatedEntry e n := by
  unfold lockedUpdate at h
  split at h
  · cases h
  · next pe hpe =>
    split at h
    · next hsup =>
      simp only [Bool.and_eq_true] at h hsup
      split at h
      · next result hok =>
        split at h
        · next n hn =>
          split at h
          · next hk => cases h; exact ⟨pe, n, result, hpe, hsup.1, hsup.2, hok, hn, hk.1, hk.2, rfl⟩
          · cases h
        · cases h
      · cases h
    · cases h

@[simp] theorem invalidate_impl (s : State) (r : Pending) (f : List LockedFate) : (invalidate s r f).impl = s.impl := rfl
@[simp] theorem invalidate_pes (s : State) (r : Pending) (f : List LockedFate) : (invalidate s r f).pes = s.pes := rfl
@[simp] theorem invalidate_pending (s : State) (r : Pending) (f : List LockedFate) : (invalidate s r f).pending = s.pending := rfl
@[simp] theorem invalidate_mem (s : State) (r : Pending) (f : List LockedFate) : (invalidate s r f).mem = s.mem := rfl
@[simp] theorem invalidate_tlbs (s : State) (r : Pending) (f : List LockedFate) :
    (invalidate s r f).tlbs = completeEntries s r f s.tlbs := rfl

/-- Usability reads the PEs and the parameters alone. -/
theorem usable_congr {s t : State} (hi : t.impl = s.impl) (hp : t.pes = s.pes) (q : Nat) (e : TlbEntry) :
    usable t q e = usable s q e := by
  simp [usable, sharedUnderCnp, innerShareable, State.pe?, hi, hp]

/-- The scope of a record reads the PEs and the parameters alone. -/
theorem inScope_congr {s t : State} (hi : t.impl = s.impl) (hp : t.pes = s.pes) (r : Pending) (e : TlbEntry) :
    inScope t r e = inScope s r e := by
  simp [inScope, usable_congr hi hp]

/-- An entry a record does not reach: out of its scope, or owned by no target and usable by none. -/
theorem inScope_eq_false {s : State} {r : Pending} {e : TlbEntry} : inScope s r e = false ↔
    (r.scope.covers e = true → e.owner ∉ r.targets ∧ ∀ q ∈ r.targets, usable s q e = false) := by
  simp [inScope]

/-- The completion of the records of an issuer changes `TLBS` alone. -/
theorem completeIssuer_eq (p : Nat) (rs : List Pending) : ∀ (fates : List (List LockedFate)) (s : State),
    completeIssuer p rs fates s = s.withTlbs (completeIssuer p rs fates s).tlbs := by
  induction rs with
  | nil => intro _ _; rfl
  | cons r rs ih =>
    intro fates s
    simp only [completeIssuer]
    split
    · rw [ih]; rfl
    · exact ih _ _

/-- A property of entries that every completion keeps holds after the completion of the records of an issuer. -/
theorem completeIssuer_induct {P : TlbEntry → Prop} (p : Nat) (rs : List Pending) (impl : Impl) (pes : List Pe)
    (hP : ∀ (s : State) r fates, s.impl = impl → s.pes = pes → (∀ e ∈ s.tlbs, P e) → ∀ e ∈ completeEntries s r fates s.tlbs, P e) :
    ∀ (fates : List (List LockedFate)) (s : State), s.impl = impl → s.pes = pes → (∀ e ∈ s.tlbs, P e) →
      ∀ e ∈ (completeIssuer p rs fates s).tlbs, P e := by
  induction rs with
  | nil => intro _ s _ _ h; exact h
  | cons r rs ih =>
    intro fates s hi hp h
    simp only [completeIssuer]
    split
    · exact ih _ _ hi hp (hP s r _ hi hp h)
    · exact ih _ _ hi hp h

/-- After the completion of the records of an issuer no unlocked entry is in the scope of one of them. -/
theorem completeIssuer_outOfScope {p : Nat} {r : Pending} (hr : r.issuer = p) (rs : List Pending) :
    ∀ (fates : List (List LockedFate)) (s : State), r ∈ rs →
      ∀ e ∈ (completeIssuer p rs fates s).tlbs, e.locked = false → inScope s r e = false := by
  have once : ∀ (s : State) (q : Pending) (fates : List LockedFate) (P : TlbEntry → Prop),
      (∀ e ∈ s.tlbs, e.locked = false → inScope s q e = false → P e) →
      ∀ e ∈ completeEntries s q fates s.tlbs, e.locked = false → P e := by
    intro s q fates P h e he hl
    rcases completeEntries_mem s q s.tlbs fates e he with ⟨h1, h2⟩ | ⟨e', -, h1, -, u, hu⟩
    · exact h e h1 hl (h2.resolve_right (by simp [hl]))
    · obtain ⟨_, _, _, -, -, -, -, -, -, -, rfl⟩ := lockedUpdate_cases hu
      exact absurd h1 (by rw [show e'.locked = false from hl]; decide)
  induction rs with
  | nil => intro _ _ h; cases h
  | cons q rs ih =>
    intro fates s hmem e he hl
    simp only [completeIssuer] at he
    by_cases hq : q.issuer = p
    · rw [if_pos hq] at he
      have hcongr := inScope_congr (s := s) (t := invalidate s q (fates.headD [])) rfl rfl r e
      rcases List.mem_cons.mp hmem with rfl | hmem
      · refine completeIssuer_induct (P := fun e => e.locked = false → inScope s r e = false) p rs s.impl s.pes ?_ _
          (invalidate s r (fates.headD [])) rfl rfl ?_ e he hl
        · intro t q' f _ _ h; exact once t q' f _ fun e he hl _ => h e he hl
        · exact once s r _ _ fun _ _ _ h => h
      · exact hcongr ▸ ih _ _ hmem e he hl
    · rw [if_neg hq] at he
      rcases List.mem_cons.mp hmem with rfl | hmem
      · exact absurd hr hq
      · exact ih _ _ hmem e he hl

/-! ### The instructions -/

/-- What a member of the family can answer: its feature is implemented, `TLBI_ALLOWED` holds, and one record is issued. -/
theorem tlbi_next {feature : Bool} {targets : List Nat} {rt : Nat} {s t : State} (h : tlbi feature targets rt s = .next t) :
    ∃ pe, s.pe? s.cur = some pe ∧ feature = true ∧ pe.ctx.tlbiAllowed = true
      ∧ t = issue s (tlbiRecord s s.cur pe targets rt) := by
  obtain ⟨pe, hpe, h⟩ := onPe_next h
  split at h
  · split at h
    · cases h; exact ⟨pe, hpe, ‹_›, ‹_›, rfl⟩
    · cases h
  · cases h

/-- Every instruction that answers a next state issues one record, of the executing PE, whose targets exist and include it. -/
theorem exec_next {i : Instr} {s t : State} (h : exec i s = .next t) :
    ∃ pe targets, s.pe? s.cur = some pe ∧ s.cur ∈ targets ∧ (∀ q ∈ targets, q < s.pes.length)
      ∧ t = issue s (tlbiRecord s s.cur pe targets i.rt) := by
  have main : ∀ feature targets, tlbi feature targets i.rt s = .next t →
      (∀ pe, s.pe? s.cur = some pe → s.cur ∈ targets ∧ ∀ q ∈ targets, q < s.pes.length) →
      ∃ pe targets, s.pe? s.cur = some pe ∧ s.cur ∈ targets ∧ (∀ q ∈ targets, q < s.pes.length)
        ∧ t = issue s (tlbiRecord s s.cur pe targets i.rt) := by
    intro feature targets h ht
    obtain ⟨pe, hpe, -, -, rfl⟩ := tlbi_next h
    exact ⟨pe, targets, hpe, (ht pe hpe).1, (ht pe hpe).2, rfl⟩
  have hl : ∀ pe, s.pe? s.cur = some pe → s.cur ∈ targetsLocal s s.cur ∧ ∀ q ∈ targetsLocal s s.cur, q < s.pes.length := by
    intro pe hpe; have := pe?_lt hpe; simp [targetsLocal, this]
  have hi : ∀ pe, s.pe? s.cur = some pe → s.cur ∈ targetsInner s s.cur ∧ ∀ q ∈ targetsInner s s.cur, q < s.pes.length := by
    intro pe hpe; have := pe?_lt hpe
    simp +contextual [targetsInner, innerShareable, hpe, this]
  have ho : ∀ pe, s.pe? s.cur = some pe → s.cur ∈ targetsOuter s s.cur ∧ ∀ q ∈ targetsOuter s s.cur, q < s.pes.length := by
    intro pe hpe; have := pe?_lt hpe
    simp +contextual [targetsOuter, outerShareable, hpe, this]
  cases i <;> first | exact main _ _ h hl | exact main _ _ h hi | exact main _ _ h ho

end Sys2Proof.Machine
end

