-- ==== Sys2Proof/Laws/PerInstr.lean ====
section
/-! SUPPORT. The lemmas stated once for each instruction. -/

namespace Sys2Proof.Laws

/-- The five low bits of an encoding are the operand's number (30_encoding.md R91, `Rt[4:0]`), whatever the fixed bits. -/
def OperandField.Statement (i : Instr) : Prop := i.wellFormed = true → rtField (encode i) = i.rt

/-- The operand field of a `SYS` word is its last. -/
theorem rtField_sysWord (op0 : BitVec 2) (op1 : BitVec 3) (crn crm : BitVec 4) (op2 : BitVec 3) (rt : Nat) (h : rt < 32) :
    rtField (sysWord op0 op1 crn crm op2 rt) = rt := by
  have : (sysWord op0 op1 crn crm op2 rt).extractLsb' 0 5 = BitVec.ofNat 5 rt := by
    apply BitVec.eq_of_getLsbD_eq
    intro k hk
    simp only [sysWord, BitVec.getLsbD_extractLsb', BitVec.getLsbD_append, Nat.zero_add, hk, decide_true, Bool.true_and, if_true]
  rw [rtField, this, BitVec.toNat_ofNat]
  omega

theorem OperandField.tlbiAside1 (rt : Nat) : OperandField.Statement (.tlbiAside1 rt) :=
  fun h => rtField_sysWord _ _ _ _ _ rt (by simpa [Instr.wellFormed, rtWellFormed] using h)

theorem OperandField.tlbiAside1is (rt : Nat) : OperandField.Statement (.tlbiAside1is rt) :=
  fun h => rtField_sysWord _ _ _ _ _ rt (by simpa [Instr.wellFormed, rtWellFormed] using h)

theorem OperandField.tlbiAside1os (rt : Nat) : OperandField.Statement (.tlbiAside1os rt) :=
  fun h => rtField_sysWord _ _ _ _ _ rt (by simpa [Instr.wellFormed, rtWellFormed] using h)

theorem OperandField.tlbiAside1nxs (rt : Nat) : OperandField.Statement (.tlbiAside1nxs rt) :=
  fun h => rtField_sysWord _ _ _ _ _ rt (by simpa [Instr.wellFormed, rtWellFormed] using h)

theorem OperandField.tlbiAside1isnxs (rt : Nat) : OperandField.Statement (.tlbiAside1isnxs rt) :=
  fun h => rtField_sysWord _ _ _ _ _ rt (by simpa [Instr.wellFormed, rtWellFormed] using h)

theorem OperandField.tlbiAside1osnxs (rt : Nat) : OperandField.Statement (.tlbiAside1osnxs rt) :=
  fun h => rtField_sysWord _ _ _ _ _ rt (by simpa [Instr.wellFormed, rtWellFormed] using h)

end Sys2Proof.Laws
end

