-- ==== Sys2Proof/Laws/Step.lean ====
section
/-! SUPPORT. What a step can do, once for each act; every claim over all steps is derived from these. -/

namespace Sys2Proof.Machine

/-! ### Drawing the next act changes the agenda or the draw counter alone -/

@[simp] theorem nextEvent_impl (s : State) : (nextEvent s).2.impl = s.impl := by unfold nextEvent; split <;> rfl
@[simp] theorem nextEvent_pes (s : State) : (nextEvent s).2.pes = s.pes := by unfold nextEvent; split <;> rfl
@[simp] theorem nextEvent_pe? (s : State) (p : Nat) : (nextEvent s).2.pe? p = s.pe? p := by simp [State.pe?]
@[simp] theorem nextEvent_tlbs (s : State) : (nextEvent s).2.tlbs = s.tlbs := by unfold nextEvent; split <;> rfl
@[simp] theorem nextEvent_pending (s : State) : (nextEvent s).2.pending = s.pending := by unfold nextEvent; split <;> rfl
@[simp] theorem nextEvent_mem (s : State) : (nextEvent s).2.mem = s.mem := by unfold nextEvent; split <;> rfl
@[simp] theorem nextEvent_cur (s : State) : (nextEvent s).2.cur = s.cur := by unfold nextEvent; split <;> rfl
@[simp] theorem nextEvent_answer (s : State) : (nextEvent s).2.answer = s.answer := by unfold nextEvent; split <;> rfl

/-- A step with an act at the head of the agenda makes that act. -/
theorem step_of_agenda {s : State} {e : Event} {rest : List Event} (h : s.agenda = e :: rest) :
    step s = act (s.withAgenda rest) e := by
  simp [step, nextEvent, h]

/-- The next act of a state with an act at the head of the agenda. -/
theorem nextEvent_of_agenda {s : State} {e : Event} {rest : List Event} (h : s.agenda = e :: rest) :
    nextEvent s = (e, s.withAgenda rest) := by
  simp [nextEvent, h]

/-! ### Each act -/

/-- What a lockdown function can do. -/
theorem lockdownAct_next {s t : State} {op : LockdownOp} (h : lockdownAct s op = .next t) :
    s.impl.lockdownSupported = true ∧
      ((∃ p, t = unlockAll s p) ∨
       (∃ p pe req ks pick, s.pe? p = some pe ∧ req.pe = p ∧ t = prefetch s pe req ks pick) ∨
       (∃ k b, t = lockAt s k b) ∨ (∃ k, t = lockdownRemove s k)) := by
  unfold lockdownAct at h
  split at h
  · refine ⟨‹_›, ?_⟩
    cases op with
    | unlockAll p => cases h; exact .inl ⟨p, rfl⟩
    | prefetch p regime sec ia access ks pick =>
      obtain ⟨pe, hpe, h⟩ := onPe_next h
      cases h; exact .inr (.inl ⟨p, pe, _, ks, pick, hpe, rfl, rfl⟩)
    | lock k => cases h; exact .inr (.inr (.inl ⟨k, true, rfl⟩))
    | unlock k => cases h; exact .inr (.inr (.inl ⟨k, false, rfl⟩))
    | remove k => cases h; exact .inr (.inr (.inr ⟨k, rfl⟩))
  · cases h

/-- A property that every operation of the lockdown mechanism keeps is kept by a sequence of them. -/
theorem lockdownActs_induct {P : State → Prop} (hP : ∀ s t op, P s → lockdownAct s op = .next t → P t) (ops : List LockdownOp) :
    ∀ s t : State, P s → lockdownActs s ops = .next t → P t := by
  induction ops with
  | nil => intro s t h hs; cases hs; exact h
  | cons op ops ih =>
    intro s t h hs
    simp only [lockdownActs] at hs
    split at hs
    · exact ih _ _ (hP _ _ _ h ‹_›) hs
    · cases hs
    · cases hs

/-- What a lockdown exception can do. -/
theorem lockdownException_next {s t : State} {p : Nat} {pe : Pe} (h : lockdownException s p pe = .next t) :
    t = raise s (lockdownFault p s.impl.lockdownRoute) := by
  unfold lockdownException at h
  split at h
  · split at h
    · cases h; rfl
    · cases h
  · cases h

/-- What a context change can do. -/
theorem ctxAct_next {s t : State} {p : Nat} {pe : Pe} {c : CtxChange} (h : ctxAct s p pe c = .next t) :
    ctxPossible s.impl c = true ∧ t = s.withPe p (ctxChange pe c) := by
  unfold ctxAct at h
  split at h
  · cases h; exact ⟨‹_›, rfl⟩
  · cases h

/-- What an act can do, where it answers a next state. -/
def ActNext (s t : State) : Event → Prop
  | .instr p w =>
    (∃ i, decode w = .ok i ∧ exec i (s.withCur p) = .next t) ∨
    (decode w = .error .implementationDefined ∧ s.impl.lockdownSupported = true
      ∧ ∃ pe ops, s.pe? p = some pe ∧ lockdownActs (s.withCur p) ops = .next t)
  | .lookup p ia access ch => ∃ pe, s.pe? p = some pe ∧ t = lookup s pe (requestOf p pe ia access) ch
  | .fill p regime sec ia access plan =>
    ∃ pe, s.pe? p = some pe ∧ t = speculativeFill s pe { pe := p, regime := regime, sec := sec, ia := ia, access := access } plan
  | .evict k => t = evict s k
  | .complete k fates => t = complete s k fates
  | .sync p fates => ∃ pe, s.pe? p = some pe ∧ t = sync s p fates
  | .ctx p c => ∃ pe, s.pe? p = some pe ∧ ctxPossible s.impl c = true ∧ t = s.withPe p (ctxChange pe c)
  | .xreg p k v => ∃ pe, s.pe? p = some pe ∧ t = s.withPe p (xWrite pe k v)
  | .memWrite c a n v => secImplemented s.impl c = true ∧ t = s.withMem (spaceWrite s.impl.byteOrder s.mem c a n v)
  | .reset p el draw => ∃ pe, s.pe? p = some pe ∧ resetPossible s.impl el draw = true ∧ t = resetAct s p pe el draw
  | .invalidationRoutine p fates => ∃ pe, s.pe? p = some pe ∧ t = invalidationRoutine s p fates
  | .lockdown op => lockdownAct s op = .next t
  | .lockdownException p => ∃ pe, s.pe? p = some pe ∧ t = raise s (lockdownFault p s.impl.lockdownRoute)

/-- Every act that answers a next state does what `ActNext` says. -/
theorem act_next {s t : State} {ev : Event} (h : act s ev = .next t) : ActNext s t ev := by
  cases ev with
  | instr p w =>
    simp only [act, runWord] at h
    split at h
    · exact .inl ⟨_, ‹_›, h⟩
    · next r hr =>
      cases r with
      | implementationDefined =>
        simp only [rejectWord] at h
        split at h
        · obtain ⟨pe, hpe, h⟩ := onPe_next h
          split at h
          · exact .inr ⟨hr, by simpa using ‹_›, pe, _, hpe, h⟩
          · cases h
        · cases h
      | otherTlbMaintenance => cases h
      | notTlbInstruction => cases h
  | lookup p ia access ch => obtain ⟨pe, hpe, h⟩ := onPe_next h; cases h; exact ⟨pe, hpe, rfl⟩
  | fill p regime sec ia access plan => obtain ⟨pe, hpe, h⟩ := onPe_next h; cases h; exact ⟨pe, hpe, rfl⟩
  | evict k => cases h; rfl
  | complete k fates => cases h; rfl
  | sync p fates => obtain ⟨pe, hpe, h⟩ := onPe_next h; cases h; exact ⟨pe, hpe, rfl⟩
  | ctx p c => obtain ⟨pe, hpe, h⟩ := onPe_next h; exact ⟨pe, hpe, ctxAct_next h⟩
  | xreg p k v => obtain ⟨pe, hpe, h⟩ := onPe_next h; cases h; exact ⟨pe, hpe, rfl⟩
  | memWrite c a n v =>
    simp only [act, perform] at h
    split at h
    · cases h; exact ⟨‹_›, rfl⟩
    · cases h
  | reset p el draw =>
    obtain ⟨pe, hpe, h⟩ := onPe_next h
    split at h
    · cases h; exact ⟨pe, hpe, ‹_›, rfl⟩
    · cases h
  | invalidationRoutine p fates => obtain ⟨pe, hpe, h⟩ := onPe_next h; cases h; exact ⟨pe, hpe, rfl⟩
  | lockdown op => exact h
  | lockdownException p => obtain ⟨pe, hpe, h⟩ := onPe_next h; exact ⟨pe, hpe, lockdownException_next h⟩

/-- `SYNC` changes `TLBS` and `PENDING` alone. -/
theorem sync_eq (s : State) (p : Nat) (fates : List (List LockedFate)) :
    sync s p fates = (s.withTlbs (completeIssuer p s.pending fates s).tlbs).withPending (s.pending.filter fun r => r.issuer != p) :=
  congrArg (fun t : State => t.withPending (s.pending.filter fun r => r.issuer != p)) (completeIssuer_eq p s.pending fates s)

end Sys2Proof.Machine
end

