-- ==== Sys2Proof/Tests/Slice0.lean ====
section
/-! SUPPORT. Tests, each with its source in the spec, and for every obligation with hypotheses a concrete state and operands that meet
them. "V 2.5 Q1" is vector Q1 of section 2.5 of 95_test_vectors.md. -/

namespace Sys2Proof.Tests

open Sys2Proof.Machine

/-! ### Small states -/

/-- A PE at EL0 in EL1&0 with stage 1 enabled, 16-bit ASIDs, current ASIDs 5 and 6; `X0` names ASID 5, `X1` ASID 0x1234. -/
def pe0 : Pe where
  regs := { el1 := { sctlrM := 1, asSize := 1, lower := { asid := 5 }, upper := { asid := 6 } } }
  ctx := { el := .el0, regime := .el10 }
  x := ((Vector.replicate 31 0).set 0 0x0005_0000_0000_0000#64).set 1 0x1234_0000_0000_0000#64

/-- Two such PEs with these entries, about to do these acts. -/
def sys (es : List TlbEntry) (acts : List Event) : State :=
  { State.reset with pes := [pe0, pe0], tlbs := es, agenda := acts }

/-- The same with other PEs. -/
def sysOf (pes : List Pe) (es : List TlbEntry) (acts : List Event) : State := { sys es acts with pes := pes }

/-- The entry of V 2.5: EL1&0, 0x4000 to 0x4FFF, to 0x80000. -/
def entry (asid : Option Ident) : TlbEntry where
  owner := 0
  regime := .el10
  sec := .nonSecure
  contents := .s1Only
  final := true
  iaBase := 0x4000
  iaSize := 0x1000
  half := some .lower
  asid := asid
  vmid := none
  payload := { oa := 0x80000, attrs := 0, perms := 0 }
  ctl := []
  cnp := false
  locked := false
  source := .unknownReset

/-- The state an outcome goes on with. -/
def nextOf : Host.Outcome State Fault Refusal → Option State
  | .next t => some t
  | .fault _ => none
  | .refused _ => none

/-- The refusal an outcome stops with. -/
def refusalOf : Host.Outcome State Fault Refusal → Option Refusal
  | .next _ => none
  | .fault _ => none
  | .refused r => some r

/-- The state after one step. -/
def after (s : State) : State := (nextOf (step s)).getD s

/-- A walk of a table that has NSTable = 1 and a page with this nG bit, at 0x4000. -/
def pageWalk (nG : Bool) (fault : Option WalkFault) : Walk where
  levels := [
    { stage := .s1, level := 2, final := false, iaBase := 0, iaSize := 0x200000, nG := false, nsTable := true
      descriptor := { oa := 0x7000, attrs := 0, perms := 0 }, generates := none },
    { stage := .s1, level := 3, final := true, iaBase := 0x4000, iaSize := 0x1000, nG := nG, nsTable := false
      descriptor := { oa := 0x80000, attrs := 0, perms := 0 }, generates := fault } ]
  finish := .ok { oa := 0x80000, attrs := 0, perms := 0 }

/-- A walk of one stage 2 page. -/
def stage2Walk : Walk where
  levels := [ { stage := .s2, level := 3, final := true, iaBase := 0x4000, iaSize := 0x1000, nG := true, nsTable := false
                descriptor := { oa := 0x90000, attrs := 0, perms := 0 }, generates := none } ]
  finish := .ok { oa := 0x90000, attrs := 0, perms := 0 }

/-- A walk of one page of each stage. -/
def bothWalk : Walk where
  levels := (pageWalk true none).levels.drop 1 ++ stage2Walk.levels
  finish := .ok { oa := 0x90000, attrs := 0, perms := 0 }

/-- A read of 0x4008 by PE 0 in a regime and Security state. -/
def readOf (regime : Regime) (sec : Sec) : Request := { pe := 0, regime := regime, sec := sec, ia := 0x4008, access := .read }

/-! ### WellFormed: each check refuses an ill-formed term (30_encoding.md R93: five bits of `Rt`) -/

theorem test_illformed_aside1 : (Instr.tlbiAside1 32).wellFormed = false := by decide
theorem test_illformed_aside1is : (Instr.tlbiAside1is 32).wellFormed = false := by decide
theorem test_illformed_aside1os : (Instr.tlbiAside1os 99).wellFormed = false := by decide
theorem test_illformed_aside1nxs : (Instr.tlbiAside1nxs 32).wellFormed = false := by decide
theorem test_illformed_aside1isnxs : (Instr.tlbiAside1isnxs 64).wellFormed = false := by decide
theorem test_illformed_aside1osnxs : (Instr.tlbiAside1osnxs 32).wellFormed = false := by decide
theorem test_wellformed_xzr : (Instr.tlbiAside1 31).wellFormed = true := by decide

/-! ### Decoding: words written bit by bit from the columns of 30_encoding.md R92 (V 2.1) -/

theorem test_decode_aside1 : decode 0b1101010100_0_01_000_1000_0111_010_00001#32 = .ok (.tlbiAside1 1) := by decide
theorem test_decode_aside1is : decode 0b1101010100_0_01_000_1000_0011_010_00001#32 = .ok (.tlbiAside1is 1) := by decide
theorem test_decode_aside1os : decode 0b1101010100_0_01_000_1000_0001_010_00010#32 = .ok (.tlbiAside1os 2) := by decide
theorem test_decode_aside1nxs : decode 0b1101010100_0_01_000_1001_0111_010_00011#32 = .ok (.tlbiAside1nxs 3) := by decide
theorem test_decode_aside1isnxs : decode 0b1101010100_0_01_000_1001_0011_010_11110#32 = .ok (.tlbiAside1isnxs 30) := by decide
theorem test_decode_aside1osnxs : decode 0b1101010100_0_01_000_1001_0001_010_00101#32 = .ok (.tlbiAside1osnxs 5) := by decide
theorem test_encode_aside1osnxs : encode (.tlbiAside1osnxs 5) = 0xD5089145#32 := by decide

/-- V 2.1: the words of the `TLBI` space that are no row. -/
theorem test_decode_other_tlbi : (decode 0xD5088720#32, decode 0xD5088760#32, decode 0xD508871F#32, decode 0xD5088F40#32, decode 0xD50C8740#32)
    = (.error .otherTlbMaintenance, .error .otherTlbMaintenance, .error .otherTlbMaintenance, .error .otherTlbMaintenance,
        .error .otherTlbMaintenance) := by decide

/-- V 2.1: the words outside it. -/
theorem test_decode_not_tlb : (decode 0xD5288740#32, decode 0xD5188740#32, decode 0xD503201F#32, decode 0x00000000#32)
    = (.error .notTlbInstruction, .error .notTlbInstruction, .error .notTlbInstruction, .error .notTlbInstruction) := by decide

/-- The reserved encodings of R94: `op0` 01 or 11 with `CRn` 1011 or 1111. -/
theorem test_decode_implementation_defined : (decode 0b1101010100_0_01_000_1011_0000_000_00000#32,
    decode 0b1101010100_1_11_000_1111_0000_000_00000#32) = (.error .implementationDefined, .error .implementationDefined) := by decide

theorem test_table_word : decodeTableWord 32 0xD5088740 = some (.tlbiAside1 0) := by decide

/-! ### Operands and identifiers -/

/-- V 2.2. -/
theorem test_operand : (asidOperand 0x1234_0000_0000_0000#64, asidOperand 0xFFFF_FFFF_FFFF_FFFF#64, asidOperand 0x0000_FFFF_FFFF_FFFF#64)
    = (0x1234#16, 0xFFFF#16, 0#16) := by decide
theorem test_operand_xzr : asidOperand (xRead pe0 31) = 0 := by decide

/-- V 2.3, the columns EL10, EL20, EL2, EL3 at EL1, EL2 and EL3. -/
theorem test_out_of_context : ([Regime.el10, .el20, .el2, .el3].map (outOfContext .el1), [Regime.el10, .el20, .el2, .el3].map (outOfContext .el2),
    [Regime.el10, .el20, .el2, .el3].map (outOfContext .el3))
    = ([false, false, false, false], [true, false, false, false], [true, true, true, false]) := by decide

/-- V 2.7: 0x0011 and 0x0022 under A2, A1. -/
def selPe (a2 a1 : BitVec 1) : Pe :=
  { regs := { el1 := { a2 := a2, a1 := a1, asSize := 1, lower := { asid := 0x11 }, upper := { asid := 0x22 } } } }

theorem test_asid_one : ([Half.lower, .upper].map (currentAsid {} (selPe 0 0) .el10), [Half.lower, .upper].map (currentAsid {} (selPe 0 1) .el10))
    = ([some 0x11#16, some 0x11#16], [some 0x22#16, some 0x22#16]) := by decide
theorem test_asid_two : ([Half.lower, .upper].map (currentAsid {} (selPe 1 0) .el10), [Half.lower, .upper].map (currentAsid {} (selPe 1 1) .el10))
    = ([some 0x11#16, some 0x22#16], [some 0x11#16, some 0x22#16]) := by decide
theorem test_asid_no_tcr2 : currentAsid { hasTcr2 := false } (selPe 1 1) .el10 .lower = some 0x22#16 := by decide

/-- V 2.9. -/
theorem test_eff_asid : (effAsid .bits16 false true 0xAB07#16, effAsid .bits16 false false 0xAB07#16, effAsid .bits16 true true 0xAB07#16,
    effAsid .bits8 false true 0xAB07#16) = (0xAB07#16, 7#16, 7#16, 7#16) := by decide
theorem test_eff_vmid : (effVmid .bits16 true true 0x0103#16, effVmid .bits16 true false 0x0103#16, effVmid .bits16 false true 0x0103#16,
    effVmid .bits8 true true 0x0103#16) = (0x0103#16, 3#16, 3#16, 3#16) := by decide

/-! ### Tags of new entries (V 2.8) -/

/-- Whether level `i` of a walk of the table of `pageWalk` is non-global, for a lower and for an upper address. -/
def nonGlobals (pe : Pe) (regime : Regime) (sec : Sec) (nG : Bool) (i : Nat) : List Bool :=
  [Half.lower, .upper].flatMap fun half => ((pageWalk nG none).levels[i]?.map (nonGlobal {} pe regime sec half (pageWalk nG none) i)).toList

/-- T1, T2, T4, T5, T6: nG = 1; NSTable = 1 acts in Secure state only. -/
theorem test_non_global : (nonGlobals pe0 .el10 .nonSecure true 1, nonGlobals pe0 .el10 .secure false 1, nonGlobals pe0 .el10 .nonSecure false 1,
    nonGlobals pe0 .el10 .realm false 1) = ([true, true], [true, true], [false, false], [false, false]) := by decide

/-- T3, T7, T14, T16: FNG0 forces the lower range alone; a level other than the final one; one privilege level. -/
theorem test_non_global_forced :
    (nonGlobals { regs := { el1 := { lower := { fng := 1 } } } } .el10 .nonSecure false 1, nonGlobals pe0 .el10 .nonSecure false 0,
      nonGlobals pe0 .el2 .secure true 1) = ([true, false], [true, true], [false, false]) := by decide

/-- `pe0` with EL2 enabled and the current VMID 3 (VS = 0, upper byte set). -/
def vmPe : Pe := { pe0 with regs := { pe0.regs with vmid := 0x0103 }, ctx := { pe0.ctx with el2Enabled := true, stage2Enabled := true } }

/-- T9, T11, T13: the VMID of new entries; stage 2 information carries no ASID, with stage 1 disabled as well. -/
theorem test_vmid_tag : (vmidTag {} vmPe .el10, vmidTag {} pe0 .el10, vmidTag {} vmPe .el20,
    (fillEntry {} { vmPe with regs := { vmPe.regs with el1 := {} } } (readOf .el10 .nonSecure) stage2Walk (.single 0)).map fun e => (e.asid, e.vmid))
    = (some 3#16, none, none, some (none, some 3#16)) := by decide

/-- F2 to F5 of V 2.4: the three faults are never cached, a permission fault may be. -/
theorem test_fill_faults : ([WalkFault.translation, .addressSize, .accessFlag, .permission].map fun f =>
    (fillEntry {} pe0 (readOf .el10 .nonSecure) (pageWalk true (some f)) (.single 1)).isSome) = [false, false, false, true] := by decide

/-- X1: a walk that ends in one of the three faults leaves nothing to cache of the level that raised it, though that level is listed with
no fault; a permission fault does. -/
theorem test_fill_ending_fault : ([WalkFault.translation, .addressSize, .accessFlag, .permission].map fun f => [0, 1].map fun i =>
    (fillEntry {} pe0 (readOf .el10 .nonSecure) { pageWalk true none with finish := .fault f .s1 3 1 } (.single i)).isSome)
    = [[true, false], [true, false], [true, false], [true, true]] := by decide

/-- F6 and F7: stage 1 disabled; an out-of-context regime. -/
theorem test_fill_refused : (fillEntry {} { pe0 with regs := {} } (readOf .el10 .nonSecure) (pageWalk true none) (.single 1),
    fillEntry {} { pe0 with ctx := { pe0.ctx with el := .el2 } } (readOf .el10 .nonSecure) (pageWalk true none) (.single 1))
    = (none, none) := by decide

/-- F9 and F10: an external abort at level index 1, undetermined or not. -/
theorem test_fill_abort : ([false, true].map fun determined => [0, 1].map fun i =>
    (fillEntry {} pe0 (readOf .el10 .nonSecure) { pageWalk true none with finish := .externalAbort .s1 3 determined 1 [] } (.single i)).isSome)
    = [[true, false], [true, true]] := by decide

/-! ### Looking up (V 2.5) -/

/-- The payload address and via-entry a HIT answers. -/
def hitOa (s : State) : Option Nat :=
  match (after s).answer with
  | some (.translated _ { payload := p, ctl := _, via := .hit _ }) => some p.oa
  | _ => none

/-- Q1 and Q2: the first and last addresses covered. -/
theorem test_lookup_hit : (hitOa (sys [entry (some 5)] [.lookup 0 0x4000 .read {}]), hitOa (sys [entry (some 5)] [.lookup 0 0x4FFF .read {}]))
    = (some 0x80000, some 0x80000) := by decide

/-- Q3 to Q8 and Q12: no entry matches. -/
theorem test_lookup_no_match :
    ([(pe0, 0x5000), (pe0, 0x3FFF), ({ pe0 with regs := { pe0.regs with el1 := { pe0.regs.el1 with lower := { asid := 6 } } } }, 0x4008),
      ({ pe0 with ctx := { pe0.ctx with sec := .secure } }, 0x4008), ({ pe0 with ctx := { pe0.ctx with el := .el2, regime := .el2 } }, 0x4008)].map
      fun c => (members (sysOf [c.1] [entry (some 5)] []) c.1 (requestOf 0 c.1 c.2 .read)).length) = [0, 0, 0, 0, 0] := by decide
theorem test_lookup_vmid : ([none, some 3#16, some 4#16].map fun v =>
    entryMatches {} vmPe (readOf .el10 .nonSecure) 0x4008 { entry (some 5) with vmid := v }) = [true, true, false] := by decide

/-- D6: a walk starts from non-final entries that match, the range included. -/
theorem test_walk_entries :
    let e := { entry (some 5) with final := false }
    walkEntries (sys [entry (some 5), e, { e with iaBase := 0x5000 }, { e with asid := some 6 }] []) pe0 (readOf .el10 .nonSecure) [0, 1, 2, 3]
      .root = [e] := by decide

/-- Q13: a conflict: the abort, a member, a mix. -/
theorem test_lookup_conflict : ([ConflictPick.abort, .member 1, .mix 1 0 0 []].map fun c =>
    match (after (sys [entry (some 5), { entry (some 5) with payload := { oa := 0x90000, attrs := 0, perms := 0 } }]
      [.lookup 0 0x4008 .read { first := .multi c }])).answer with
    | some (.faulted (.tlbConflictAbort _)) => some 0
    | some (.translated _ tr) => some tr.payload.oa
    | _ => none) = [some 0, some 0x90000, some 0x90000] := by decide

/-- Two equal entries are two members (Log 42): a conflict, which without the abort answers their payload. -/
theorem test_lookup_equal_entries :
    (match (after (sys [entry none, entry none] [.lookup 0 0x4008 .read { first := .multi (.member 1) }])).answer with
      | some (.translated _ tr) => some (tr.payload.oa, tr.via)
      | _ => none) = some (0x80000, .conflict) := by decide

/-- Q9: `Untranslated`, the entry untouched. -/
theorem test_lookup_untranslated : (after (sysOf [{ pe0 with regs := {} }] [entry (some 5)] [.lookup 0 0x4008 .read {}])).answer
    = some (.untranslated (readOf .el10 .nonSecure)) := by decide

/-! ### Common not private (V 2.10) -/

/-- A PE with `TTBR0_EL1.CnP`, and an entry of PE 0 made under it. -/
def cnpPe (b : BitVec 1) : Pe := { pe0 with regs := { pe0.regs with el1 := { pe0.regs.el1 with lower := { asid := 5, cnp := b } } } }
def cnpEntry : TlbEntry := { entry (some 5) with cnp := true }

/-- N1, N2, N3, N6 and N12. -/
theorem test_cnp : (usable (sysOf [cnpPe 1, cnpPe 1] [] []) 1 cnpEntry, usable (sysOf [cnpPe 1, cnpPe 1] [] []) 1 (entry (some 5)),
    usable (sysOf [cnpPe 1, cnpPe 0] [] []) 1 cnpEntry, usable (sysOf [cnpPe 1, { cnpPe 1 with inner := 1 }] [] []) 1 cnpEntry,
    usable { sysOf [cnpPe 1, cnpPe 1] [] [] with impl := { hasTtcnp := false } } 1 cnpEntry) = (true, false, false, false, false) := by decide

/-- N7: with EL2 enabled both bits are needed. -/
theorem test_cnp_both_stages : (cnpForEntry {} { cnpPe 1 with ctx := vmPe.ctx } .el10 (some .lower) .s1Only,
    cnpForEntry {} { cnpPe 1 with ctx := vmPe.ctx, regs := { (cnpPe 1).regs with vttbrCnp := 1 } } .el10 (some .lower) .s1Only)
    = (false, true) := by decide

/-! ### The instructions (V 2.11): operand ASID 5; the entries a, b, c, g, t, s, h, r, v of PE 0 and p of PE 1 -/

def family : List TlbEntry :=
  [entry (some 5), { entry (some 5) with half := some .upper }, entry (some 6), entry none, { entry (some 5) with final := false }] ++
  [{ entry none with contents := .s2Only, vmid := some 3 }, { entry (some 5) with regime := .el20 }, { entry (some 5) with sec := .secure },
   { entry (some 5) with vmid := some 4 }, { entry (some 5) with vmid := some 3, owner := 1 }]

/-- The state in which PE 0 is given a word. -/
def given (w : Word) : State := sysOf [vmPe, vmPe] family [.instr 0 w]

/-- The records after a step. -/
def targetsAfter (w : Word) : List (List Nat) := (after (given w)).pending.map (·.targets)

/-- I1 to I6: one record each, with the targets of the form; no entry goes at that step. -/
theorem test_issue_targets : ([0xD5088740#32, 0xD5088340#32, 0xD5088140#32, 0xD5089740#32, 0xD5089340#32, 0xD5089140#32].map targetsAfter)
    = [[[0]], [[0, 1]], [[0, 1]], [[0]], [[0, 1]], [[0, 1]]] := by decide
theorem test_issue_keeps : (after (given 0xD5088340#32)).tlbs.length = 10 := by decide

/-- I1: after `SYNC` a, b and t are gone and the others are there; I2: p is gone too. -/
theorem test_sync_local : (after (after (sysOf [vmPe, vmPe] family [.instr 0 0xD5088740#32, .sync 0 []]))).tlbs
    = (family.drop 2).take 2 ++ family.drop 5 := by decide
theorem test_sync_inner : (after (after (sysOf [vmPe, vmPe] family [.instr 0 0xD5088340#32, .sync 0 []]))).tlbs
    = (family.drop 2).take 2 ++ (family.drop 5).take 4 := by decide

/-- Program 4: the operand 0x1234 does not reach the tag 0x0034 made from 0x1234 with AS = 0. -/
theorem test_upper_byte : ((scopeAside1 {} pe0 0x1234).covers (entry (some 0x34)), (scopeAside1 {} pe0 0x34).covers (entry (some 0x34)))
    = (false, true) := by decide

/-- I11. -/
theorem test_not_allowed : refusalOf (step (sysOf [{ pe0 with ctx := { pe0.ctx with tlbiAllowed := false } }] [] [.instr 0 0xD5088740#32]))
    = some .tlbiNotAllowed := by decide

/-- R92: an `OS` word without its feature. -/
theorem test_feature_absent : refusalOf (step { sys [] [.instr 0 0xD5088140#32] with impl := { hasTlbiOs := false } }) = some .featureAbsent := by
  decide

/-- A word given by `withFetchWord` right after reset runs as the next step. -/
theorem test_fetch_word : ((after (State.reset.withFetchWord 32 0xD5088740)).pending.map (·.targets)) = [[0]] := by decide

/-! ### Lockdown, eviction, reset (V 2.6, 2.13) -/

def lockedEntry : TlbEntry := { entry (some 5) with locked := true }
def lockable (es : List TlbEntry) (acts : List Event) : State := { sys es acts with impl := { lockdownSupported := true } }

/-- K1 and Q16. -/
theorem test_evict : ((after (lockable [lockedEntry] [.evict 0])).tlbs.length, (after (sys [entry none] [.evict 0])).tlbs.length) = (1, 0) := by
  decide

/-- K4: removed or kept. -/
theorem test_locked_fate : ([LockedFate.remove, .keep].map fun f =>
    (after (after (lockable [lockedEntry] [.instr 0 0xD5088740#32, .complete 0 [f]]))).tlbs.length) = [0, 1] := by decide

/-- K5, K6, K8. -/
theorem test_unlock_all : (after (lockable [lockedEntry] [.lockdown (.unlockAll 0)])).tlbs = [entry (some 5)] := by decide
theorem test_lockdown_refused : (refusalOf (step (sys [] [.lockdown (.unlockAll 0)])),
    refusalOf (step { lockable [] [.lockdownException 0] with pes := [{ vmPe with ctx := { vmPe.ctx with el := .el2 } }] }))
    = (some .lockdownNotSupported, some .lockdownExceptionUnspecified) := by decide

/-- A reset of PE 0 that draws one entry. -/
def drawn : ResetDraw := { regs := pe0.regs, ctx := { regime := .el3 }, entries := [cnpEntry], locks := [true] }

/-- Z1 and Z5: `unknown`: PE 0's entries as drawn, not shareable; PE 1's unchanged; Z4: `Untranslated` at EL3. -/
theorem test_reset_unknown : (after (sys [entry none, { entry none with owner := 1 }] [.reset 0 .el3 drawn])).tlbs
    = [{ entry none with owner := 1 }, entry (some 5)] := by decide
theorem test_reset_untranslated :
    (after (after (sys [] [.reset 0 .el3 drawn, .lookup 0 0 .read {}]))).answer
      = some (.untranslated { pe := 0, regime := .el3, sec := .nonSecure, ia := 0, access := .read }) := by decide

/-- Program 3: the routine between reset and enable, and the variant without it. -/
theorem test_boot_order : (bootOrder {} 0 .el3 true [.reset 0 .el3 drawn, .invalidationRoutine 0 [], .ctx 0 (.field (.sctlrM .el3) 1)],
    bootOrder {} 0 .el3 true [.reset 0 .el3 drawn, .ctx 0 (.field (.sctlrM .el3) 1)]) = (true, false) := by decide

/-- E2: the field reads back whole although AS = 0. -/
theorem test_direct_read : regRead {} ((pe0.regs.set (.asSize .el1) 0).set (.asid .lower .el1) 0xFF21) (.asid .lower .el1) = 0xFF21#16 := by decide

/-- R62: both byte orders. -/
theorem test_memory_orders : (memRead .little (memWrite .little [] 16 2 0x1234) 16 2, memRead .big (memWrite .big [] 16 2 0x1234) 16 2,
    memByte (memWrite .big [] 16 2 0x1234) 16, memRead .little [] 16 1) = (some 0x1234, some 0x1234, some 0x12#8, none) := by decide

/-- R32: each Security state has its own memory. -/
theorem test_memory_spaces :
    let t := after (sys [] [.memWrite .secure 0x100 1 7])
    (memByte (t.mem.of .secure) 0x100, memByte (t.mem.of .nonSecure) 0x100, memByte (t.mem.of .realm) 0x100) = (some 7#8, none, none) := by decide

/-! ### Witnesses: for each obligation with hypotheses, a state and operands that meet them all -/

theorem witness_DecodeOfEncode : (Instr.tlbiAside1 0).wellFormed = true ∧ (Instr.tlbiAside1osnxs 31).wellFormed = true := by decide

theorem witness_EncodeOfDecode : decode 0xD508935F#32 = .ok (.tlbiAside1isnxs 31) := by decide

/-- Bits 5, 13 and 31 of every encoding, which the words of the next witness do not have. -/
theorem encode_bits (i : Instr) : (encode i).getLsbD 5 = false ∧ (encode i).getLsbD 13 = false ∧ (encode i).getLsbD 31 = true := by
  cases i <;> (simp only [encode, sysWord, BitVec.getLsbD_append]; exact ⟨rfl, rfl, rfl⟩)

/-- A word of each class: elsewhere, in the `TLBI` space, reserved. -/
theorem witness_OtherWordsAreRefused :
    (∀ w ∈ [0x00000000#32, 0xD5088720#32, 0xD508B000#32], ∀ i : Instr, i.wellFormed = true → encode i ≠ w)
      ∧ isImplementationDefined 0xD508B000#32 = true ∧ (sys [] []).impl.lockdownSupported = false
      ∧ isImplementationDefined 0xD5088720#32 = false ∧ isTlbiWord 0xD5088720#32 = true
      ∧ isImplementationDefined 0x00000000#32 = false ∧ isTlbiWord 0x00000000#32 = false
      ∧ (lockable [] [.instr 0 0]).agenda = .instr 0 0 :: [] := by
  refine ⟨fun w hw i _ h => ?_, by decide⟩
  have hb := encode_bits i
  rw [h] at hb
  simp only [List.mem_cons, List.not_mem_nil, or_false] at hw
  rcases hw with rfl | rfl | rfl <;> revert hb <;> decide

theorem witness_StepRunsDecodedInstruction : (given 0xD5088740#32).agenda = .instr 0 0xD5088740#32 :: []
    ∧ decode 0xD5088740#32 = .ok (.tlbiAside1 0) := by decide

/-- For LocalFormsIssueOneRecord, InnerFormsIssueOneRecord and OuterFormsIssueOneRecord, with every feature present. -/
theorem witness_FormsIssueOneRecord : (sys [] []).pe? (sys [] []).cur = some pe0 ∧ pe0.ctx.tlbiAllowed = true
    ∧ (sys [] []).impl.hasTlbiOs = true ∧ (sys [] []).impl.hasXs = true := by decide

theorem witness_IssueRemovesNothing : ∃ t, exec (.tlbiAside1is 1) (sys family []) = .next t := ⟨_, rfl⟩

/-- The last register, the last bit, and two values that differ below bit 48. -/
theorem witness_OperandIsTopSixteenBits : 30 < 31 ∧ 15 < 16
    ∧ (0x0005_0000_0000_0000#64).extractLsb' 48 16 = (0x0005_FFFF_FFFF_FFFF#64).extractLsb' 48 16 := by decide

/-- With both features; the forms that need none are refused where both are absent as well. -/
theorem witness_NotAllowedIsRefused :
    let pe := { pe0 with ctx := { pe0.ctx with tlbiAllowed := false } }
    (sysOf [pe] [] []).pe? (sysOf [pe] [] []).cur = some pe ∧ pe.ctx.tlbiAllowed = false
      ∧ (sysOf [pe] [] []).impl.hasTlbiOs = true ∧ (sysOf [pe] [] []).impl.hasXs = true := by decide

theorem test_not_allowed_without_features :
    exec (.tlbiAside1is 0) { sysOf [{ pe0 with ctx := { pe0.ctx with tlbiAllowed := false } }] [] [] with
      impl := { hasTlbiOs := false, hasXs := false } } = .refused .tlbiNotAllowed := rfl

theorem witness_AbsentFeatureIsRefused :
    let s := { sys [] [] with impl := { hasTlbiOs := false, hasXs := false } }
    s.pe? s.cur = some pe0 ∧ s.impl.hasTlbiOs = false ∧ s.impl.hasXs = false := by decide

/-- The last register that is written, and the one that discards. -/
theorem witness_GeneralRegisterWrite : ∀ k ∈ [30, 31], (sys [] [.xreg 1 k 7]).agenda = .xreg 1 k 7 :: []
    ∧ (sys [] [.xreg 1 k 7]).pe? 1 = some pe0 ∧ k < 32 := by decide

theorem witness_IdentificationFieldsAreConstant : ∃ t, step (sys [] [.ctx 0 (.field .vs 1)]) = .next t := ⟨_, rfl⟩

/-- Each way to an 8-bit ASID, and the 16-bit one. -/
theorem witness_AsidSizeRule : controllingEl .el10 = some .el1 ∧ regBit {} (Pe.regs {}) (.asSize .el1) = false
    ∧ ({ asidBits := .bits8 } : Impl).asidBits = .bits8 ∧ usesV8_32 {} { pe0 with ctx := { v8_32 := [.el10] } } .el10 = true
    ∧ regBit {} pe0.regs (.asSize .el1) = true ∧ ({} : Impl).asidBits = .bits16 ∧ usesV8_32 {} pe0 .el10 = false := by decide

theorem witness_AsidSelectionRule : controllingEl .el10 = some .el1 ∧ ({} : Impl).asidBits = .bits16
    ∧ (∀ pe ∈ [selPe 0 0, selPe 0 1, selPe 1 0], usesV8_32 {} pe .el10 = false ∧ regBit {} pe.regs (.asSize .el1) = true)
    ∧ effBit {} (selPe 1 0) (.a2 .el1) = true ∧ effBit {} (selPe 0 0) (.a2 .el1) = false ∧ regBit {} (selPe 0 0).regs (.a1 .el1) = false
    ∧ effBit {} (selPe 0 1) (.a2 .el1) = false ∧ regBit {} (selPe 0 1).regs (.a1 .el1) = true
    ∧ ({ hasTcr2 := false } : Impl).hasTcr2 = false := by decide

theorem witness_VmidSizeRule : ({} : Impl).vmidBits = .bits16 ∧ El.el2 ∈ ({} : Impl).aarch64Els ∧ vmPe.ctx.el2Aarch64 = true
    ∧ regBit {} { vmPe.regs with vs := 1 } .vs = true ∧ regBit {} vmPe.regs .vs = false := by decide

/-- R206: the 16-bit VMID 0x0103 with EL2 using AArch64; 3 where the implementation or the context has it not. -/
theorem test_vmid_needs_aarch64 :
    let pe := { vmPe with regs := { vmPe.regs with vs := 1 } }
    currentVmid {} pe = 0x0103 ∧ currentVmid { aarch64Els := [.el3] } pe = 3
      ∧ currentVmid {} { pe with ctx := { pe.ctx with el2Aarch64 := false } } = 3 := by decide

/-- A filled entry exists, and software runs with AS = 0. -/
theorem witness_UpperOperandByteMatchesNothing :
    let pe := { pe0 with regs := { el1 := { sctlrM := 1, lower := { asid := 0x1234 } } } }
    (∃ e, fillEntry {} pe (readOf .el10 .nonSecure) (pageWalk true none) (.single 1) = some e)
      ∧ (∀ x, controllingEl (readOf .el10 .nonSecure).regime = some x → regBit {} pe.regs (.asSize x) = false)
      ∧ (0x1234#16).extractLsb' 8 8 ≠ 0#8 := by
  refine ⟨Option.isSome_iff_exists.mp (by decide), fun x => ?_, by decide⟩
  cases x <;> decide

/-- FNG0 and FNG1 are both 1, so that of either range is; and an implementation without `TCR2_ELx`. -/
theorem witness_ForcedNonGlobal :
    let pe := { pe0 with regs := { el1 := { sctlrM := 1, lower := { fng := 1 }, upper := { fng := 1 } } } }
    controllingEl (readOf .el10 .nonSecure).regime = some .el1
      ∧ effBit {} pe (.fng (Config.halfOf (readOf .el10 .nonSecure).regime (readOf .el10 .nonSecure).ia) .el1) = true
      ∧ (∃ e, fillEntry {} pe (readOf .el10 .nonSecure) (pageWalk false none) (.single 1) = some e ∧ e.contents.holdsS1 = true)
      ∧ ({ hasTcr2 := false } : Impl).hasTcr2 = false := by
  refine ⟨rfl, ?_, ⟨_, rfl, rfl⟩, rfl⟩
  cases Config.halfOf (readOf .el10 .nonSecure).regime (readOf .el10 .nonSecure).ia <;> decide

theorem witness_NsTableActsInSecureStateOnly : controllingEl .el20 = some .el2
    ∧ (∃ j m, j < 1 ∧ (pageWalk false none).levels[j]? = some m ∧ m.stage = .s1 ∧ m.nsTable = true) ∧ Sec.realm ≠ Sec.secure :=
  ⟨rfl, ⟨0, _, by decide, rfl, rfl, rfl⟩, by decide⟩

/-- A combined entry, where its range, which is free, is not empty. -/
theorem combined_entry {l1 l2 : WalkLevel} (h1 : bothWalk.levels[0]? = some l1) (h2 : bothWalk.levels[1]? = some l2)
    (hs : (Config.combinedRange l1 l2).2 ≠ 0) :
    fillEntry {} vmPe (readOf .el10 .nonSecure) bothWalk (.combined 0 1)
      = some (combinedEntry {} vmPe (readOf .el10 .nonSecure) bothWalk 0 1 l1 l2) := by
  cases h1; cases h2; exact if_neg hs

/-- A stage 2 level; a level in a regime of one privilege level; stage 1 levels, tagged and not; and, where its free range is not empty,
a combined entry, tagged. -/
theorem witness_AsidTagOfNewEntry :
    (∃ l e, stage2Walk.levels[0]? = some l ∧ fillEntry {} vmPe (readOf .el10 .nonSecure) stage2Walk (.single 0) = some e ∧ l.stage = .s2)
      ∧ (∃ e, fillEntry {} { regs := { el2 := { sctlrM := 1 } }, ctx := { el := .el2 } } (readOf .el2 .nonSecure) (pageWalk true none)
          (.single 1) = some e ∧ twoPriv .el2 = false)
      ∧ (∀ nG ∈ [true, false], ∃ l e, (pageWalk nG none).levels[1]? = some l
        ∧ fillEntry {} pe0 (readOf .el10 .nonSecure) (pageWalk nG none) (.single 1) = some e ∧ l.stage = .s1 ∧ l.final = true ∧ l.nG = nG)
      ∧ controllingEl .el10 = some .el1
      ∧ ∃ l1 l2, bothWalk.levels[0]? = some l1 ∧ bothWalk.levels[1]? = some l2 ∧ l1.nG = true
        ∧ ((Config.combinedRange l1 l2).2 ≠ 0 → ∃ e, fillEntry {} vmPe (readOf .el10 .nonSecure) bothWalk (.combined 0 1) = some e) :=
  ⟨⟨_, _, rfl, rfl, rfl⟩, ⟨_, rfl, rfl⟩, fun _ _ => ⟨_, _, rfl, rfl, rfl, rfl, rfl⟩, rfl,
    ⟨_, _, rfl, rfl, rfl, fun h => ⟨_, combined_entry rfl rfl h⟩⟩⟩

/-- EL1&0 with EL2 enabled and not, and another regime. -/
theorem witness_VmidTagOfNewEntry :
    (∃ e, fillEntry {} vmPe (readOf .el10 .nonSecure) (pageWalk true none) (.single 1) = some e)
      ∧ (∃ e, fillEntry {} pe0 (readOf .el10 .nonSecure) (pageWalk true none) (.single 1) = some e)
      ∧ ∃ e, fillEntry {} { regs := { el2 := { sctlrM := 1 } }, ctx := { el := .el2 } } (readOf .el2 .nonSecure) (pageWalk true none) (.single 1)
          = some e :=
  ⟨⟨_, rfl⟩, ⟨_, rfl⟩, ⟨_, rfl⟩⟩

/-- An absent field; a present one with no given value, and with two, of which the first counts, cut to one bit. -/
theorem witness_AbsentFeaturesReadZero : fieldPresent { hasTcr2 := false } (.a2 .el1) = false ∧ fieldPresent {} (.a2 .el1) = true
    ∧ eff {} { regs := { el1 := { a2 := 1 } } } (.a2 .el1) = 1
    ∧ eff {} { regs := { el1 := { a2 := 1 } }, ctx := { eff := [(.a2 .el1, 2), (.a2 .el1, 1)] } } (.a2 .el1) = 0 := by decide

/-- A fill by a walk no lookup asked for; entries of walks that end well, in a permission fault at the level itself, and in aborts. -/
theorem witness_FillsOnlyWhatIsPermitted :
    (let act : Event := .fill 0 .el10 .secure 0x4008 .fetch { fills := [.single 0, .single 1] }
     (sys [] [act]).agenda = act :: [] ∧ (sys [] [act]).pe? 0 = some pe0)
      ∧ ∀ f ∈ [WalkEnd.ok { oa := 0, attrs := 0, perms := 0 }, .fault .permission .s1 3 1, .fault .translation .s1 4 2,
          .externalAbort .s1 3 true 1 [], .externalAbort .s1 4 false 2 [0]],
        (fillEntry {} pe0 (readOf .el10 .nonSecure) { pageWalk true none with finish := f } (.single 1)).isSome = true := by decide

/-- A combined entry, where its free range is not empty. -/
theorem witness_FillsOnlyWhatIsPermitted_combined : ∃ l1 l2, bothWalk.levels[0]? = some l1 ∧ bothWalk.levels[1]? = some l2
    ∧ ((Config.combinedRange l1 l2).2 ≠ 0 → ∃ e, fillEntry {} vmPe (readOf .el10 .nonSecure) bothWalk (.combined 0 1) = some e) :=
  ⟨_, _, rfl, rfl, fun h => ⟨_, combined_entry rfl rfl h⟩⟩

/-- A permitted level of a walk that ends well, in a later fault, and in a later abort; and a permitted level of each stage. Whether a
combined range is empty is free. -/
theorem witness_PermittedFillsAreAdmitted :
    (∀ f ∈ [WalkEnd.ok { oa := 0, attrs := 0, perms := 0 }, .fault .translation .s1 4 2, .externalAbort .s1 4 false 2 [0]],
      ∃ l, fillPermitted {} pe0 .el10 { pageWalk true none with finish := f } 1 l ∧ l.iaSize ≠ 0)
      ∧ ∃ l1 l2, fillPermitted {} vmPe .el10 bothWalk 0 l1 ∧ fillPermitted {} vmPe .el10 bothWalk 1 l2 ∧ l1.stage = .s1 ∧ l2.stage = .s2 := by
  refine ⟨fun f hf => ?_, ⟨_, _, fillableLevel_iff.mp rfl, fillableLevel_iff.mp rfl, rfl, rfl⟩⟩
  simp only [List.mem_cons, List.not_mem_nil, or_false] at hf
  rcases hf with rfl | rfl | rfl <;> exact ⟨_, fillableLevel_iff.mp rfl, by decide⟩

/-- A fill for EL1&0 at EL2, and a lookup for EL2 at EL3. -/
theorem witness_OutOfContextRegimesAreNotFilled :
    (∃ t, step (sysOf [{ pe0 with ctx := { el := .el2 } }] [] [.fill 0 .el10 .nonSecure 0x4008 .read { fills := [.single 0] }]) = .next t)
      ∧ outOfContext .el2 .el10 = true
      ∧ (∃ t, step (sysOf [{ pe0 with ctx := { el := .el3, regime := .el2 } }] [] [.lookup 0 0x4008 .read { first := .miss {} }]) = .next t)
      ∧ outOfContext .el3 .el2 = true ∧ ({} : Impl).fillOutOfContext = false :=
  ⟨⟨_, rfl⟩, by decide, ⟨_, rfl⟩, by decide, by decide⟩

/-- A MISS whose walk may be cached, and a HIT of an `S1Only` entry with a MISS of stage 2. -/
theorem witness_LookupFrame :
    (∀ ch ∈ [({ first := .miss { fills := [.single 1] } } : LookupChoice), { second := .miss { fills := [.single 0] } }],
      (sysOf [vmPe] [entry (some 5)] [.lookup 0 0x4008 .write ch]).agenda = .lookup 0 0x4008 .write ch :: [])
      ∧ (sysOf [vmPe] [entry (some 5)] []).pe? 0 = some vmPe
      ∧ hitMembers (sysOf [vmPe] [entry (some 5)] []) vmPe (requestOf 0 vmPe 0x4008 .write) = [entry (some 5)]
      ∧ (entry (some 5)).contents = .s1Only := by decide

/-- An `S2Only` entry whose last address is this one, with this output address. -/
def stage2Entry (last out : Nat) : TlbEntry :=
  { entry none with contents := .s2Only, iaBase := 0, iaSize := last + 1, half := none, payload := { oa := out, attrs := 0, perms := 0 } }

/-- The output address, free, that `entry (some 5)` gives 0x4008. -/
def freeOa : Nat := outputFor (entry (some 5)) 0x4008

/-- `vmPe`, for which stage 2 applies, about to look 0x4008 up, with an `S1Only` entry for it and `S2Only` entries for the output. -/
def twoStage (outs : List Nat) (second : StageChoice) : State :=
  sysOf [vmPe] (entry (some 5) :: outs.map (stage2Entry freeOa)) [.lookup 0 0x4008 .read { second := second }]

/-- Those entries are the ones that match the output. -/
theorem twoStage_oaMembers (outs : List Nat) (second : StageChoice) :
    oaMembers ((twoStage outs second).withAgenda []) vmPe (requestOf 0 vmPe 0x4008 .read) freeOa = outs.map (stage2Entry freeOa) := by
  have h : ∀ o, (fun e : TlbEntry => e.final && !e.contents.holdsS1 && usable ((twoStage outs second).withAgenda []) 0 e
      && entryMatches {} vmPe (requestOf 0 vmPe 0x4008 .read) freeOa e) (stage2Entry freeOa o) = true := by
    intro o
    have hi : inputMatches (stage2Entry freeOa o) freeOa = true := by simp [inputMatches, stage2Entry]
    have hc : (true && usable ((twoStage outs second).withAgenda []) 0 (stage2Entry freeOa o)
      && contextMatches {} vmPe (requestOf 0 vmPe 0x4008 .read) (stage2Entry freeOa o)) = true := rfl
    simp only [Bool.and_eq_true] at hc
    simp only [entryMatches, hi, hc.1.2, hc.2]; rfl
  exact (List.filter_cons_of_neg Bool.false_ne_true).trans
    (List.filter_eq_self.mpr fun e he => by obtain ⟨o, -, rfl⟩ := List.mem_map.mp he; exact h o)

/-- What the step of `twoStage` answers. -/
theorem twoStage_answer (outs : List Nat) (second : StageChoice) : (after (twoStage outs second)).answer
    = (lookupStage2 ((twoStage outs second).withAgenda []) vmPe (requestOf 0 vmPe 0x4008 .read) (entry (some 5)) second).answer := by
  have h : vaMembers ((twoStage outs second).withAgenda []) vmPe (requestOf 0 vmPe 0x4008 .read) = [entry (some 5)] := by
    refine congrArg (entry (some 5) :: ·) (List.filter_eq_nil_iff.mpr fun e he => ?_)
    obtain ⟨o, -, rfl⟩ := List.mem_map.mp he
    exact Bool.false_ne_true
  have h' : lookupChosen ((twoStage outs second).withAgenda []) vmPe (requestOf 0 vmPe 0x4008 .read) { second := second }
      = lookupStage2 ((twoStage outs second).withAgenda []) vmPe (requestOf 0 vmPe 0x4008 .read) (entry (some 5)) second := by
    have h2 : hitMembers ((twoStage outs second).withAgenda []) vmPe (requestOf 0 vmPe 0x4008 .read) = [entry (some 5)] := h
    simp only [lookupChosen, h2]; rfl
  exact congrArg State.answer h'

/-- An entry a walk uses, and an answer by a HIT, by a HIT of each stage, and by a draw from several, of either stage. An answer by a
stage 2 walk after a HIT cannot be exhibited, since no walk can be evaluated. -/
theorem witness_HitObeysTags :
    { entry (some 5) with final := false } ∈ walkEntries (sys [{ entry (some 5) with final := false }] []) pe0 (readOf .el10 .nonSecure) [0] .root
      ∧ (∃ tr e, (after (sys [entry (some 5)] [.lookup 0 0x4008 .read {}])).answer = some (.translated (requestOf 0 pe0 0x4008 .read) tr)
        ∧ tr.via = .hit e)
      ∧ (∃ tr e e', (after (twoStage [1] .hit)).answer = some (.translated (requestOf 0 vmPe 0x4008 .read) tr) ∧ tr.via = .pair e e')
      ∧ (∃ tr, (after (sys [entry (some 5), entry none] [.lookup 0 0x4008 .read { first := .multi (.mix 0 1 0 []) }])).answer
          = some (.translated (requestOf 0 pe0 0x4008 .read) tr) ∧ tr.via = .conflict)
      ∧ ∃ tr e, (after (twoStage [1, 2] (.multi (.member 1)))).answer = some (.translated (requestOf 0 vmPe 0x4008 .read) tr)
          ∧ tr.via = .conflictAfter e := by
  refine ⟨by decide, ⟨_, _, rfl, rfl⟩, ?_, ⟨_, rfl, rfl⟩, ?_⟩
  · have h := twoStage_oaMembers [1] .hit
    refine ⟨{ payload := Config.combinedPayload (entry (some 5)).payload (stage2Entry freeOa 1).payload, ctl := []
              via := .pair (entry (some 5)) (stage2Entry freeOa 1) }, _, _, (twoStage_answer _ _).trans ?_, rfl⟩
    have h' : oaMembers ((twoStage [1] .hit).withAgenda []) vmPe (requestOf 0 vmPe 0x4008 .read)
      (outputFor (entry (some 5)) (requestOf 0 vmPe 0x4008 .read).ia) = [stage2Entry freeOa 1] := h
    simp only [lookupStage2, h']; rfl
  · have h := twoStage_oaMembers [1, 2] (.multi (.member 1))
    refine ⟨{ payload := Config.combinedPayload (entry (some 5)).payload (stage2Entry freeOa 2).payload, ctl := []
              via := .conflictAfter (entry (some 5)) }, _, (twoStage_answer _ _).trans ?_, rfl⟩
    have h' : oaMembers ((twoStage [1, 2] (.multi (.member 1))).withAgenda []) vmPe (requestOf 0 vmPe 0x4008 .read)
      (outputFor (entry (some 5)) (requestOf 0 vmPe 0x4008 .read).ia) = [stage2Entry freeOa 1, stage2Entry freeOa 2] := h
    simp only [lookupStage2, h']; rfl

/-- With stage 1 enabled and stage 2 applying; and with stage 1 disabled. -/
theorem witness_MembersAreExact : stageEnabled {} vmPe .el10 .s1 = true ∧ stage2Applies {} vmPe .el10 = true
    ∧ stageEnabled {} { vmPe with regs := {} } .el10 .s1 = false
    ∧ entry (some 5) ∈ vaMembers (sysOf [vmPe] [entry (some 5)] []) vmPe (requestOf 0 vmPe 0x4FFF .read)
    ∧ (entry (some 5)).contents = .s1Only := by decide

/-- A HIT where stage 2 does not apply, and where it does; a MISS with each stage disabled. -/
theorem witness_HitAndMissAdmitted : (sys [entry (some 5)] [.lookup 0 0x4FFF .read { first := .hit }]).pe? 0 = some pe0
    ∧ stageEnabled {} pe0 pe0.ctx.regime .s1 = true ∧ stage2Applies {} pe0 pe0.ctx.regime = false
    ∧ vaMembers (sys [entry (some 5)] []) pe0 (requestOf 0 pe0 0x4FFF .read) = [entry (some 5)]
    ∧ stageEnabled {} vmPe vmPe.ctx.regime .s1 = true ∧ stage2Applies {} vmPe vmPe.ctx.regime = true
    ∧ (let e := { entry (some 5) with contents := .s1s2 }
       vaMembers (sysOf [vmPe] [e] []) vmPe (requestOf 0 vmPe 0x4000 .read) = [e])
    ∧ (let pe := { vmPe with regs := {} }
       stageEnabled {} pe pe.ctx.regime .s1 = false ∧ stage2Applies {} pe pe.ctx.regime = true)
    ∧ (sys [] [.lookup 0 0x4FFF .read { first := .miss { fills := [.single 1] } }]).agenda
        = .lookup 0 0x4FFF .read { first := .miss { fills := [.single 1] } } :: [] := by decide

/-- Stage 1 disabled, with an `S2Only` entry for the free stage 1 output; and a HIT of an `S1Only` entry followed by one match, by two,
and by a MISS. -/
theorem witness_TwoStageLookup :
    (let pe := { vmPe with regs := {} }
     let e := stage2Entry (Config.disabledStage1Oa (requestOf 0 pe 0x4008 .read)) 1
     stage2Applies {} pe pe.ctx.regime = true ∧ stageEnabled {} pe pe.ctx.regime .s1 = false
      ∧ oaMembers (sysOf [pe] [e] []) pe (requestOf 0 pe 0x4008 .read) (Config.disabledStage1Oa (requestOf 0 pe 0x4008 .read)) = [e])
    ∧ stage2Applies {} vmPe vmPe.ctx.regime = true ∧ stageEnabled {} vmPe vmPe.ctx.regime .s1 = true
    ∧ (entry (some 5)).contents = .s1Only
    ∧ vaMembers (sysOf [vmPe] [entry (some 5)] []) vmPe (requestOf 0 vmPe 0x4008 .read) = [entry (some 5)]
    ∧ (∀ outs ∈ [[1], [1, 2]], ∀ second, oaMembers ((twoStage outs second).withAgenda []) vmPe (requestOf 0 vmPe 0x4008 .read) freeOa
        = outs.map (stage2Entry freeOa))
    ∧ (twoStage [] (.miss { fills := [.single 0] })).agenda = .lookup 0 0x4008 .read { second := .miss { fills := [.single 0] } } :: [] := by
  refine ⟨⟨by decide, by decide, ?_⟩, by decide, by decide, rfl, by decide, fun outs _ second => twoStage_oaMembers outs second, rfl⟩
  refine List.filter_eq_self.mpr fun e he => ?_
  obtain rfl := List.mem_singleton.mp he
  generalize hoa : Config.disabledStage1Oa (requestOf 0 { vmPe with regs := {} } 0x4008 .read) = oa
  have hi : inputMatches (stage2Entry oa 1) oa = true := by simp [inputMatches, stage2Entry]
  simp only [entryMatches, hi, Bool.and_true]; rfl

theorem witness_DisabledStagesUntranslated :
    let pe := { vmPe with regs := {}, ctx := { vmPe.ctx with stage2Enabled := false } }
    (sysOf [pe] family [.lookup 0 0 .read {}]).pe? 0 = some pe ∧ stageEnabled {} pe pe.ctx.regime .s1 = false
      ∧ stage2Applies {} pe pe.ctx.regime = false := by decide

theorem witness_DisabledStageMatchesNothing : stageEnabled {} pe0 .el10 .s1 = true ∧ stage2Applies {} vmPe .el10 = true
    ∧ (Regs.get {} (.sctlrM (sctlrOf .el10))) = 0 ∧ (entry none).contents.holdsS1 = true
    ∧ pe0.ctx.stage2Enabled = false ∧ (stage2Entry 1 1).contents.holdsS2 = true := by decide

/-- Two entries that match, for the abort and for another outcome. -/
theorem witness_ConflictOutcomes : ∀ c ∈ [ConflictPick.abort, .mix 0 1 0 []],
    (sys [entry (some 5), entry none] [.lookup 0 0x4008 .read { first := .multi c }]).agenda
        = .lookup 0 0x4008 .read { first := .multi c, second := .hit } :: []
      ∧ stageEnabled {} pe0 pe0.ctx.regime .s1 = true
      ∧ 2 ≤ (members (sys [entry (some 5), entry none] [.lookup 0 0x4008 .read { first := .multi c }]) pe0 (requestOf 0 pe0 0x4008 .read)).length := by
  decide

theorem witness_ConflictNeedsTwoMatches :
    let s := sys [entry (some 5), entry (some 6)] [.lookup 0 0x4008 .read { first := .multi .abort }]
    s.pe? 0 = some pe0 ∧ conflictFree s pe0 (requestOf 0 pe0 0x4008 .read) ∧ ∃ t, step s = .next t :=
  ⟨rfl, by unfold conflictFree; decide, ⟨_, rfl⟩⟩

/-- A field; an Exception level and a Security state that are implemented, and ones that are not. -/
theorem witness_RegisterWriteKeepsTheTlb :
    (sys family [.ctx 1 (.field (.asid .upper .el1) 0xFFFF)]).agenda = .ctx 1 (.field (.asid .upper .el1) 0xFFFF) :: []
      ∧ (sys family [.ctx 1 (.el .el3)]).agenda = .ctx 1 (.el .el3) :: [] ∧ (sys family []).pe? 1 = some pe0
      ∧ elImplemented {} .el3 = true ∧ secImplemented {} .realm = true
      ∧ elImplemented { hasEl2 := false } .el2 = false ∧ secImplemented { securityStates := [.nonSecure] } .secure = false := by decide

/-- No byte and eight, in an implemented Security state; and one that is not. -/
theorem witness_MemoryWriteKeepsTheTlb :
    (∀ n ∈ [0, 8], (sys family [.memWrite .realm 0x100 n 0xABCD]).agenda = .memWrite .realm 0x100 n 0xABCD :: []
      ∧ secImplemented {} .realm = true ∧ Spaces.wf (sys family [.memWrite .realm 0x100 n 0xABCD]).mem = true)
    ∧ secImplemented { securityStates := [.nonSecure] } .secure = false := by decide

theorem witness_EvictionTakesOneUnlockedEntry : ∀ e ∈ [entry none, lockedEntry], (sys [entry (some 6), e] [.evict 1]).agenda = .evict 1 :: []
    ∧ (sys [entry (some 6), e] [.evict 1]).tlbs[1]? = some e := by decide

/-- A record of PE 0 for ASID 5. -/
def record : Pending := { issuer := 0, targets := [0, 1], scope := scopeAside1 {} pe0 5 }
def waiting (acts : List Event) : State := { sys [entry (some 5), entry none] acts with pending := [record] }

theorem witness_CompletionRemovesTheScope : (waiting [.complete 0 [.keep]]).agenda = .complete 0 [.keep] :: []
    ∧ (waiting [.complete 0 [.keep]]).pending[0]? = some record := by decide

/-- An issuer with a record, whose scope covers an entry, and one without. -/
theorem witness_SyncWaitsForItsRecords : ∀ p ∈ [0, 1], (waiting [.sync p []]).agenda = .sync p [] :: [] ∧ (waiting [.sync p []]).pe? p = some pe0
    ∧ (record.issuer = 0 ∧ record.scope.covers (entry (some 5)) = true) := by
  decide

/-- The targets of the word are both PEs. -/
theorem witness_AsidIsGoneAfterTlbiAndSync :
    let s := sysOf [vmPe, vmPe] family [.instr 0 0xD5089340#32, .sync 0 []]
    s.pe? 0 = some vmPe ∧ decode 0xD5089340#32 = .ok (.tlbiAside1isnxs 0) ∧ vmPe.ctx.tlbiAllowed = true ∧ s.impl.hasTlbiOs = true
      ∧ s.impl.hasXs = true ∧ targetsInner s 0 = [0, 1] := by decide

/-- A form that needs no feature, where both are absent. -/
theorem witness_AsidIsGoneAfterTlbiAndSync_local :
    let s := { sysOf [vmPe, vmPe] family [.instr 0 0xD5088740#32, .sync 0 []] with impl := { hasTlbiOs := false, hasXs := false } }
    s.pe? 0 = some vmPe ∧ decode 0xD5088740#32 = .ok (.tlbiAside1 0) ∧ vmPe.ctx.tlbiAllowed = true := by decide

/-- A locked entry alone in the scope of a record, with each fate; the update is for its last address. -/
theorem witness_LockedEntryFates :
    ∀ f ∈ [LockedFate.remove, .keep, .update { ia := 0x4FFF, access := .read, entries := [], pick := .single 1, removeOtherwise := true }],
      let s := { lockable [entry (some 6), lockedEntry, entry none] [.complete 0 [f]] with pending := [record] }
      s.agenda = .complete 0 [f] :: [] ∧ s.pending[0]? = some record ∧ s.tlbs = [entry (some 6)] ++ lockedEntry :: [entry none]
        ∧ s.pe? lockedEntry.owner = some pe0 ∧ lockedEntry.locked = true ∧ s.impl.lockdownSupported = true
        ∧ inScope s record lockedEntry = true ∧ ∀ x ∈ [entry (some 6)] ++ [entry none], inScope s record x = false := by decide

/-- Entries of each kind of contents that PE 1 shares, one it does not, and one of its own. -/
def sharePe : Pe := { cnpPe 1 with regs := { (cnpPe 1).regs with vttbrCnp := 1 }, ctx := vmPe.ctx }
theorem witness_SharingNeedsCnpOfBothStages :
    (sysOf [sharePe, sharePe] [] []).pe? 1 = some sharePe
      ∧ (∀ e ∈ [cnpEntry, { cnpEntry with contents := .s2Only }, { cnpEntry with contents := .s1s2 }],
        usable (sysOf [sharePe, sharePe] [] []) 1 e = true ∧ e.owner ≠ 1)
      ∧ usable (sysOf [sharePe, sharePe] [] []) 1 (entry none) = false ∧ ({ entry none with owner := 1 } : TlbEntry).owner = 1 := by decide

/-- A PE whose base registers of both ranges, and of stage 2, have CnP = 1. -/
def allCnpPe : Pe := { sharePe with regs := { sharePe.regs with el1 := { sctlrM := 1, lower := { cnp := 1 }, upper := { cnp := 1 } } } }
theorem allCnpPe_shares (half : Half) : cnpForEntry {} allCnpPe .el10 (some half) .s1Only = true := by cases half <;> decide

/-- Stage 2 information alone; and stage 1 information. -/
theorem witness_FilledCnpNeedsBothStages :
    (∃ e, fillEntry {} sharePe (readOf .el10 .nonSecure) stage2Walk (.single 0) = some e ∧ e.cnp = true ∧ e.contents = .s2Only)
      ∧ ∃ e, fillEntry {} allCnpPe (readOf .el10 .nonSecure) (pageWalk true none) (.single 1) = some e ∧ e.cnp = true
        ∧ e.contents ≠ .s2Only :=
  ⟨⟨_, rfl, rfl, rfl⟩, _, rfl, allCnpPe_shares (Config.halfOf .el10 0x4008), by decide⟩

/-- Two PEs that differ in their general registers alone. -/
theorem witness_AgreeingPesFillAlike : sharingAgrees {} vmPe { vmPe with x := Vector.replicate 31 0 } .el10
    ∧ ∃ e, fillEntry {} vmPe (readOf .el10 .nonSecure) (pageWalk true none) (.single 1) = some e :=
  ⟨⟨rfl, fun _ => rfl, rfl, fun _ _ => rfl⟩, ⟨_, rfl⟩⟩

theorem witness_LockedEntryRemains : (∃ t, step (sys [lockedEntry] [.evict 0]) = .next t) ∧ lockedEntry ∈ (sys [lockedEntry] [.evict 0]).tlbs
    ∧ lockedEntry.locked = true := ⟨⟨_, rfl⟩, by decide, rfl⟩

/-- Supported and not; each function. -/
theorem witness_LockdownFunctions :
    ∀ op ∈ [LockdownOp.unlockAll 0, .lock 0, .unlock 0, .remove 0, .prefetch 0 .el10 .nonSecure 0x4000 .read [] (.single 1)],
    (lockable [lockedEntry] [.lockdown op]).agenda = .lockdown op :: [] ∧ (lockable [lockedEntry] [.lockdown op]).impl.lockdownSupported = true
      ∧ (lockable [lockedEntry] [.lockdown op]).tlbs[0]? = some lockedEntry ∧ (lockable [lockedEntry] [.lockdown op]).pe? 0 = some pe0
      ∧ (sys [] [.lockdown op]).impl.lockdownSupported = false := by decide

/-- A word of each corner of the reserved encodings. -/
theorem witness_ReservedWordsRunTheMechanism : ∀ w ∈ [0xD508B000#32, 0xD538F000#32],
    (lockable [lockedEntry] [.instr 0 w]).agenda = .instr 0 w :: [] ∧ (lockable [lockedEntry] [.instr 0 w]).pe? 0 = some pe0
      ∧ (lockable [lockedEntry] [.instr 0 w]).impl.lockdownSupported = true ∧ w.extractLsb' 22 10 = 0b1101010100#10
      ∧ (w.extractLsb' 19 2 = 0b01#2 ∨ w.extractLsb' 19 2 = 0b11#2)
      ∧ (w.extractLsb' 12 4 = 0b1011#4 ∨ w.extractLsb' 12 4 = 0b1111#4) := by
  intro w hw
  simp only [List.mem_cons, List.not_mem_nil, or_false] at hw
  rcases hw with rfl | rfl <;> exact ⟨rfl, rfl, rfl, rfl, by decide, by decide⟩

/-- Both routes, and a PE outside the condition. -/
theorem witness_LockdownExceptionRoute : ∀ route ∈ [LockdownRoute.el1DataAbort, .el2HypTrap],
    let s := { sysOf [vmPe, pe0] [] [.lockdownException 0] with impl := { lockdownSupported := true, lockdownRoute := route } }
    s.pe? 0 = some vmPe ∧ s.impl.lockdownSupported = true ∧ vmPe.ctx.el2Enabled = true ∧ vmPe.ctx.el = .el0 ∧ s.impl.lockdownRoute = route
      ∧ s.pe? 1 = some pe0 ∧ pe0.ctx.el2Enabled = false := by decide

/-- A reset to each Exception level, under each value of `RESET_TLB_STATE`, with lockdown and without. -/
theorem witness_ResetEffect : ∀ el ∈ [RegEl.el1, .el2, .el3],
    ∀ c ∈ [(ResetTlbState.unknown, false), (.empty, true), (.preserved, true), (.preserved, false)],
    let s := { sys [entry none] [.reset 0 el drawn] with impl := { resetTlbState := c.1, lockdownSupported := c.2 } }
    s.agenda = .reset 0 el drawn :: [] ∧ s.pe? 0 = some pe0 ∧ resetPossible s.impl el drawn = true ∧ s.impl.resetTlbState = c.1
      ∧ s.impl.lockdownSupported = c.2 := by
  intro el hel c hc
  simp only [List.mem_cons, List.not_mem_nil, or_false] at hel hc
  rcases hel with rfl | rfl | rfl <;> rcases hc with rfl | rfl | rfl | rfl <;> decide

theorem witness_UntranslatedAfterReset :
    let s := sys [entry none] [.reset 0 .el3 drawn, .lookup 0 0 .read {}]
    s.agenda = .reset 0 .el3 drawn :: .lookup 0 0 .read {} :: [] ∧ s.pe? 0 = some pe0 ∧ resetPossible s.impl .el3 drawn = true
      ∧ sctlrOf drawn.ctx.regime = .el3 ∧ drawn.ctx.regime ≠ .el10 := by decide

/-- In EL1&0 with EL2 not enabled. -/
theorem witness_UntranslatedAfterReset_el1 :
    let draw : ResetDraw := { drawn with ctx := { regime := .el10, el2Enabled := false } }
    resetPossible {} .el1 draw = true ∧ sctlrOf draw.ctx.regime = .el1 ∧ draw.ctx.el2Enabled = false := by decide

/-- With a locked entry of another PE that is in the scope of no record. -/
theorem witness_RoutineEmptiesTheTlb :
    let e := { entry (some 6) with owner := 1, locked := true }
    (waiting [.invalidationRoutine 0 []]).agenda = .invalidationRoutine 0 [] :: []
      ∧ (waiting [.invalidationRoutine 0 []]).pe? 0 = some pe0 ∧ e.owner ≠ 0
      ∧ ∀ r ∈ (waiting []).pending, r.issuer = 0 → r.scope.covers e = false := by decide

/-- A state that meets the invariant and is not reset's, and whose step answers. -/
theorem witness_StepKeepsInvariant : MachineInv (waiting [.evict 0]) ∧ ∃ t, step (waiting [.evict 0]) = .next t := by
  refine ⟨⟨?_, ?_, ?_, rfl, by decide⟩, _, rfl⟩
  · intro e he
    have he' : e = entry (some 5) ∨ e = entry none := by simpa [waiting, sys] using he
    rcases he' with rfl | rfl <;>
      exact { ownerExists := by decide, coversSome := by decide, lockedSupported := by decide, cnpSupported := by decide
              filled := fun g hg => by cases hg }
  · intro r hr
    have hr' : r = record := by simpa [waiting] using hr
    subst hr'
    exact { issuerExists := by decide, targetsIssuer := by decide, targetsExist := by decide, regime := rfl }
  · intro pe hpe
    have hpe' : pe = pe0 := by simpa [waiting, sys] using hpe
    subst hpe'
    exact ⟨rfl, rfl⟩

theorem witness_ParametersAreConstant : (∃ t, step (sys [] [.reset 0 .el3 drawn]) = .next t) ∧ (sys [] [.reset 0 .el3 drawn]).pe? 0 = some pe0
    ∧ ((after (sys [] [.reset 0 .el3 drawn])).pe? 0).isSome = true := ⟨⟨_, rfl⟩, rfl, by decide⟩

/-- A step that changes a PE, one that changes memory, one that adds a record. -/
theorem witness_EachPartHasItsWriters :
    (∃ t, step (sys [] [.ctx 0 (.field .vs 1)]) = .next t ∧ t.pe? 0 ≠ (sys [] [.ctx 0 (.field .vs 1)]).pe? 0)
      ∧ (∃ t, step (sys [] [.memWrite .realm 0 1 1]) = .next t ∧ t.mem.of .realm ≠ (sys [] [.memWrite .realm 0 1 1]).mem.of .realm)
      ∧ ∃ t, step (given 0xD5088740#32) = .next t ∧ t.pending ≠ [] :=
  ⟨⟨_, rfl, by decide⟩, ⟨_, rfl, by decide⟩, ⟨_, rfl, by decide⟩⟩

/-- An entry that is new: a reset's draw. -/
theorem witness_EntriesComeOnlyByFillResetOrLockdown :
    ∃ t, step (sys [] [.reset 0 .el3 drawn]) = .next t ∧ entry (some 5) ∈ t.tlbs ∧ entry (some 5) ∉ (sys [] [.reset 0 .el3 drawn]).tlbs :=
  ⟨_, rfl, by decide, by decide⟩

end Sys2Proof.Tests
end

