-- ==== Sys2Proof/Proofs/FieldReads.lean ====
section
/-! PROOF. How a System register field reads: directly, as an Effective value, and to the abstract functions (00_scope.md R6, R8, D10). -/

namespace Sys2Proof.Machine

/-! ### The Effective values the context gives -/

/-- A list that names the field nowhere gives it no value. -/
theorem effGiven_eq_none {f : Field} {m : List (Field × FieldValue)} (h : ∀ v, (f, v) ∉ m) : effGiven f m = none := by
  induction m with
  | nil => rfl
  | cons x m ih =>
    obtain ⟨g, u⟩ := x
    have hg : g ≠ f := by rintro rfl; exact h u (List.mem_cons_self ..)
    rw [effGiven, if_neg hg]
    exact ih fun v hv => h v (List.mem_cons_of_mem _ hv)

/-- What precedes the first value given to the field plays no part. -/
theorem effGiven_append_of_notMem {f : Field} {pre : List (Field × FieldValue)} (m : List (Field × FieldValue))
    (h : ∀ v, (f, v) ∉ pre) : effGiven f (pre ++ m) = effGiven f m := by
  induction pre with
  | nil => rfl
  | cons x pre ih =>
    obtain ⟨g, u⟩ := x
    have hg : g ≠ f := by rintro rfl; exact h u (List.mem_cons_self ..)
    rw [List.cons_append, effGiven, if_neg hg]
    exact ih fun v hv => h v (List.mem_cons_of_mem _ hv)

/-- The value at the head counts, cut to the field's width. -/
theorem effGiven_cons_self (f : Field) (v : FieldValue) (m : List (Field × FieldValue)) :
    effGiven f ((f, v) :: m) = some (fieldTrunc f v) := if_pos rfl

/-! ### Fields of absent features, and of present ones -/

/-- The fields that come with a feature, each with its own feature. -/
theorem fieldPresent_eq_false_iff (impl : Impl) (f : Field) : fieldPresent impl f = false ↔
    ((∃ x, f = .a2 x) ∨ ∃ y x, f = .fng y x) ∧ impl.hasTcr2 = false
    ∨ ((∃ y x, f = .cnp y x) ∨ f = .cnpEl3 ∨ f = .vttbrCnp) ∧ impl.hasTtcnp = false := by
  cases f <;> simp [fieldPresent]

theorem regRead_of_absent {impl : Impl} {f : Field} (h : fieldPresent impl f = false) (r : Regs) : regRead impl r f = 0 := by
  simp [regRead, h]

theorem regRead_of_present {impl : Impl} {f : Field} (h : fieldPresent impl f = true) (r : Regs) : regRead impl r f = r.get f :=
  if_pos h

theorem eff_of_absent {impl : Impl} {f : Field} (h : fieldPresent impl f = false) (pe : Pe) : eff impl pe f = 0 := by
  simp [eff, h]

/-- The Effective value of a present field: what the context gives, else what is stored. -/
theorem eff_of_present {impl : Impl} {f : Field} (h : fieldPresent impl f = true) (pe : Pe) :
    eff impl pe f = (effGiven f pe.ctx.eff).getD (pe.regs.get f) := by
  rw [eff, if_pos h, regRead_of_present h]

/-- Settles O58: the clauses on the two kinds of field, `asRead_get` for what the abstract functions are given, and the list of fields
that come with a feature. -/
theorem absentFeaturesReadZero : Obligations.AbsentFeaturesReadZero := by
  intro impl pe f
  refine ⟨fun h => ⟨regRead_of_absent h _, eff_of_absent h pe⟩, fun h => ⟨regRead_of_present h _, ?_, ?_⟩,
    asRead_get impl pe.regs f, fieldPresent_eq_false_iff impl f⟩
  · intro hnot
    rw [eff_of_present h, effGiven_eq_none hnot, Option.getD_none]
  · intro pre v post hctx hpre
    rw [eff_of_present h, hctx, effGiven_append_of_notMem _ hpre, effGiven_cons_self, Option.getD_some]

end Sys2Proof.Machine
end

