-- ==== Sys2Proof/Proofs/Parameters.lean ====
section
/-! PROOF. No step changes what an implementation fixes: the parameters, the number of PEs and their Shareable domains (00_scope.md R6). -/

namespace Sys2Proof.Machine

/-! ### The Shareable domains of a PE -/

/-- The numbers of the Inner and the Outer Shareable domain of a PE. -/
def Pe.domains (pe : Pe) : Nat × Nat := (pe.inner, pe.outer)

@[simp] theorem ctxChange_domains (pe : Pe) (c : CtxChange) : (ctxChange pe c).domains = pe.domains := by
  cases c <;> rfl

@[simp] theorem xWrite_domains (pe : Pe) (k : Nat) (v : XWord) : (xWrite pe k v).domains = pe.domains := by
  unfold xWrite; split <;> rfl

@[simp] theorem resetPe_domains (pe : Pe) (el : RegEl) (draw : ResetDraw) : (resetPe pe el draw).domains = pe.domains := rfl

/-! ### Operations that leave the parameters and every PE as they are -/

@[simp] theorem issue_impl (s : State) (r : Pending) : (issue s r).impl = s.impl := rfl
@[simp] theorem issue_pes (s : State) (r : Pending) : (issue s r).pes = s.pes := rfl

@[simp] theorem fill_impl (s : State) (pe : Pe) (req : Request) (w : Walk) (pick : FillPick) :
    (fill s pe req w pick).impl = s.impl := by rw [fill_eq, withTlbs_impl]
@[simp] theorem fill_pes (s : State) (pe : Pe) (req : Request) (w : Walk) (pick : FillPick) :
    (fill s pe req w pick).pes = s.pes := by rw [fill_eq, withTlbs_pes]

@[simp] theorem prefetch_impl (s : State) (pe : Pe) (req : Request) (ks : List Nat) (pick : FillPick) :
    (prefetch s pe req ks pick).impl = s.impl := fill_impl ..
@[simp] theorem prefetch_pes (s : State) (pe : Pe) (req : Request) (ks : List Nat) (pick : FillPick) :
    (prefetch s pe req ks pick).pes = s.pes := fill_pes ..

@[simp] theorem speculativeFill_impl (s : State) (pe : Pe) (req : Request) (plan : WalkPlan) :
    (speculativeFill s pe req plan).impl = s.impl := by rw [speculativeFill, fills_eq, withTlbs_impl]
@[simp] theorem speculativeFill_pes (s : State) (pe : Pe) (req : Request) (plan : WalkPlan) :
    (speculativeFill s pe req plan).pes = s.pes := by rw [speculativeFill, fills_eq, withTlbs_pes]

@[simp] theorem lookup_impl (s : State) (pe : Pe) (req : Request) (ch : LookupChoice) : (lookup s pe req ch).impl = s.impl := by
  obtain ⟨es, a, h, -⟩ := lookup_looksUp s pe req ch
  rw [h, withAnswer_impl, withTlbs_impl]
@[simp] theorem lookup_pes (s : State) (pe : Pe) (req : Request) (ch : LookupChoice) : (lookup s pe req ch).pes = s.pes := by
  obtain ⟨es, a, h, -⟩ := lookup_looksUp s pe req ch
  rw [h, withAnswer_pes, withTlbs_pes]

@[simp] theorem evict_impl (s : State) (k : Nat) : (evict s k).impl = s.impl := by
  obtain h | ⟨e, -, -, h⟩ := evict_cases s k <;> rw [h]; rfl
@[simp] theorem evict_pes (s : State) (k : Nat) : (evict s k).pes = s.pes := by
  obtain h | ⟨e, -, -, h⟩ := evict_cases s k <;> rw [h]; rfl

@[simp] theorem complete_impl (s : State) (k : Nat) (fates : List LockedFate) : (complete s k fates).impl = s.impl := by
  unfold complete; split <;> rfl
@[simp] theorem complete_pes (s : State) (k : Nat) (fates : List LockedFate) : (complete s k fates).pes = s.pes := by
  unfold complete; split <;> rfl

@[simp] theorem sync_impl (s : State) (p : Nat) (fates : List (List LockedFate)) : (sync s p fates).impl = s.impl := by
  rw [sync_eq, withPending_impl, withTlbs_impl]
@[simp] theorem sync_pes (s : State) (p : Nat) (fates : List (List LockedFate)) : (sync s p fates).pes = s.pes := by
  rw [sync_eq, withPending_pes, withTlbs_pes]

@[simp] theorem invalidationRoutine_impl (s : State) (p : Nat) (fates : List (List LockedFate)) :
    (invalidationRoutine s p fates).impl = s.impl := sync_impl ..
@[simp] theorem invalidationRoutine_pes (s : State) (p : Nat) (fates : List (List LockedFate)) :
    (invalidationRoutine s p fates).pes = s.pes := sync_pes ..

/-- An operation of the lockdown mechanism writes no parameter and no PE. -/
theorem lockdownAct_impl_pes {s t : State} {op : LockdownOp} (h : lockdownAct s op = .next t) :
    t.impl = s.impl ∧ t.pes = s.pes := by
  obtain ⟨-, ⟨p, rfl⟩ | ⟨p, pe, req, ks, pick, -, -, rfl⟩ | ⟨k, b, rfl⟩ | ⟨k, rfl⟩⟩ := lockdownAct_next h
  · exact ⟨rfl, rfl⟩
  · exact ⟨prefetch_impl .., prefetch_pes ..⟩
  · exact ⟨rfl, rfl⟩
  · exact ⟨rfl, rfl⟩

/-- A sequence of operations of the lockdown mechanism writes no parameter and no PE. -/
theorem lockdownActs_impl_pes {s t : State} {ops : List LockdownOp} (h : lockdownActs s ops = .next t) :
    t.impl = s.impl ∧ t.pes = s.pes := by
  refine lockdownActs_induct (P := fun u => u.impl = s.impl ∧ u.pes = s.pes) ?_ ops s t ⟨rfl, rfl⟩ h
  intro u v op ⟨hi, hp⟩ huv
  obtain ⟨hi', hp'⟩ := lockdownAct_impl_pes huv
  exact ⟨hi'.trans hi, hp'.trans hp⟩

/-- An instruction writes no parameter and no PE. -/
theorem exec_impl_pes {i : Instr} {s t : State} (h : exec i s = .next t) : t.impl = s.impl ∧ t.pes = s.pes := by
  obtain ⟨pe, targets, -, -, -, rfl⟩ := exec_next h
  exact ⟨issue_impl .., issue_pes ..⟩

/-! ### What an implementation fixes is kept -/

/-- The parameters are as before, and so are the number of PEs and the domains of each. -/
structure KeepsParameters (s t : State) : Prop where
  impl : t.impl = s.impl
  domains : t.pes.map Pe.domains = s.pes.map Pe.domains

namespace KeepsParameters

theorem of_eq {s t : State} (h : t.impl = s.impl ∧ t.pes = s.pes) : KeepsParameters s t :=
  ⟨h.1, congrArg (List.map Pe.domains) h.2⟩

theorem trans {s t u : State} (h : KeepsParameters s t) (h' : KeepsParameters t u) : KeepsParameters s u :=
  ⟨h'.impl.trans h.impl, h'.domains.trans h.domains⟩

/-- A PE replaced by one of the same domains. -/
theorem withPe {s : State} {p : Nat} {pe pe' : Pe} (hpe : s.pe? p = some pe) (hd : pe'.domains = pe.domains) :
    KeepsParameters s (s.withPe p pe') := by
  refine ⟨withPe_impl .., List.ext_getElem? fun q => ?_⟩
  have hp : s.pes[p]? = some pe := hpe
  rw [withPe_pes, List.getElem?_map, List.getElem?_map, List.getElem?_set]
  by_cases hq : p = q
  · subst hq
    rw [if_pos rfl, if_pos (pe?_lt hpe), hp]
    exact congrArg some hd
  · rw [if_neg hq]

theorem length_eq {s t : State} (h : KeepsParameters s t) : t.pes.length = s.pes.length := by
  simpa using congrArg List.length h.domains

/-- The PE of each number has the domains it had. -/
theorem pe?_domains {s t : State} (h : KeepsParameters s t) {p : Nat} {a b : Pe} (ha : s.pe? p = some a) (hb : t.pe? p = some b) :
    b.domains = a.domains := by
  have hmap : (t.pe? p).map Pe.domains = (s.pe? p).map Pe.domains := by
    simpa only [State.pe?, List.getElem?_map] using congrArg (·[p]?) h.domains
  simpa [ha, hb] using hmap

end KeepsParameters

/-- A reset changes the fields and the context of the PE, `TLBS` and `PENDING`. -/
theorem resetAct_keepsParameters {s : State} {p : Nat} {pe : Pe} (hpe : s.pe? p = some pe) (el : RegEl) (draw : ResetDraw) :
    KeepsParameters s (resetAct s p pe el draw) := by
  have hentries : KeepsParameters s
      ((s.withTlbs (resetEntries s.impl p draw s.tlbs)).withPending (s.pending.filter fun r => r.issuer != p)) := .of_eq ⟨rfl, rfl⟩
  exact hentries.trans (.withPe hpe (resetPe_domains pe el draw))

/-- No act changes what an implementation fixes: a context change, a general register change and a reset replace one PE by one of the
same domains, and every other act leaves the PEs alone. -/
theorem ActNext.keepsParameters {s t : State} {ev : Event} (h : ActNext s t ev) : KeepsParameters s t := by
  cases ev with
  | instr p w =>
    have hcur : KeepsParameters s (s.withCur p) := .of_eq ⟨rfl, rfl⟩
    obtain ⟨i, -, h⟩ | ⟨-, -, pe, ops, -, h⟩ := h
    · exact hcur.trans (.of_eq (exec_impl_pes h))
    · exact hcur.trans (.of_eq (lockdownActs_impl_pes h))
  | lookup p ia access ch => obtain ⟨pe, -, rfl⟩ := h; exact .of_eq ⟨lookup_impl .., lookup_pes ..⟩
  | fill p regime sec ia access plan => obtain ⟨pe, -, rfl⟩ := h; exact .of_eq ⟨speculativeFill_impl .., speculativeFill_pes ..⟩
  | evict k => subst h; exact .of_eq ⟨evict_impl .., evict_pes ..⟩
  | complete k fates => subst h; exact .of_eq ⟨complete_impl .., complete_pes ..⟩
  | sync p fates => obtain ⟨pe, -, rfl⟩ := h; exact .of_eq ⟨sync_impl .., sync_pes ..⟩
  | ctx p c => obtain ⟨pe, hpe, -, rfl⟩ := h; exact .withPe hpe (ctxChange_domains pe c)
  | xreg p k v => obtain ⟨pe, hpe, rfl⟩ := h; exact .withPe hpe (xWrite_domains pe k v)
  | memWrite c a n v => obtain ⟨-, rfl⟩ := h; exact .of_eq ⟨rfl, rfl⟩
  | reset p el draw => obtain ⟨pe, hpe, -, rfl⟩ := h; exact resetAct_keepsParameters hpe el draw
  | invalidationRoutine p fates =>
    obtain ⟨pe, -, rfl⟩ := h; exact .of_eq ⟨invalidationRoutine_impl .., invalidationRoutine_pes ..⟩
  | lockdown op => exact .of_eq (lockdownAct_impl_pes h)
  | lockdownException p => obtain ⟨pe, -, rfl⟩ := h; exact .of_eq ⟨raise_impl .., raise_pes ..⟩

/-- Drawing the next act and making it both keep what an implementation fixes. -/
theorem step_keepsParameters {s t : State} (h : step s = .next t) : KeepsParameters s t :=
  have hdraw : KeepsParameters s (nextEvent s).2 := .of_eq ⟨nextEvent_impl s, nextEvent_pes s⟩
  hdraw.trans (act_next h).keepsParameters

/-- Settles O52, by cases on the act of the step. -/
theorem parametersAreConstant : Obligations.ParametersAreConstant := by
  intro s t h
  have hk := step_keepsParameters h
  refine ⟨hk.impl, hk.length_eq, fun p a b ha hb => ?_⟩
  exact Prod.mk.inj (hk.pe?_domains ha hb)

end Sys2Proof.Machine
end

section
/-! PROOF. What an act on one PE writes, and what its fields enable: general registers (10_state.md R27), System register fields and the
context (R31), the stages of translation (R30, 40_tlb_caching.md R121, R122). -/

namespace Sys2Proof.Machine

/-! ### General registers -/

/-- A write of a general register changes the general registers alone. -/
theorem xWrite_eq (pe : Pe) (k : Nat) (v : XWord) : xWrite pe k v = { pe with x := (xWrite pe k v).x } := by
  unfold xWrite; split <;> rfl

/-- What the operand reads after a write: the value in the register written, unless that is no register; elsewhere, as before (R93). -/
theorem xRead_xWrite (pe : Pe) (k j : Nat) (v : XWord) :
    xRead (xWrite pe k v) j = if j = k ∧ k < 31 then v else xRead pe j := by
  by_cases hk : k < 31
  · by_cases hj : j < 31
    · simp [xRead, xWrite, hk, hj, Vector.getElem_set, eq_comm]
    · have hne : j ≠ k := by omega
      simp [xRead, hj, hne]
  · simp [xWrite, hk]

/-- Register 31 is the zero register (R93). -/
@[simp] theorem xRead_zr (pe : Pe) : xRead pe 31 = 0 := rfl

/-- Settles O14: the registers of the PE that `xWrite` leaves. -/
theorem generalRegisterWrite : Obligations.GeneralRegisterWrite := by
  intro s p pe k v rest hagenda hpe hk
  have hstep : step s = .next ((s.withAgenda rest).withPe p (xWrite pe k v)) :=
    (step_of_agenda hagenda).trans (onPe_some _ hpe)
  refine ⟨(xWrite pe k v).x, ?_, ?_, fun j hj => ?_⟩
  · rw [← xWrite_eq]; exact hstep
  · rw [← xWrite_eq]
    by_cases h31 : k = 31
    · rw [h31, xRead_zr, if_pos rfl]
    · rw [xRead_xWrite, if_pos ⟨rfl, by omega⟩, if_neg h31]
  · rw [← xWrite_eq, xRead_xWrite, if_neg fun h => hj h.1]

/-! ### The stages that the fields and the context enable -/

/-- `SCTLR_ELx.M` comes with no feature: its read as a bit is its stored value. -/
theorem regBit_sctlrM (impl : Impl) (r : Regs) (x : RegEl) : regBit impl r (.sctlrM x) = true ↔ r.get (.sctlrM x) = 1 := by
  rw [regBit, regRead_of_present rfl, beq_iff_eq]

/-- Stage 1 of a regime is enabled by the `SCTLR_ELx.M` that controls it (R30). -/
theorem stageEnabled_s1_iff (impl : Impl) (pe : Pe) (regime : Regime) :
    stageEnabled impl pe regime .s1 = true ↔ pe.regs.get (.sctlrM (sctlrOf regime)) = 1 :=
  regBit_sctlrM impl pe.regs (sctlrOf regime)

/-- Stage 2 is enabled in the EL1&0 regime alone, by the context (R30; Log 39). -/
theorem stageEnabled_s2_iff (impl : Impl) (pe : Pe) (regime : Regime) :
    stageEnabled impl pe regime .s2 = true ↔ regime = .el10 ∧ pe.ctx.stage2Enabled = true := by
  rw [stageEnabled, Bool.and_eq_true, beq_iff_eq]

/-- Stage 2 applies where EL2 is enabled and stage 2 of the EL1&0 regime is (R122). -/
theorem stage2Applies_iff (impl : Impl) (pe : Pe) (regime : Regime) :
    stage2Applies impl pe regime = true ↔ regime = .el10 ∧ pe.ctx.el2Enabled = true ∧ pe.ctx.stage2Enabled = true := by
  rw [stage2Applies, Bool.and_eq_true, Bool.and_eq_true, beq_iff_eq, stageEnabled_s2_iff, and_assoc, and_iff_right rfl]

/-- Every stage that a matching entry holds information of is enabled (last line of `Match`, R121). -/
theorem entryMatches_stages {impl : Impl} {pe : Pe} {req : Request} {ia : Nat} {e : TlbEntry}
    (h : entryMatches impl pe req ia e = true) :
    (e.contents.holdsS1 = true → stageEnabled impl pe req.regime .s1 = true)
      ∧ (e.contents.holdsS2 = true → stageEnabled impl pe req.regime .s2 = true) := by
  obtain ⟨-, -, -, -, h1, h2⟩ := contextMatches_tags (Bool.and_eq_true_iff.mp h).1
  exact ⟨h1, h2⟩

/-- Settles O31: what enables each stage, and that a match needs the stages of the entry enabled. -/
theorem disabledStageMatchesNothing : Obligations.DisabledStageMatchesNothing := by
  intro impl pe req ia e
  refine ⟨stageEnabled_s1_iff impl pe .el10, stageEnabled_s1_iff impl pe .el20, stageEnabled_s1_iff impl pe .el2,
    stageEnabled_s1_iff impl pe .el3, stageEnabled_s2_iff impl pe, stage2Applies_iff impl pe, fun hoff hc => ?_, fun hoff hc => ?_⟩
  · refine Bool.eq_false_iff.mpr fun hmatch => ?_
    have hon := (stageEnabled_s1_iff impl pe req.regime).mp ((entryMatches_stages hmatch).1 hc)
    exact absurd (hoff.symm.trans hon) (by decide)
  · refine Bool.eq_false_iff.mpr fun hmatch => ?_
    obtain ⟨-, hon⟩ := (stageEnabled_s2_iff impl pe req.regime).mp ((entryMatches_stages hmatch).2 hc)
    exact absurd (hoff.symm.trans hon) (by decide)

/-! ### Fields and context -/

/-- The changes that an implementation can make: to its own Exception levels and Security states, and every other (Log 44). -/
theorem ctxPossible_iff (impl : Impl) (c : CtxChange) : ctxPossible impl c = true ↔
    (∀ e, c = .el e → elImplemented impl e = true) ∧ ∀ k, c = .sec k → secImplemented impl k = true := by
  cases c <;> simp [ctxPossible]

/-- A context change of an existing PE at the head of the agenda is made if it is possible, and else refused. -/
theorem step_ctx {s : State} {p : Nat} {pe : Pe} {c : CtxChange} {rest : List Event} (hagenda : s.agenda = .ctx p c :: rest)
    (hpe : s.pe? p = some pe) : step s = if ctxPossible s.impl c then .next ((s.withAgenda rest).withPe p (ctxChange pe c))
      else .refused .notImplemented :=
  (step_of_agenda hagenda).trans (onPe_some _ hpe)

@[simp] theorem ctxChange_x (pe : Pe) (c : CtxChange) : (ctxChange pe c).x = pe.x := by cases c <;> rfl

/-- A change that writes no field leaves the fields. -/
theorem ctxChange_regs {pe : Pe} {c : CtxChange} (h : ∀ f v, c ≠ .field f v) : (ctxChange pe c).regs = pe.regs := by
  cases c with
  | field f v => exact absurd rfl (h f v)
  | _ => rfl

/-- Settles O34: the step makes `ctxChange`, and each change is read off it. -/
theorem registerWriteKeepsTheTlb : Obligations.RegisterWriteKeepsTheTlb := by
  intro s p pe c rest hagenda hpe
  refine ⟨?_, ?_, fun hel hsec => ?_⟩
  · rintro e rfl hno
    rw [step_ctx hagenda hpe, if_neg (by simp [ctxPossible, hno])]
  · rintro k rfl hno
    rw [step_ctx hagenda hpe, if_neg (by simp [ctxPossible, hno])]
  · have hstep := (step_ctx hagenda hpe).trans (if_pos ((ctxPossible_iff s.impl c).mpr ⟨hel, hsec⟩))
    have hdomains := Prod.mk.inj (ctxChange_domains pe c)
    have hfield : ∀ f v, c = .field f v → (ctxChange pe c).regs.get f = fieldTrunc f v
        ∧ (∀ g, g ≠ f → (ctxChange pe c).regs.get g = pe.regs.get g) ∧ (ctxChange pe c).ctx = pe.ctx := by
      rintro f v rfl
      exact ⟨(get_set ..).trans (if_pos rfl), fun g hg => (get_set ..).trans (if_neg hg), rfl⟩
    refine ⟨_, ctxChange pe c, hstep, rfl, rfl, rfl, rfl, ?_, fun q hq => ?_, ctxChange_x pe c, hdomains.1, hdomains.2, hfield,
      ctxChange_regs, ?_⟩
    · rw [withPe_pe?, if_pos rfl, withAgenda_pes, if_pos (pe?_lt hpe)]
    · rw [withPe_pe?, if_neg hq.symm, withAgenda_pe?]
    · refine ⟨?_, ?_, ?_, ?_, ?_, ?_, ?_, ?_, ?_⟩ <;> rintro _ rfl <;> rfl

end Sys2Proof.Machine
end

section
/-! PROOF. Which acts write what (10_state.md R31, R36; 20_memory.md R60; 45_tlbi_aside1.md R241). -/

namespace Sys2Proof.Machine

/-- PEs and memory are as before, and no record is new. -/
structure KeepsPesAndMemory (s t : State) : Prop where
  pes : t.pes = s.pes
  mem : t.mem = s.mem
  records : t.pending ⊆ s.pending

namespace KeepsPesAndMemory

theorem refl (s : State) : KeepsPesAndMemory s s := ⟨rfl, rfl, List.Subset.refl _⟩

theorem trans {s t u : State} (h : KeepsPesAndMemory s t) (h' : KeepsPesAndMemory t u) : KeepsPesAndMemory s u :=
  ⟨h'.pes.trans h.pes, h'.mem.trans h.mem, List.Subset.trans h'.records h.records⟩

theorem withTlbs (s : State) (es : List TlbEntry) : KeepsPesAndMemory s (s.withTlbs es) := ⟨rfl, rfl, List.Subset.refl _⟩

theorem withAnswer (s : State) (a : Answer) : KeepsPesAndMemory s (s.withAnswer a) := ⟨rfl, rfl, List.Subset.refl _⟩

theorem withCur (s : State) (p : Nat) : KeepsPesAndMemory s (s.withCur p) := ⟨rfl, rfl, List.Subset.refl _⟩

/-- Records may go. -/
theorem withPending {s : State} {rs : List Pending} (h : rs ⊆ s.pending) : KeepsPesAndMemory s (s.withPending rs) := ⟨rfl, rfl, h⟩

theorem fill (s : State) (pe : Pe) (req : Request) (w : Walk) (pick : FillPick) : KeepsPesAndMemory s (fill s pe req w pick) := by
  rw [fill_eq]; exact withTlbs ..

theorem speculativeFill (s : State) (pe : Pe) (req : Request) (plan : WalkPlan) :
    KeepsPesAndMemory s (speculativeFill s pe req plan) := by
  rw [Machine.speculativeFill, fills_eq]; exact withTlbs ..

theorem lookup (s : State) (pe : Pe) (req : Request) (ch : LookupChoice) : KeepsPesAndMemory s (lookup s pe req ch) := by
  obtain ⟨es, a, heq, -⟩ := lookup_looksUp s pe req ch
  rw [heq]; exact (withTlbs ..).trans (withAnswer ..)

theorem evict (s : State) (k : Nat) : KeepsPesAndMemory s (evict s k) := by
  obtain heq | ⟨e, -, -, heq⟩ := evict_cases s k <;> rw [heq]
  · exact refl s
  · exact withTlbs ..

theorem complete (s : State) (k : Nat) (fates : List LockedFate) : KeepsPesAndMemory s (complete s k fates) := by
  unfold Machine.complete
  split
  · exact (withTlbs ..).trans (withPending fun _ hr => List.mem_of_mem_eraseIdx hr)
  · exact refl s

theorem sync (s : State) (p : Nat) (fates : List (List LockedFate)) : KeepsPesAndMemory s (sync s p fates) := by
  rw [sync_eq]; exact (withTlbs ..).trans (withPending (List.filter_subset_self _))

theorem invalidationRoutine (s : State) (p : Nat) (fates : List (List LockedFate)) :
    KeepsPesAndMemory s (invalidationRoutine s p fates) := (withTlbs ..).trans (sync ..)

theorem lockdownAct {s t : State} {op : LockdownOp} (h : lockdownAct s op = .next t) : KeepsPesAndMemory s t := by
  obtain ⟨-, ⟨p, rfl⟩ | ⟨p, pe, req, ks, pick, -, -, rfl⟩ | ⟨k, b, rfl⟩ | ⟨k, rfl⟩⟩ := lockdownAct_next h
  · exact withTlbs ..
  · exact fill ..
  · exact withTlbs ..
  · exact withTlbs ..

theorem lockdownActs {s t : State} {ops : List LockdownOp} (h : lockdownActs s ops = .next t) : KeepsPesAndMemory s t :=
  lockdownActs_induct (fun _ _ _ hs h => hs.trans (lockdownAct h)) ops s t (refl s) h

end KeepsPesAndMemory

/-- The acts that name a PE whose fields, context or general registers they change. -/
def Event.namesPe (ev : Event) (p : Nat) : Prop :=
  (∃ c, ev = .ctx p c) ∨ (∃ k v, ev = .xreg p k v) ∨ ∃ el draw, ev = .reset p el draw

/-- What an act can write beside `TLBS`: nothing; the PE it names; the memory of the Security state it names; or one new record, of
the PE that executes the instruction. -/
inductive ActWrites (s t : State) (ev : Event) : Prop where
  | entries (h : KeepsPesAndMemory s t)
  | pe (p : Nat) (u : State) (pe : Pe) (hev : ev.namesPe p) (h : KeepsPesAndMemory s u) (ht : t = u.withPe p pe)
  | memory (c : Sec) (a n v : Nat) (hev : ev = .memWrite c a n v) (ht : t = s.withMem (spaceWrite s.impl.byteOrder s.mem c a n v))
  | record (w : Word) (i : Instr) (r : Pending) (hev : ev = .instr r.issuer w) (hw : decode w = .ok i)
      (ht : t = issue (s.withCur r.issuer) r)

/-- Every act writes what `ActWrites` says. -/
theorem ActNext.writes {s t : State} {ev : Event} (h : ActNext s t ev) : ActWrites s t ev := by
  cases ev with
  | instr p w =>
    obtain ⟨i, hw, h⟩ | ⟨-, -, pe, ops, -, h⟩ := h
    · obtain ⟨pe, targets, -, -, -, rfl⟩ := exec_next h
      exact .record w i _ rfl hw rfl
    · exact .entries ((KeepsPesAndMemory.withCur s p).trans (.lockdownActs h))
  | lookup p ia access ch => obtain ⟨pe, -, rfl⟩ := h; exact .entries (.lookup ..)
  | fill p regime sec ia access plan => obtain ⟨pe, -, rfl⟩ := h; exact .entries (.speculativeFill ..)
  | evict k => subst h; exact .entries (.evict ..)
  | complete k fates => subst h; exact .entries (.complete ..)
  | sync p fates => obtain ⟨pe, -, rfl⟩ := h; exact .entries (.sync ..)
  | ctx p c => obtain ⟨pe, -, -, rfl⟩ := h; exact .pe p s _ (.inl ⟨c, rfl⟩) (.refl s) rfl
  | xreg p k v => obtain ⟨pe, -, rfl⟩ := h; exact .pe p s _ (.inr (.inl ⟨k, v, rfl⟩)) (.refl s) rfl
  | memWrite c a n v => obtain ⟨-, rfl⟩ := h; exact .memory c a n v rfl rfl
  | reset p el draw =>
    obtain ⟨pe, -, -, rfl⟩ := h
    exact .pe p _ _ (.inr (.inr ⟨el, draw, rfl⟩)) ((KeepsPesAndMemory.withTlbs ..).trans (.withPending (List.filter_subset_self _))) rfl
  | invalidationRoutine p fates => obtain ⟨pe, -, rfl⟩ := h; exact .entries (.invalidationRoutine ..)
  | lockdown op => exact .entries (.lockdownAct h)
  | lockdownException p => obtain ⟨pe, -, rfl⟩ := h; exact .entries (.withAnswer ..)

namespace ActWrites

variable {s t : State} {ev : Event}

/-- A PE that changed is named by the act. -/
theorem namesPe_of_ne (h : ActWrites s t ev) {p : Nat} (hne : t.pe? p ≠ s.pe? p) : ev.namesPe p := by
  cases h with
  | entries h => exact absurd (congrArg (·[p]?) h.pes) hne
  | pe q u pe hev h ht =>
    by_cases hq : q = p
    · exact hq ▸ hev
    · refine absurd ?_ hne
      rw [ht, withPe_pe?, if_neg hq]
      exact congrArg (·[p]?) h.pes
  | memory c a n v hev ht => exact absurd (congrArg (State.pe? · p) ht) hne
  | record w i r hev hw ht => exact absurd (congrArg (State.pe? · p) ht) hne

/-- A Security state's memory that changed is named by the act. -/
theorem memWrite_of_ne (h : ActWrites s t ev) {c : Sec} (hne : t.mem.of c ≠ s.mem.of c) : ∃ a n v, ev = .memWrite c a n v := by
  cases h with
  | entries h => exact absurd (congrArg (Spaces.of · c) h.mem) hne
  | pe q u pe hev h ht => exact absurd (congrArg (Spaces.of · c) ((congrArg State.mem ht).trans h.mem)) hne
  | memory d a n v hev ht =>
    by_cases hd : c = d
    · exact ⟨a, n, v, hd ▸ hev⟩
    · refine absurd ?_ hne
      rw [ht, withMem_mem, spaceWrite, put_of, if_neg hd]
  | record w i r hev hw ht => exact absurd (congrArg (fun u : State => u.mem.of c) ht) hne

/-- A new record is that of an instruction, which changed no entry. -/
theorem instr_of_new (h : ActWrites s t ev) {r : Pending} (hr : r ∈ t.pending) (hnew : r ∉ s.pending) :
    ∃ w i, ev = .instr r.issuer w ∧ decode w = .ok i ∧ t.tlbs = s.tlbs := by
  cases h with
  | entries h => exact absurd (h.records hr) hnew
  | pe q u pe hev h ht => subst ht; exact absurd (h.records hr) hnew
  | memory c a n v hev ht => subst ht; exact absurd hr hnew
  | record w i r' hev hw ht =>
    subst ht
    obtain hr | hr := List.mem_append.mp hr
    · exact absurd hr hnew
    · obtain rfl := List.mem_singleton.mp hr
      exact ⟨w, i, hev, hw, rfl⟩

end ActWrites

/-- Settles O53: what the act writes, from the state that drawing it leaves. -/
theorem eachPartHasItsWriters : Obligations.EachPartHasItsWriters := by
  intro s t h
  have hw := (act_next h).writes
  refine ⟨fun p hne => hw.namesPe_of_ne (by rwa [nextEvent_pe?]), fun c hne => hw.memWrite_of_ne (by rwa [nextEvent_mem]),
    fun r hr hnew => ?_⟩
  obtain ⟨w, i, hev, hdec, htlbs⟩ := hw.instr_of_new hr (by rwa [nextEvent_pending])
  exact ⟨w, i, hev, hdec, htlbs.trans (nextEvent_tlbs s)⟩

end Sys2Proof.Machine
end

section
/-! PROOF. The machine's invariant: it holds at reset, and every step keeps it (10_state.md R21, R23, R25, R35; 42_asid_vmid_tagging.md
R163, R168, R173; 44_common_not_private.md R220). -/

namespace Sys2Proof.Machine

/-! ### The tags of a new entry -/

/-- The regimes of two privilege levels are those that an Exception level of R160 controls. -/
theorem controllingEl_isSome (regime : Regime) : (controllingEl regime).isSome = twoPriv regime := by
  cases regime <;> rfl

/-- The current ASID is defined in the regimes of two privilege levels. -/
theorem currentAsid_isSome (impl : Impl) (pe : Pe) (regime : Regime) (half : Half) :
    (currentAsid impl pe regime half).isSome = twoPriv regime := by
  rw [currentAsid, Option.isSome_map, controllingEl_isSome]

/-- No entry of a regime of one privilege level is tagged with an ASID (R163). -/
theorem asidTag_of_singlePriv {impl : Impl} {pe : Pe} {req : Request} (w : Walk) (final : Bool) (i : Nat) (l : WalkLevel)
    (h : twoPriv req.regime = false) : asidTag impl pe req w final i l = none := by
  have hcur : ∀ half, currentAsid impl pe req.regime half = none := fun half => by
    rw [← Option.isNone_iff_eq_none, ← Option.not_isSome, currentAsid_isSome, h, Bool.not_false]
  simp only [asidTag, hcur, ite_self]

/-- An entry that is not final is tagged, in a regime of two privilege levels (R168). -/
theorem asidTag_of_nonFinal {impl : Impl} {pe : Pe} {req : Request} (w : Walk) (i : Nat) (l : WalkLevel)
    (h : twoPriv req.regime = true) : (asidTag impl pe req w false i l).isSome = true := by
  rw [asidTag, Bool.not_false, Bool.or_true, if_pos rfl, currentAsid_isSome, h]

/-- A VMID is given in the EL1&0 regime alone (R173). -/
theorem vmidTag_regime {impl : Impl} {pe : Pe} {regime : Regime} (h : (vmidTag impl pe regime).isSome = true) : regime = .el10 := by
  unfold vmidTag at h
  split at h
  · next hc => simpa using (Bool.and_eq_true_iff.mp hc).1
  · cases h

/-- Without FEAT_TTCNP no entry is shareable (R220). -/
theorem cnpForEntry_hasTtcnp {impl : Impl} {pe : Pe} {regime : Regime} {half : Option Half} {c : Contents}
    (h : cnpForEntry impl pe regime half c = true) : impl.hasTtcnp = true :=
  (Bool.and_eq_true_iff.mp h).1

/-! ### The entries that the operations make -/

/-- The entry made of one permitted level is lawful. -/
theorem singleEntry_filledInv {impl : Impl} {pe : Pe} {req : Request} {w : Walk} {i : Nat} {l : WalkLevel}
    (h : fillableLevel impl pe req.regime w i = some l) : FilledInv (singleEntry impl pe req w i l) (levelFaults w i l) := by
  obtain ⟨-, -, -, -, hfaults, -⟩ := fillableLevel_spec h
  refine ⟨hfaults, fun hr => ?_, fun hc => ?_, fun hr hc hf => ?_, vmidTag_regime⟩ <;>
    cases hs : l.stage <;> simp only [singleEntry, hs] at *
  · exact asidTag_of_singlePriv w l.final i l hr
  · cases hc
  · rw [hf]; exact asidTag_of_nonFinal w i l hr
  · cases hc

/-- The entry made of a permitted level of each stage is lawful. -/
theorem combinedEntry_filledInv {impl : Impl} {pe : Pe} {req : Request} {w : Walk} {i1 i2 : Nat} {l1 l2 : WalkLevel}
    (h1 : fillableLevel impl pe req.regime w i1 = some l1) (h2 : fillableLevel impl pe req.regime w i2 = some l2) :
    FilledInv (combinedEntry impl pe req w i1 i2 l1 l2) (levelFaults w i1 l1 ++ levelFaults w i2 l2) := by
  obtain ⟨-, -, -, -, hfaults1, -⟩ := fillableLevel_spec h1
  obtain ⟨-, -, -, -, hfaults2, -⟩ := fillableLevel_spec h2
  refine ⟨fun g hg => (List.mem_append.mp hg).elim (hfaults1 g) (hfaults2 g), asidTag_of_singlePriv w _ i1 l1, nofun,
    fun hr _ hf => ?_, vmidTag_regime⟩
  have hfinal : (l1.final && l2.final) = false := hf
  simp only [combinedEntry, hfinal]
  exact asidTag_of_nonFinal w i1 l1 hr

/-- An entry of `T_FILL` is lawful as what it was created from. -/
theorem fillEntry_filledInv {impl : Impl} {pe : Pe} {req : Request} {w : Walk} {pick : FillPick} {e : TlbEntry}
    (h : fillEntry impl pe req w pick = some e) : ∀ generates, e.source = .filled generates → FilledInv e generates := by
  obtain ⟨i, l, hl, rfl, -, -⟩ | ⟨i1, i2, l1, l2, hl1, hl2, -, -, rfl, -, -⟩ := fillEntry_cases h
  · rintro _ ⟨⟩; exact singleEntry_filledInv hl
  · rintro _ ⟨⟩; exact combinedEntry_filledInv hl1 hl2

/-- An entry of `T_FILL` by a PE that exists is a good member of `TLBS`. -/
theorem fillEntry_entryInv {impl : Impl} {pe : Pe} {req : Request} {w : Walk} {pick : FillPick} {e : TlbEntry} {n : Nat}
    (h : fillEntry impl pe req w pick = some e) (hreq : req.pe < n) : EntryInv impl n e := by
  obtain ⟨howner, -, -, hlocked, hsize, -, -, hcnp⟩ := fillEntry_fixed h
  exact
    { ownerExists := howner ▸ hreq
      coversSome := hsize
      lockedSupported := by simp [hlocked]
      cnpSupported := fun hc => cnpForEntry_hasTtcnp (hcnp ▸ hc)
      filled := fillEntry_filledInv h }

/-- An arbitrary entry, as a reset leaves it to a PE that exists, is a good member. -/
theorem unknownEntry_entryInv (impl : Impl) {p n : Nat} (e : TlbEntry) (hp : p < n) : EntryInv impl n (unknownEntry impl p e) where
  ownerExists := hp
  coversSome := Nat.lt_of_lt_of_le Nat.zero_lt_one (Nat.le_max_left 1 e.iaSize)
  lockedSupported h := (Bool.and_eq_true_iff.mp h).2
  cnpSupported := nofun
  filled := nofun

/-- Where lockdown is supported, an entry with its lock changed is as good. -/
theorem EntryInv.setLocked {impl : Impl} {n : Nat} {e : TlbEntry} (h : EntryInv impl n e) (hsup : impl.lockdownSupported = true)
    (b : Bool) : EntryInv impl n (setLocked b e) :=
  { h with
    lockedSupported := fun _ => hsup
    filled := fun g hg => { h.filled g hg with } }

/-- `T_LOCKED_UPDATE` makes a good member of a good one: the tags come from a fill of the same kind of entry (R145). -/
theorem lockedUpdate_entryInv {s : State} {e x : TlbEntry} {u : LockedUpdate} {n : Nat} (h : lockedUpdate s e u = some x)
    (he : EntryInv s.impl n e) : EntryInv s.impl n x := by
  obtain ⟨pe, m, result, -, -, -, -, hfill, hcontents, hfinal, rfl⟩ := lockedUpdate_cases h
  obtain ⟨-, hreq, -, -, hsize, -, -, -⟩ := fillEntry_fixed hfill
  have hregime : m.regime = e.regime := hreq
  refine { he with coversSome := hsize, filled := fun g hg => ?_ }
  obtain ⟨h1, h2, h3, h4, h5⟩ := fillEntry_filledInv hfill g hg
  rw [hregime] at h2 h4 h5
  rw [hcontents] at h3 h4
  rw [hfinal] at h4
  exact ⟨h1, h2, h3, h4, h5⟩

/-- What a completion leaves of good members is good. -/
theorem completeEntries_entryInv {s : State} {r : Pending} {fates : List LockedFate} {es : List TlbEntry} {n : Nat}
    (h : ∀ e ∈ es, EntryInv s.impl n e) : ∀ x ∈ completeEntries s r fates es, EntryInv s.impl n x := by
  intro x hx
  obtain ⟨hx, -⟩ | ⟨e, he, -, -, u, hu⟩ := completeEntries_mem s r es fates x hx
  · exact h x hx
  · exact lockedUpdate_entryInv hu (h e he)

/-- An entry that stays through a reset is one that was there, or one with its lock changed. -/
theorem relock_mem {impl : Impl} {p : Nat} {es : List TlbEntry} {x : TlbEntry} : ∀ {bs : List Bool}, x ∈ relock impl p bs es →
    x ∈ es ∨ impl.lockdownSupported = true ∧ ∃ e ∈ es, ∃ b, x = setLocked b e := by
  induction es with
  | nil => intro bs hx; cases hx
  | cons e es ih =>
    have tail : ∀ {bs}, x ∈ relock impl p bs es →
        x ∈ e :: es ∨ impl.lockdownSupported = true ∧ ∃ e' ∈ e :: es, ∃ b, x = setLocked b e' := by
      intro bs hx
      obtain hx | ⟨hsup, e', he', hb⟩ := ih hx
      · exact .inl (List.mem_cons_of_mem _ hx)
      · exact .inr ⟨hsup, e', List.mem_cons_of_mem _ he', hb⟩
    intro bs hx
    simp only [relock] at hx
    split at hx
    · next hlock =>
      split at hx
      · obtain rfl | hx := List.mem_cons.mp hx
        · exact .inl (List.mem_cons_self ..)
        · exact tail hx
      · next b bs' =>
        obtain rfl | hx := List.mem_cons.mp hx
        · exact .inr ⟨hlock.2, e, List.mem_cons_self .., b, rfl⟩
        · exact tail hx
    · obtain rfl | hx := List.mem_cons.mp hx
      · exact .inl (List.mem_cons_self ..)
      · exact tail hx

/-- A change of the lock of one entry leaves each entry as it was, or with its lock changed. -/
theorem lockAt_mem {s : State} {k : Nat} {b : Bool} {x : TlbEntry} (hx : x ∈ (lockAt s k b).tlbs) :
    x ∈ s.tlbs ∨ ∃ e ∈ s.tlbs, x = setLocked b e := by
  obtain ⟨j, hj⟩ := List.getElem?_of_mem hx
  rw [lockAt, withTlbs_tlbs, List.getElem?_modify] at hj
  obtain ⟨e, he, rfl⟩ := Option.map_eq_some_iff.mp hj
  have he := List.mem_of_getElem? he
  split
  · exact .inr ⟨e, he, rfl⟩
  · exact .inl he

/-- `TLBS` after a reset of a PE that exists has good members alone. -/
theorem resetEntries_entryInv {impl : Impl} {p n : Nat} {draw : ResetDraw} {es : List TlbEntry} (hp : p < n)
    (h : ∀ e ∈ es, EntryInv impl n e) : ∀ x ∈ resetEntries impl p draw es, EntryInv impl n x := by
  intro x hx
  unfold resetEntries at hx
  split at hx
  · obtain hx | hx := List.mem_append.mp hx
    · exact h x (List.mem_of_mem_filter hx)
    · obtain ⟨e, -, rfl⟩ := List.mem_map.mp hx
      exact unknownEntry_entryInv impl e hp
  · exact h x (List.mem_of_mem_filter hx)
  · obtain hx | ⟨hsup, e, he, b, rfl⟩ := relock_mem hx
    · exact h x hx
    · exact (h e he).setLocked hsup b

/-! ### The updates of the state keep the invariant -/

namespace MachineInv

variable {s : State} (hs : MachineInv s)
include hs

theorem withTlbs {es : List TlbEntry} (h : ∀ e ∈ es, EntryInv s.impl s.pes.length e) : MachineInv (s.withTlbs es) :=
  { hs with entries := h }

theorem withPending {rs : List Pending} (h : ∀ r ∈ rs, PendingInv s.pes.length r) : MachineInv (s.withPending rs) :=
  { hs with records := h }

theorem withMem {m : Spaces} (h : Spaces.wf m = true) : MachineInv (s.withMem m) := { hs with memory := h }

theorem withCur {p : Nat} (h : p < s.pes.length) : MachineInv (s.withCur p) := { hs with cur := h }

theorem withAnswer (a : Answer) : MachineInv (s.withAnswer a) := { hs with }

theorem withPe {pe : Pe} (p : Nat) (h : PeInv s.impl pe) : MachineInv (s.withPe p pe) where
  entries := by simpa only [withPe_tlbs, withPe_impl, withPe_pes, List.length_set] using hs.entries
  records := by simpa only [withPe_pending, withPe_pes, List.length_set] using hs.records
  pes q hq := (List.mem_or_eq_of_mem_set hq).elim (hs.pes q) (fun heq => heq ▸ h)
  memory := hs.memory
  cur := by simpa only [withPe_cur, withPe_pes, List.length_set] using hs.cur

theorem nextEvent : MachineInv (nextEvent s).2 where
  entries := by simpa using hs.entries
  records := by simpa using hs.records
  pes := by simpa using hs.pes
  memory := by simpa using hs.memory
  cur := by simpa using hs.cur

/-! ### The operations keep the invariant -/

theorem fill {pe : Pe} {req : Request} {w : Walk} {pick : FillPick} (hreq : req.pe < s.pes.length) :
    MachineInv (fill s pe req w pick) := by
  rw [fill_eq]
  refine hs.withTlbs fun e he => (List.mem_append.mp he).elim (hs.entries e) fun he => ?_
  exact fillEntry_entryInv (Option.mem_toList.mp he) hreq

theorem speculativeFill {pe : Pe} {req : Request} {plan : WalkPlan} (hreq : req.pe < s.pes.length) :
    MachineInv (speculativeFill s pe req plan) := by
  obtain ⟨es, heq, hes⟩ := fills_spec pe req (walkFor s pe req plan.entries .root) plan.fills s
  rw [Machine.speculativeFill, heq]
  refine hs.withTlbs fun e he => (List.mem_append.mp he).elim (hs.entries e) fun he => ?_
  obtain ⟨pick, -, hpick⟩ := hes e he
  exact fillEntry_entryInv hpick hreq

theorem lookup {pe : Pe} {req : Request} {ch : LookupChoice} (hreq : req.pe < s.pes.length) :
    MachineInv (lookup s pe req ch) := by
  obtain ⟨es, a, heq, hes⟩ := lookup_looksUp s pe req ch
  rw [heq]
  refine (hs.withTlbs fun e he => (List.mem_append.mp he).elim (hs.entries e) fun he => ?_).withAnswer a
  obtain ⟨start, plan, -, pick, -, hpick⟩ := hes e he
  exact fillEntry_entryInv hpick hreq

theorem evict (k : Nat) : MachineInv (evict s k) := by
  obtain heq | ⟨e, -, -, heq⟩ := evict_cases s k <;> rw [heq]
  · exact hs
  · exact hs.withTlbs fun e he => hs.entries e (List.mem_of_mem_eraseIdx he)

theorem complete (k : Nat) (fates : List LockedFate) : MachineInv (complete s k fates) := by
  unfold Machine.complete
  split
  · exact (hs.withTlbs (completeEntries_entryInv hs.entries)).withPending fun r hr => hs.records r (List.mem_of_mem_eraseIdx hr)
  · exact hs

theorem sync (p : Nat) (fates : List (List LockedFate)) : MachineInv (sync s p fates) := by
  have hentries : ∀ e ∈ (completeIssuer p s.pending fates s).tlbs, EntryInv s.impl s.pes.length e := by
    refine completeIssuer_induct p s.pending s.impl s.pes ?_ fates s rfl rfl hs.entries
    intro t r f himpl _ h
    rw [← himpl] at h ⊢
    exact completeEntries_entryInv h
  rw [sync_eq]
  exact (hs.withTlbs hentries).withPending fun r hr => hs.records r (List.mem_of_mem_filter hr)

theorem invalidationRoutine (p : Nat) (fates : List (List LockedFate)) : MachineInv (invalidationRoutine s p fates) :=
  (hs.withTlbs fun e he => hs.entries e (List.mem_of_mem_filter he)).sync p fates

theorem lockdownAct {t : State} {op : LockdownOp} (h : lockdownAct s op = .next t) : MachineInv t := by
  obtain ⟨hsup, ⟨p, rfl⟩ | ⟨p, pe, req, ks, pick, hpe, rfl, rfl⟩ | ⟨k, b, rfl⟩ | ⟨k, rfl⟩⟩ := lockdownAct_next h
  · refine hs.withTlbs fun x hx => ?_
    obtain ⟨e, he, rfl⟩ := List.mem_map.mp hx
    split
    · exact (hs.entries e he).setLocked hsup false
    · exact hs.entries e he
  · exact hs.fill (pe?_lt hpe)
  · refine hs.withTlbs fun x hx => ?_
    obtain hx | ⟨e, he, rfl⟩ := lockAt_mem hx
    · exact hs.entries x hx
    · exact (hs.entries e he).setLocked hsup b
  · exact hs.withTlbs fun e he => hs.entries e (List.mem_of_mem_eraseIdx he)

theorem lockdownActs {t : State} {ops : List LockdownOp} (h : lockdownActs s ops = .next t) : MachineInv t :=
  lockdownActs_induct (fun _ _ _ hs h => hs.lockdownAct h) ops s t hs h

/-- The record that an instruction issues names PEs that exist, the executing one among them, and the EL1&0 regime (R240, R241). -/
theorem exec {t : State} {i : Instr} (h : exec i s = .next t) : MachineInv t := by
  obtain ⟨pe, targets, hpe, hself, htargets, rfl⟩ := exec_next h
  refine hs.withPending fun r hr => (List.mem_append.mp hr).elim (hs.records r) fun hr => ?_
  obtain rfl := List.mem_singleton.mp hr
  exact { issuerExists := hs.cur, targetsIssuer := hself, targetsExist := htargets, regime := rfl }

theorem resetAct {pe : Pe} {p : Nat} {el : RegEl} {draw : ResetDraw} (hpe : s.pe? p = some pe)
    (h : resetPossible s.impl el draw = true) : MachineInv (resetAct s p pe el draw) := by
  obtain ⟨hlevel, hsec⟩ := Bool.and_eq_true_iff.mp h
  have hrecords : ∀ r ∈ s.pending.filter fun r => r.issuer != p, PendingInv s.pes.length r :=
    fun r hr => hs.records r (List.mem_of_mem_filter hr)
  exact ((hs.withTlbs (resetEntries_entryInv (pe?_lt hpe) hs.entries)).withPending hrecords).withPe p ⟨hlevel, hsec⟩

end MachineInv

/-- A change of the context keeps a PE at implemented levels, where it is one the implementation has. -/
theorem ctxChange_peInv {impl : Impl} {pe : Pe} {c : CtxChange} (h : PeInv impl pe) (hc : ctxPossible impl c = true) :
    PeInv impl (ctxChange pe c) := by
  cases c with
  | el e => exact ⟨hc, h.security⟩
  | sec k => exact ⟨h.level, hc⟩
  | _ => exact ⟨h.level, h.security⟩

/-- A change of a general register leaves the context. -/
@[simp] theorem xWrite_ctx (pe : Pe) (k : Nat) (v : XWord) : (xWrite pe k v).ctx = pe.ctx := by
  rw [xWrite_eq]

/-! ### Every act, and every step -/

/-- Every act keeps the invariant: each is one of the operations above. -/
theorem ActNext.machineInv {s t : State} {ev : Event} (h : ActNext s t ev) (hs : MachineInv s) : MachineInv t := by
  cases ev with
  | instr p w =>
    obtain ⟨i, -, h⟩ | ⟨-, -, pe, ops, hpe, h⟩ := h
    · obtain ⟨pe, targets, hpe, -⟩ := exec_next h
      exact (hs.withCur (pe?_lt hpe)).exec h
    · exact (hs.withCur (pe?_lt hpe)).lockdownActs h
  | lookup p ia access ch => obtain ⟨pe, hpe, rfl⟩ := h; exact hs.lookup (pe?_lt hpe)
  | fill p regime sec ia access plan => obtain ⟨pe, hpe, rfl⟩ := h; exact hs.speculativeFill (pe?_lt hpe)
  | evict k => subst h; exact hs.evict k
  | complete k fates => subst h; exact hs.complete k fates
  | sync p fates => obtain ⟨pe, -, rfl⟩ := h; exact hs.sync p fates
  | ctx p c => obtain ⟨pe, hpe, hc, rfl⟩ := h; exact hs.withPe p (ctxChange_peInv (hs.pes pe (pe?_mem hpe)) hc)
  | xreg p k v =>
    obtain ⟨pe, hpe, rfl⟩ := h
    obtain ⟨hlevel, hsec⟩ := hs.pes pe (pe?_mem hpe)
    exact hs.withPe p ⟨by rwa [xWrite_ctx], by rwa [xWrite_ctx]⟩
  | memWrite c a n v => obtain ⟨-, rfl⟩ := h; exact hs.withMem (spaceWrite_wf _ _ c a n v hs.memory)
  | reset p el draw => obtain ⟨pe, hpe, hpossible, rfl⟩ := h; exact hs.resetAct hpe hpossible
  | invalidationRoutine p fates => obtain ⟨pe, -, rfl⟩ := h; exact hs.invalidationRoutine p fates
  | lockdown op => exact hs.lockdownAct h
  | lockdownException p => obtain ⟨pe, -, rfl⟩ := h; exact hs.withAnswer _

/-- Settles O51, by cases on the act of the step. -/
theorem stepKeepsInvariant : Obligations.StepKeepsInvariant :=
  fun _ _ hs h => (act_next h).machineInv hs.nextEvent

/-! ### The state after reset -/

/-- Settles O49: the PEs at reset are those of `resetPes`, and every other part is empty. -/
theorem resetState : Obligations.ResetState := by
  have hpes : ∀ pe ∈ resetPes, pe.ctx.el = .el3 ∧ pe.regs.get (.sctlrM .el3) = 0 := by decide
  exact ⟨hpes, rfl, rfl, rfl⟩

/-- Settles O50: every entry at reset is one that a reset of a PE that exists leaves. -/
theorem resetMeetsInvariant : Obligations.ResetMeetsInvariant where
  entries e he := by
    obtain ⟨d, -, rfl⟩ := List.mem_map.mp he
    refine unknownEntry_entryInv {} d ?_
    split
    · assumption
    · exact Nat.zero_lt_two
  records := nofun
  pes := by
    have hpes : ∀ pe ∈ resetPes, elImplemented {} pe.ctx.el = true ∧ secImplemented {} pe.ctx.sec = true := by decide
    exact fun pe hpe => ⟨(hpes pe hpe).1, (hpes pe hpe).2⟩
  memory := rfl
  cur := Nat.zero_lt_two

end Sys2Proof.Machine
end

section
/-! PROOF. A write to memory: what the bytes written and all other bytes read (00_scope.md R8, 20_memory.md R62, R63), and the spaces of
the Security states (10_state.md R32). -/

namespace Sys2Proof.Machine

/-! ### Reads of consecutive bytes -/

/-- Bytes that lie one after another are read as one list. -/
theorem memBytes_eq_some {m : Memory} {bs : List Byte} : ∀ {a : Nat},
    (∀ i < bs.length, memByte m (a + i) = bs[i]?) → memBytes m a bs.length = some bs := by
  induction bs with
  | nil => intro a _; rfl
  | cons b bs ih =>
    intro a h
    have hhead : memByte m a = some b := h 0 (Nat.zero_lt_succ _)
    have htail : memBytes m (a + 1) bs.length = some bs := by
      refine ih fun i hi => ?_
      have hi' := h (i + 1) (Nat.succ_lt_succ hi)
      rwa [List.getElem?_cons_succ, ← Nat.add_assoc, Nat.add_right_comm] at hi'
    rw [List.length_cons, memBytes, hhead, htail]

/-- The bytes written one after another are read back as they were written. -/
theorem memBytes_memSetBytes {m : Memory} (h : Memory.wf m = true) (a : Nat) (bs : List Byte) :
    memBytes (memSetBytes m a bs) a bs.length = some bs := by
  refine memBytes_eq_some fun i hi => ?_
  rw [memByte_memSetBytes bs m a (a + i) h, if_pos (by omega), Nat.add_sub_cancel_left]

/-! ### `MemWrite` and `MemRead` -/

/-- A read of the bytes of a write gives the value, cut to as many bytes, in either byte order. -/
theorem memRead_memWrite (o : ByteOrder) {m : Memory} (h : Memory.wf m = true) (a n v : Nat) :
    memRead o (memWrite o m a n v) a n = some (v % 256 ^ n) := by
  have hbytes : memBytes (memWrite o m a n v) a n = some (bytesOf o n v) := by
    rw [memWrite, ← memBytes_memSetBytes h a (bytesOf o n v), bytesOf_length]
  rw [memRead, hbytes, Option.map_some]
  cases o with
  | little => exact congrArg some (littleValue_bytesLittle n v)
  | big => simp only [bytesOf, List.reverse_reverse, littleValue_bytesLittle]

/-- A write leaves every byte outside the ones written. -/
theorem memByte_memWrite_of_outside (o : ByteOrder) {m : Memory} (h : Memory.wf m = true) {a n b : Nat} (v : Nat)
    (hb : b < a ∨ a + n ≤ b) : memByte (memWrite o m a n v) b = memByte m b := by
  rw [memWrite, memByte_memSetBytes _ m a b h, bytesOf_length, if_neg (by omega)]

/-! ### The spaces of the Security states -/

/-- The space written holds the write. -/
theorem spaceWrite_of_self (o : ByteOrder) (m : Spaces) (c : Sec) (a n v : Nat) :
    (spaceWrite o m c a n v).of c = memWrite o (m.of c) a n v := by
  rw [spaceWrite, put_of, if_pos rfl]

/-- The other spaces are as before. -/
theorem spaceWrite_of_ne (o : ByteOrder) (m : Spaces) {c d : Sec} (a n v : Nat) (hd : d ≠ c) :
    (spaceWrite o m c a n v).of d = m.of d := by
  rw [spaceWrite, put_of, if_neg hd]

/-- A write reaches the space of an implemented Security state alone (Log 10). -/
theorem step_of_memWrite {s : State} {c : Sec} {a n v : Nat} {rest : List Event} (h : s.agenda = .memWrite c a n v :: rest) :
    step s = if secImplemented s.impl c then .next ((s.withAgenda rest).withMem (spaceWrite s.impl.byteOrder s.mem c a n v))
      else .refused .notImplemented :=
  step_of_agenda h

/-- Settles O35: the write is of `MEM` alone, and the space written is the only one that changes. -/
theorem memoryWriteKeepsTheTlb : Obligations.MemoryWriteKeepsTheTlb := by
  intro s c a n v rest hagenda
  refine ⟨fun hc => ?_, fun hc hwf => ?_⟩
  · rw [step_of_memWrite hagenda, hc, if_neg Bool.false_ne_true]
  · have hspace : Memory.wf (s.mem.of c) = true := (wf_iff s.mem).mp hwf c
    have hstep : step s = .next ((s.withAgenda rest).withMem (spaceWrite s.impl.byteOrder s.mem c a n v)) := by
      rw [step_of_memWrite hagenda, if_pos hc]
    refine ⟨_, hstep, rfl, rfl, rfl, rfl, rfl, ?_, fun b hb => ?_, fun d hd => ?_⟩
    · rw [withMem_mem, spaceWrite_of_self]; exact memRead_memWrite _ hspace a n v
    · rw [withMem_mem, spaceWrite_of_self]; exact memByte_memWrite_of_outside _ hspace v hb
    · rw [withMem_mem]; exact spaceWrite_of_ne _ _ a n v hd

end Sys2Proof.Machine
end

section
/-! PROOF. The decoder and the encoder agree (30_encoding.md R91 to R95): each is read off the opcode map of R92, whose rows fix every bit
of a word but its operand field. -/

namespace Sys2Proof

/-! ### Words: the operand field and the fixed bits -/

/-- The operand field has five bits (R93). -/
theorem rtField_lt (w : Word) : rtField w < 32 := (w.extractLsb' 0 5).isLt

/-- The bits that a row fixes are those above the operand field (R92). -/
theorem getLsbD_opcodeMask : ∀ k < 32, opcodeMask.getLsbD k = decide (5 ≤ k) := by decide

/-- The fixed bits and the operand field are all the bits of a word. -/
theorem word_eq_of_fields {w w' : Word} (hfixed : w &&& opcodeMask = w' &&& opcodeMask) (hrt : rtField w = rtField w') : w = w' := by
  have hlow : w.extractLsb' 0 5 = w'.extractLsb' 0 5 := BitVec.eq_of_toNat_eq hrt
  apply BitVec.eq_of_getLsbD_eq
  intro k hk
  by_cases hk5 : k < 5
  · simpa [hk5] using congrArg (BitVec.getLsbD · k) hlow
  · simpa [getLsbD_opcodeMask k hk, Nat.le_of_not_lt hk5] using congrArg (BitVec.getLsbD · k) hfixed

/-- What the mask takes from a word are its low five bits. -/
theorem append_and_opcodeMask (fixed : BitVec 27) (operand : BitVec 5) : (fixed ++ operand) &&& opcodeMask = fixed ++ 0#5 := by
  apply BitVec.eq_of_getLsbD_eq
  intro k hk
  rw [BitVec.getLsbD_and, getLsbD_opcodeMask k hk, BitVec.getLsbD_append, BitVec.getLsbD_append]
  by_cases hk5 : k < 5
  · simp [hk5]
  · simp [hk5, Nat.le_of_not_lt hk5]

/-- The fixed bits of a `SYS` word are the word with the operand register 0. -/
theorem sysWord_and_opcodeMask (op0 : BitVec 2) (op1 : BitVec 3) (crn crm : BitVec 4) (op2 : BitVec 3) (rt : Nat) :
    sysWord op0 op1 crn crm op2 rt &&& opcodeMask = sysWord op0 op1 crn crm op2 0 :=
  append_and_opcodeMask (0b1101010100#10 ++ 0b0#1 ++ op0 ++ op1 ++ crn ++ crm ++ op2) (BitVec.ofNat 5 rt)

/-! ### Instructions: each is the one of a row of the opcode map -/

/-- An instruction is well-formed exactly when its operand is one of the 32 registers. -/
theorem wellFormed_iff (i : Instr) : i.wellFormed = true ↔ i.rt < 32 := by
  cases i <;> exact decide_eq_true_iff

/-- The operand field of an encoding is the operand, whichever the instruction. -/
theorem rtField_encode {i : Instr} (h : i.wellFormed = true) : rtField (encode i) = i.rt := by
  cases i with
  | tlbiAside1 rt => exact Laws.OperandField.tlbiAside1 rt h
  | tlbiAside1is rt => exact Laws.OperandField.tlbiAside1is rt h
  | tlbiAside1os rt => exact Laws.OperandField.tlbiAside1os rt h
  | tlbiAside1nxs rt => exact Laws.OperandField.tlbiAside1nxs rt h
  | tlbiAside1isnxs rt => exact Laws.OperandField.tlbiAside1isnxs rt h
  | tlbiAside1osnxs rt => exact Laws.OperandField.tlbiAside1osnxs rt h

/-- Every instruction is that of a row. -/
theorem exists_opcodeRow (i : Instr) : ∃ r ∈ opcodeRows, r.instr i.rt = i := by
  cases i <;> simp [opcodeRows, Instr.rt]

/-- A row's instruction has the operand it is given. -/
theorem opcodeRow_rt {r : OpcodeRow} (hr : r ∈ opcodeRows) (rt : Nat) : (r.instr rt).rt = rt := by
  simp only [opcodeRows, List.mem_cons, List.not_mem_nil, or_false] at hr
  obtain rfl | rfl | rfl | rfl | rfl | rfl := hr <;> rfl

/-- The field columns of R92, which the encoder reads, give the pattern in the column `match`, which the decoder reads. -/
theorem encode_and_opcodeMask {r : OpcodeRow} (hr : r ∈ opcodeRows) (rt : Nat) : encode (r.instr rt) &&& opcodeMask = r.pattern := by
  simp only [opcodeRows, List.mem_cons, List.not_mem_nil, or_false] at hr
  obtain rfl | rfl | rfl | rfl | rfl | rfl := hr <;> exact (sysWord_and_opcodeMask _ _ _ _ _ rt).trans (by decide)

/-! ### Decoding and encoding -/

/-- In a map whose patterns all differ, the row a word fits is the one that is found. -/
theorem findRow_of_mem {w : Word} {r : OpcodeRow} {rows : List OpcodeRow} (hrows : rows.Pairwise fun a b => a.pattern ≠ b.pattern)
    (hr : r ∈ rows) (hw : w &&& opcodeMask = r.pattern) : findRow w rows = some (r.instr (rtField w)) := by
  induction rows with
  | nil => cases hr
  | cons a rows ih =>
    obtain ⟨hne, hrows⟩ := List.pairwise_cons.mp hrows
    rw [findRow]
    obtain rfl | hr := List.mem_cons.mp hr
    · exact if_pos hw
    · rw [if_neg fun ha => hne r hr (ha.symm.trans hw)]
      exact ih hrows hr

/-- Settles O1: the encoding fits the row of the instruction and no other, and its operand field is the operand. -/
theorem decodeOfEncode : Obligations.DecodeOfEncode := by
  intro i hwf
  obtain ⟨r, hr, hi⟩ := exists_opcodeRow i
  have hfits : encode i &&& opcodeMask = r.pattern := by
    rw [← hi]; exact encode_and_opcodeMask hr i.rt
  rw [decode_ok_iff, findRow_of_mem opcodeRows_disjoint hr hfits, rtField_encode hwf, hi]

/-- Settles O2: the word and the encoding of its instruction agree in the fixed bits, which are the row's, and in the operand field. -/
theorem encodeOfDecode : Obligations.EncodeOfDecode := by
  intro w i hdecode
  obtain ⟨r, hr, hfits, rfl⟩ := findRow_some ((decode_ok_iff w i).mp hdecode)
  have hwf : (r.instr (rtField w)).wellFormed = true := by
    rw [wellFormed_iff, opcodeRow_rt hr]; exact rtField_lt w
  refine ⟨hwf, word_eq_of_fields ?_ ?_⟩
  · rw [encode_and_opcodeMask hr, hfits]
  · rw [rtField_encode hwf, opcodeRow_rt hr]

/-- Settles O3: the decoder evaluated on each word. -/
theorem writtenWordsDecode : Obligations.WrittenWordsDecode :=
  ⟨rfl, rfl, rfl, rfl, rfl, rfl, rfl⟩

end Sys2Proof
end

section
/-! PROOF. What a step makes of a word: it runs the instruction the word decodes to, or rejects the word by the class its fields give it
(30_encoding.md R91, R94, R95; 45_tlbi_aside1.md R251; 41_tlb_lockdown.md R141). -/

namespace Sys2Proof

/-! ### The classes of words, by their fields -/

/-- The reserved encodings by their fields (R94). -/
theorem isImplementationDefined_iff (w : Word) : isImplementationDefined w = true ↔
    w.extractLsb' 22 10 = 0b1101010100#10 ∧ (w.extractLsb' 19 2 = 0b01#2 ∨ w.extractLsb' 19 2 = 0b11#2)
      ∧ (w.extractLsb' 12 4 = 0b1011#4 ∨ w.extractLsb' 12 4 = 0b1111#4) := by
  simp only [isImplementationDefined, isSystemWord, op0Field, crnField, Bool.and_eq_true, Bool.or_eq_true, beq_iff_eq, and_assoc]

/-- The `TLBI` space by its fields (R91). -/
theorem isTlbiWord_iff (w : Word) : isTlbiWord w = true ↔
    w.extractLsb' 22 10 = 0b1101010100#10 ∧ w.getLsbD 21 = false ∧ w.extractLsb' 19 2 = 0b01#2
      ∧ (w.extractLsb' 12 4 = 0b1000#4 ∨ w.extractLsb' 12 4 = 0b1001#4) := by
  simp only [isTlbiWord, isSystemWord, op0Field, crnField, Bool.and_eq_true, Bool.or_eq_true, beq_iff_eq, Bool.not_eq_true', and_assoc]

/-- The two spaces are apart: their words differ in `CRn`. -/
theorem isTlbiWord_of_isImplementationDefined {w : Word} (h : isImplementationDefined w = true) : isTlbiWord w = false := by
  obtain ⟨-, -, hcrn⟩ := (isImplementationDefined_iff w).mp h
  refine Bool.eq_false_iff.mpr fun htlbi => ?_
  obtain ⟨-, -, -, hcrn'⟩ := (isTlbiWord_iff w).mp htlbi
  obtain h1 | h1 := hcrn <;> obtain h2 | h2 := hcrn' <;> exact absurd (h1.symm.trans h2) (by decide)

/-- A field above the operand field reads the fixed bits alone. -/
theorem extractLsb'_and_opcodeMask (w : Word) {start len : Nat} (hlow : 5 ≤ start) (hhigh : start + len ≤ 32) :
    (w &&& opcodeMask).extractLsb' start len = w.extractLsb' start len := by
  apply BitVec.eq_of_getLsbD_eq
  intro k hk
  simp [getLsbD_opcodeMask (start + k) (by omega), show 5 ≤ start + k by omega]

/-- Whether a word lies in the `TLBI` space does not depend on its operand field. -/
theorem isTlbiWord_and_opcodeMask (w : Word) : isTlbiWord (w &&& opcodeMask) = isTlbiWord w := by
  have hbit : (w &&& opcodeMask).getLsbD 21 = w.getLsbD 21 := by
    rw [BitVec.getLsbD_and, getLsbD_opcodeMask 21 (by decide)]; exact Bool.and_true _
  simp only [isTlbiWord, isSystemWord, op0Field, crnField, hbit, extractLsb'_and_opcodeMask w (start := 22) (len := 10),
    extractLsb'_and_opcodeMask w (start := 19) (len := 2), extractLsb'_and_opcodeMask w (start := 12) (len := 4), Nat.reduceLeDiff,
    Nat.reduceAdd, le_refl]

/-- Every word that decodes lies in the `TLBI` space (R92). -/
theorem isTlbiWord_of_decode {w : Word} {i : Instr} (h : decode w = .ok i) : isTlbiWord w = true := by
  obtain ⟨r, hr, hfits, -⟩ := findRow_some ((decode_ok_iff w i).mp h)
  have hrows : ∀ r ∈ opcodeRows, isTlbiWord r.pattern = true := by simp only [opcodeRows, List.forall_mem_cons]; decide
  rw [← isTlbiWord_and_opcodeMask, hfits]
  exact hrows r hr

/-- A word that decodes to no instruction is rejected by its class. -/
theorem decode_eq_error {w : Word} (h : ∀ i, decode w ≠ .ok i) : decode w = .error (rejectClass w) := by
  have hnone : findRow w opcodeRows = none := by
    refine Option.eq_none_iff_forall_ne_some.mpr fun i hi => h i ((decode_ok_iff w i).mpr hi)
  rw [decode, hnone]

/-- A reserved word is no instruction of the table, and is rejected as reserved. -/
theorem decode_of_isImplementationDefined {w : Word} (h : isImplementationDefined w = true) :
    decode w = .error .implementationDefined := by
  have hno : ∀ i, decode w ≠ .ok i := fun i hi =>
    Bool.false_ne_true ((isTlbiWord_of_isImplementationDefined h).symm.trans (isTlbiWord_of_decode hi))
  rw [decode_eq_error hno, rejectClass, if_pos h]

end Sys2Proof

namespace Sys2Proof.Machine

/-! ### A step that is given a word -/

/-- A word at the head of the agenda is run by its PE. -/
theorem step_instr {s : State} {p : Nat} {w : Word} {rest : List Event} (h : s.agenda = .instr p w :: rest) :
    step s = runWord (s.withAgenda rest) p w :=
  step_of_agenda h

theorem runWord_of_decode {s : State} {p : Nat} {w : Word} {i : Instr} (h : decode w = .ok i) : runWord s p w = exec i (s.withCur p) := by
  rw [runWord, h]

theorem runWord_of_reject {s : State} {p : Nat} {w : Word} {r : DecodeReject} (h : decode w = .error r) :
    runWord s p w = rejectWord (s.withCur p) w r := by
  rw [runWord, h]

/-- Where lockdown is not supported a reserved word is refused (R94, R148). -/
theorem rejectWord_of_unsupported {s : State} {w : Word} (h : s.impl.lockdownSupported = false) :
    rejectWord s w .implementationDefined = .refused (.implementationDefinedEncoding w) := by
  rw [rejectWord, h, if_neg Bool.false_ne_true]

/-- Settles O5: the word is run in the state that the agenda leaves. -/
theorem stepRunsDecodedInstruction : Obligations.StepRunsDecodedInstruction := by
  intro s p w i rest hagenda hdecode
  rw [step_instr hagenda, runWord_of_decode hdecode]
  rfl

/-- Settles O4: a word that is no encoding does not decode (O2), and its class is its reject. -/
theorem otherWordsAreRefused : Obligations.OtherWordsAreRefused := by
  intro s p w rest hagenda hno system op0 crn reserved maintenance
  have hreject : decode w = .error (rejectClass w) := by
    refine decode_eq_error fun i hi => ?_
    obtain ⟨hwf, hencode⟩ := encodeOfDecode w i hi
    exact hno i hwf hencode
  have hstep : step s = rejectWord ((s.withAgenda rest).withCur p) w (rejectClass w) :=
    (step_instr hagenda).trans (runWord_of_reject hreject)
  have hreserved : reserved ↔ isImplementationDefined w = true := (isImplementationDefined_iff w).symm
  have hmaintenance : maintenance ↔ isTlbiWord w = true := (isTlbiWord_iff w).symm
  refine ⟨fun hres hlock => ?_, fun hmaint => ?_, fun hres hmaint => ?_⟩
  · rw [hstep, rejectClass, if_pos (hreserved.mp hres)]
    exact rejectWord_of_unsupported hlock
  · have htlbi := hmaintenance.mp hmaint
    have hres : ¬ isImplementationDefined w = true := fun h =>
      Bool.false_ne_true ((isTlbiWord_of_isImplementationDefined h).symm.trans htlbi)
    rw [hstep, rejectClass, if_neg hres, if_pos htlbi]
    rfl
  · rw [hstep, rejectClass, if_neg (mt hreserved.mpr hres), if_neg (mt hmaintenance.mpr hmaint)]
    rfl

/-! ### The lockdown mechanism -/

/-- A lockdown operation at the head of the agenda is the operation of the mechanism. -/
theorem step_lockdown {s : State} {op : LockdownOp} {rest : List Event} (h : s.agenda = .lockdown op :: rest) :
    step s = lockdownAct (s.withAgenda rest) op :=
  step_of_agenda h

/-- Settles O57: the word is rejected as reserved, which gives it to the mechanism where lockdown is supported and the PE exists; and each
operation of a sequence is the step of the act of that operation. -/
theorem reservedWordsRunTheMechanism : Obligations.ReservedWordsRunTheMechanism := by
  refine ⟨fun s p pe w rest hagenda hpe hlock hsystem hop0 hcrn => ?_, fun s => ⟨rfl, fun op ops => ?_⟩⟩
  · have hreject := decode_of_isImplementationDefined ((isImplementationDefined_iff w).mpr ⟨hsystem, hop0, hcrn⟩)
    rw [step_instr hagenda, runWord_of_reject hreject]
    exact (if_pos hlock).trans (onPe_some _ hpe)
  · have hstep : step { s with agenda := .lockdown op :: s.agenda } = lockdownAct s op := step_lockdown rfl
    rw [hstep]
    rfl

/-! ### The operand, and features that are absent -/

/-- Bit `k` of the operand is bit `48 + k` of the register value (R93). -/
theorem getLsbD_asidOperand (v : XWord) {k : Nat} (hk : k < 16) : (asidOperand v).getLsbD k = v.getLsbD (48 + k) := by
  rw [asidOperand, BitVec.getLsbD_extractLsb', decide_eq_true hk, Bool.true_and]

/-- Settles O10: register 31 is the zero register, and the operand of any other is the field of its value. -/
theorem operandIsTopSixteenBits : Obligations.OperandIsTopSixteenBits := by
  refine fun pe t => ⟨?_, fun ht k hk => ?_, fun v v' h => h⟩
  · rw [xRead_zr]; rfl
  · rw [getLsbD_asidOperand _ hk, xRead, dif_pos ht]

/-- A member of the family whose feature is absent is refused, whether or not `TLBI_ALLOWED` holds (R92; Log 23). -/
theorem tlbi_of_absent {feature : Bool} {targets : List Nat} {rt : Nat} {s : State} {pe : Pe} (hpe : s.pe? s.cur = some pe)
    (h : feature = false) : tlbi feature targets rt s = .refused .featureAbsent := by
  rw [tlbi, onPe_some _ hpe, h, if_neg Bool.false_ne_true]

/-- Settles O12: the feature each form names is absent. -/
theorem absentFeatureIsRefused : Obligations.AbsentFeatureIsRefused := by
  refine fun s pe rt hpe => ⟨fun hos => ⟨?_, ?_⟩, fun hxs => ⟨?_, ?_, ?_⟩⟩
  · exact tlbi_of_absent hpe hos
  · exact tlbi_of_absent hpe (by rw [hos, Bool.false_and])
  · exact tlbi_of_absent hpe hxs
  · exact tlbi_of_absent hpe hxs
  · exact tlbi_of_absent hpe (by rw [hxs, Bool.and_false])

end Sys2Proof.Machine
end

section
/-! PROOF. What `T_FILL` may cache, and what it makes of it (40_tlb_caching.md R111, R113, R115; 60_exceptions.md R262). -/

namespace Sys2Proof.Machine

/-! ### Regimes that are out-of-context -/

/-- The closed list of R111. -/
theorem outOfContext_iff (el : El) (regime : Regime) : outOfContext el regime = true ↔
    ((el = .el2 ∨ el = .el3) ∧ regime = .el10) ∨ (el = .el3 ∧ (regime = .el2 ∨ regime = .el20)) := by
  simp only [outOfContext, Bool.or_eq_true, Bool.and_eq_true, beq_iff_eq]

theorem inContext_iff (el : El) (regime : Regime) : inContext el regime = true ↔ outOfContext el regime = false := by
  rw [inContext, Bool.not_eq_true']

/-- Settles O24: the list, and its complement. -/
theorem outOfContextCases : Obligations.OutOfContextCases :=
  fun el regime => ⟨outOfContext_iff el regime, inContext_iff el regime⟩

/-! ### The entry of a pick -/

section
variable {impl : Impl} {pe : Pe} {req : Request} {w : Walk}

/-- A permitted level whose range is not empty gives its entry. -/
theorem fillEntry_single {i : Nat} {l : WalkLevel} (h : fillPermitted impl pe req.regime w i l) (hsize : l.iaSize ≠ 0) :
    fillEntry impl pe req w (.single i) = some (singleEntry impl pe req w i l) := by
  rw [fillEntry, fillableLevel_iff.mpr h]
  exact if_neg hsize

/-- A permitted level of each stage gives the combined entry, where the joined range is not empty. -/
theorem fillEntry_combined {i1 i2 : Nat} {l1 l2 : WalkLevel} (h1 : fillPermitted impl pe req.regime w i1 l1)
    (h2 : fillPermitted impl pe req.regime w i2 l2) (hs1 : l1.stage = .s1) (hs2 : l2.stage = .s2)
    (hsize : (Config.combinedRange l1 l2).2 ≠ 0) :
    fillEntry impl pe req w (.combined i1 i2) = some (combinedEntry impl pe req w i1 i2 l1 l2) := by
  rw [fillEntry, fillableLevel_iff.mpr h1, fillableLevel_iff.mpr h2]
  exact (if_pos ⟨hs1, hs2⟩).trans (if_neg hsize)

/-- The entry of one level alone is that of a permitted level. -/
theorem fillEntry_single_eq_some {i : Nat} {e : TlbEntry} (h : fillEntry impl pe req w (.single i) = some e) :
    ∃ l, fillPermitted impl pe req.regime w i l ∧ e = singleEntry impl pe req w i l := by
  obtain ⟨j, l, hl, he, -, hpick⟩ | ⟨_, _, _, _, -, -, -, -, -, -, hpick⟩ := fillEntry_cases h
  · cases hpick; exact ⟨l, fillableLevel_iff.mp hl, he⟩
  · cases hpick

/-- A combined entry is that of a permitted level of each stage. -/
theorem fillEntry_combined_eq_some {i1 i2 : Nat} {e : TlbEntry} (h : fillEntry impl pe req w (.combined i1 i2) = some e) :
    ∃ l1 l2, fillPermitted impl pe req.regime w i1 l1 ∧ fillPermitted impl pe req.regime w i2 l2
      ∧ l1.stage = .s1 ∧ l2.stage = .s2 ∧ e = combinedEntry impl pe req w i1 i2 l1 l2 := by
  obtain ⟨_, _, -, -, -, hpick⟩ | ⟨j1, j2, l1, l2, hl1, hl2, hs1, hs2, he, -, hpick⟩ := fillEntry_cases h
  · cases hpick
  · cases hpick; exact ⟨l1, l2, fillableLevel_iff.mp hl1, fillableLevel_iff.mp hl2, hs1, hs2, he⟩

/-- The entry of a stage 1 level alone has the VA range of its own addresses. -/
theorem singleEntry_of_s1 (i : Nat) {l : WalkLevel} (h : l.stage = .s1) : (singleEntry impl pe req w i l).contents = .s1Only
    ∧ (singleEntry impl pe req w i l).half = halfOf req.regime l.iaBase := by
  simp only [singleEntry, h, and_self]

/-- The entry of a stage 2 level alone has no VA range. -/
theorem singleEntry_of_s2 (i : Nat) {l : WalkLevel} (h : l.stage = .s2) : (singleEntry impl pe req w i l).contents = .s2Only
    ∧ (singleEntry impl pe req w i l).half = none := by
  simp only [singleEntry, h, and_self]

/-- Where `FILL_OUT_OF_CONTEXT` is false, no pick of any walk gives an entry of an out-of-context regime: every entry is made of some
level, and each level has to be in context. -/
theorem fillEntry_of_outOfContext (hno : impl.fillOutOfContext = false) (hout : outOfContext pe.ctx.el req.regime = true)
    (pick : FillPick) : fillEntry impl pe req w pick = none := by
  have hlevel : ∀ i l, ¬ fillPermitted impl pe req.regime w i l := by
    rintro i l ⟨-, -, hin | hfill, -⟩
    · rw [inContext_iff, hout] at hin; cases hin
    · rw [hno] at hfill; cases hfill
  refine Option.eq_none_iff_forall_ne_some.mpr fun e he => ?_
  cases pick with
  | single i => obtain ⟨l, hl, -⟩ := fillEntry_single_eq_some he; exact hlevel i l hl
  | combined i1 i2 => obtain ⟨l1, -, hl1, -⟩ := fillEntry_combined_eq_some he; exact hlevel i1 l1 hl1

end

/-- A snapshot holds the Effective values of the cacheable fields in use, and nothing else (10_state.md R24; Log 18). -/
theorem mem_ctlSnapshot {impl : Impl} {pe : Pe} {regime : Regime} {c : Contents} {f : Field} {v : FieldValue} :
    (f, v) ∈ ctlSnapshot impl pe regime c ↔ f ∈ cacheableFields impl ∧ fieldUsed regime c f = true ∧ v = eff impl pe f := by
  simp only [ctlSnapshot, List.mem_map, List.mem_filter, Prod.mk.injEq]
  constructor
  · rintro ⟨g, ⟨hg, hused⟩, rfl, rfl⟩; exact ⟨hg, hused, rfl⟩
  · rintro ⟨hf, hused, rfl⟩; exact ⟨f, ⟨hf, hused⟩, rfl, rfl⟩

/-- Settles O60: each kind of pick, of permitted levels. -/
theorem permittedFillsAreAdmitted : Obligations.PermittedFillsAreAdmitted :=
  fun _ _ _ _ => ⟨fun _ _ hl hsize => ⟨_, fillEntry_single hl hsize⟩,
    fun _ _ _ _ hl1 hl2 hs1 hs2 hsize => ⟨_, fillEntry_combined hl1 hl2 hs1 hs2 hsize⟩⟩

/-! ### The act of filling -/

/-- A fill by an existing PE, at the head of the agenda, appends the entries of the picks (R113). -/
theorem step_fill {s : State} {p : Nat} {pe : Pe} {regime : Regime} {sec : Sec} {ia : Nat} {access : Access} {plan : WalkPlan}
    {rest : List Event} (hagenda : s.agenda = .fill p regime sec ia access plan :: rest) (hpe : s.pe? p = some pe) :
    step s = .next (speculativeFill (s.withAgenda rest) pe
      { pe := p, regime := regime, sec := sec, ia := ia, access := access } plan) :=
  (step_of_agenda hagenda).trans (onPe_some _ hpe)

/-- Settles O25: the step by the equation of the fills, and the fields of the entry by the kind of the pick. -/
theorem fillsOnlyWhatIsPermitted : Obligations.FillsOnlyWhatIsPermitted := by
  refine ⟨fun s p pe regime sec ia access plan rest hagenda hpe => ?_, fun impl pe req w pick e he => ?_⟩
  · rw [step_fill hagenda hpe, speculativeFill, fills_eq]
    rfl
  · obtain ⟨howner, hregime, hsec, hlocked, hsize, -, hctl, -⟩ := fillEntry_fixed he
    refine ⟨howner, hregime, hsec, hlocked, hsize, fun f v => by rw [hctl, mem_ctlSnapshot], ?_, ?_⟩
    · rintro i rfl
      obtain ⟨l, hl, rfl⟩ := fillEntry_single_eq_some he
      exact ⟨l, hl, rfl, rfl, rfl, rfl, singleEntry_of_s1 i, singleEntry_of_s2 i⟩
    · rintro i1 i2 rfl
      obtain ⟨l1, l2, hl1, hl2, hs1, hs2, rfl⟩ := fillEntry_combined_eq_some he
      exact ⟨l1, l2, hl1, hl2, hs1, hs2, rfl, rfl, rfl, rfl, rfl⟩

/-- A fill for an out-of-context regime adds nothing. -/
theorem speculativeFill_of_outOfContext {s : State} {pe : Pe} {req : Request} (plan : WalkPlan)
    (hno : s.impl.fillOutOfContext = false) (hout : outOfContext pe.ctx.el req.regime = true) :
    (speculativeFill s pe req plan).tlbs = s.tlbs := by
  have hnone : plan.fills.filterMap (fillEntry s.impl pe req (walkFor s pe req plan.entries .root)) = [] :=
    List.filterMap_eq_nil_iff.mpr fun pick _ => fillEntry_of_outOfContext hno hout pick
  rw [speculativeFill, fills_eq, withTlbs_tlbs, hnone, List.append_nil]

/-- A lookup for an out-of-context regime adds nothing. -/
theorem lookup_of_outOfContext {s : State} {pe : Pe} {req : Request} (ch : LookupChoice) (hno : s.impl.fillOutOfContext = false)
    (hout : outOfContext pe.ctx.el req.regime = true) : (lookup s pe req ch).tlbs = s.tlbs := by
  obtain ⟨es, a, heq, hes⟩ := lookup_looksUp s pe req ch
  have hnil : es = [] := List.eq_nil_iff_forall_not_mem.mpr fun e he => by
    obtain ⟨start, plan, -, pick, -, hpick⟩ := hes e he
    rw [fillEntry_of_outOfContext hno hout] at hpick
    cases hpick
  rw [heq, withAnswer_tlbs, withTlbs_tlbs, hnil, List.append_nil]

/-- Settles O26: neither kind of act adds an entry. -/
theorem outOfContextRegimesAreNotFilled : Obligations.OutOfContextRegimesAreNotFilled := by
  intro s t p pe ev rest regime hagenda hpe hno hout hev hstep
  have hact := act_next ((step_of_agenda hagenda).symm.trans hstep)
  obtain ⟨sec, ia, access, plan, rfl⟩ | ⟨rfl, ia, access, ch, rfl⟩ := hev
  · obtain ⟨pe', hpe', rfl⟩ := hact
    obtain rfl : pe = pe' := Option.some_inj.mp (hpe.symm.trans hpe')
    exact speculativeFill_of_outOfContext plan hno hout
  · obtain ⟨pe', hpe', rfl⟩ := hact
    obtain rfl : pe = pe' := Option.some_inj.mp (hpe.symm.trans hpe')
    exact lookup_of_outOfContext ch hno hout

end Sys2Proof.Machine
end

section
/-! PROOF. What matches a request (40_tlb_caching.md R120, R121; 42_asid_vmid_tagging.md R161). -/

namespace Sys2Proof.Machine

/-! ### The lines of `Match` -/

theorem asidMatches_iff (impl : Impl) (pe : Pe) (req : Request) (e : TlbEntry) : asidMatches impl pe req e = true ↔
    e.asid = none ∨ e.asid = currentAsid impl pe req.regime (Config.halfOf req.regime req.ia) := by
  unfold asidMatches
  split
  · next h => simp only [h, true_or]
  · next a h => rw [h, beq_iff_eq, eq_comm, or_iff_right (Option.some_ne_none a)]

theorem vmidMatches_iff (impl : Impl) (pe : Pe) (e : TlbEntry) : vmidMatches impl pe e = true ↔
    e.vmid = none ∨ e.vmid = some (currentVmid impl pe) := by
  unfold vmidMatches
  split
  · next h => simp only [h, true_or]
  · next v h => rw [h, beq_iff_eq, eq_comm, or_iff_right (Option.some_ne_none v), Option.some_inj]

theorem stagesEnabled_iff (impl : Impl) (pe : Pe) (regime : Regime) (c : Contents) : stagesEnabled impl pe regime c = true ↔
    (c.holdsS1 = true → stageEnabled impl pe regime .s1 = true) ∧ (c.holdsS2 = true → stageEnabled impl pe regime .s2 = true) := by
  cases c <;> simp [stagesEnabled, Contents.stages, Contents.holdsS1, Contents.holdsS2]

/-- Every line of `Match` but the one on the address, exactly. -/
theorem contextMatches_iff {impl : Impl} {pe : Pe} {req : Request} {e : TlbEntry} : contextMatches impl pe req e = true ↔
    e.regime = req.regime ∧ e.sec = req.sec
      ∧ (e.asid = none ∨ e.asid = currentAsid impl pe req.regime (Config.halfOf req.regime req.ia))
      ∧ (e.vmid = none ∨ e.vmid = some (currentVmid impl pe))
      ∧ (e.contents.holdsS1 = true → stageEnabled impl pe req.regime .s1 = true)
      ∧ (e.contents.holdsS2 = true → stageEnabled impl pe req.regime .s2 = true) := by
  simp only [contextMatches, Bool.and_eq_true, beq_iff_eq, asidMatches_iff, vmidMatches_iff, stagesEnabled_iff, and_assoc]

theorem inputMatches_iff {e : TlbEntry} {ia : Nat} : inputMatches e ia = true ↔ coversAddress e ia := by
  simp only [inputMatches, coversAddress, Bool.and_eq_true, decide_eq_true_eq]

theorem holdsS1_eq_false_iff (c : Contents) : c.holdsS1 = false ↔ c = .s2Only := by
  cases c <;> simp [Contents.holdsS1]

/-! ### The members for an address -/

section
variable {s : State} {pe : Pe} {req : Request} {e : TlbEntry}

/-- The law of tags is exactly that the entry is there, that the PE may use it, and every line of `Match` but the one on the address. -/
theorem tagLaw_iff : tagLaw s pe req e ↔ e ∈ s.tlbs ∧ usable s req.pe e = true ∧ contextMatches s.impl pe req e = true := by
  rw [contextMatches_iff, tagLaw]

theorem mem_vaMembers : e ∈ vaMembers s pe req ↔
    (tagLaw s pe req e ∧ e.final = true ∧ coversAddress e req.ia) ∧ e.contents.holdsS1 = true := by
  simp only [vaMembers, List.mem_filter, Bool.and_eq_true, entryMatches, inputMatches_iff, tagLaw_iff]
  tauto

theorem mem_oaMembers {oa : Nat} : e ∈ oaMembers s pe req oa ↔
    (tagLaw s pe req e ∧ e.final = true ∧ coversAddress e oa) ∧ e.contents = .s2Only := by
  simp only [oaMembers, List.mem_filter, Bool.and_eq_true, Bool.not_eq_true', holdsS1_eq_false_iff, entryMatches, inputMatches_iff,
    tagLaw_iff]
  tauto

theorem mem_stage1Outputs {es : List TlbEntry} {ia oa : Nat} :
    oa ∈ stage1Outputs es ia ↔ ∃ e1 ∈ es, e1.contents = .s1Only ∧ outputFor e1 ia = oa := by
  simp only [stage1Outputs, List.mem_map, List.mem_filter, beq_iff_eq, and_assoc]

/-- With stage 1 enabled, `M` holds the entries for the input address and, where stage 2 applies, those for the output addresses of the
`S1Only` ones. -/
theorem mem_members_of_s1Enabled (hs1 : stageEnabled s.impl pe req.regime .s1 = true) : e ∈ members s pe req ↔
    e ∈ vaMembers s pe req
    ∨ (stage2Applies s.impl pe req.regime = true
      ∧ ∃ e1 ∈ vaMembers s pe req, e1.contents = .s1Only ∧ e ∈ oaMembers s pe req (outputFor e1 req.ia)) := by
  rw [members, if_pos hs1, List.mem_append]
  refine or_congr_right ?_
  split
  · next hs2 =>
    rw [List.mem_flatMap, and_iff_right hs2]
    constructor
    · rintro ⟨oa, ho, he⟩
      obtain ⟨e1, he1, hc, rfl⟩ := mem_stage1Outputs.mp ho
      exact ⟨e1, he1, hc, he⟩
    · rintro ⟨e1, he1, hc, he⟩
      exact ⟨_, mem_stage1Outputs.mpr ⟨e1, he1, hc, rfl⟩, he⟩
  · next hs2 => exact ⟨nofun, fun h => absurd h.1 hs2⟩

/-- With stage 1 disabled, `M` is the entries for its output address (Log 14). -/
theorem members_of_s1Disabled (hs1 : stageEnabled s.impl pe req.regime .s1 = false) :
    members s pe req = oaMembers s pe req (Config.disabledStage1Oa req) := by
  rw [members, hs1, if_neg Bool.false_ne_true]

end

/-- Settles O59: `M` by its parts, and each part by the law of tags. -/
theorem membersAreExact : Obligations.MembersAreExact := by
  intro s pe req e lawful
  have hlawful : ∀ a, lawful a ↔ tagLaw s pe req e ∧ e.final = true ∧ coversAddress e a := by
    intro a
    simp only [lawful, tagLaw, coversAddress]
    tauto
  refine ⟨?_, fun oa => ?_, mem_members_of_s1Enabled, fun hs1 => by rw [members_of_s1Disabled hs1]⟩
  · rw [hlawful, mem_vaMembers]
  · rw [hlawful, mem_oaMembers]

end Sys2Proof.Machine
end

section
/-! PROOF. What a lookup answers (40_tlb_caching.md R119, R120, R122, R123; 60_exceptions.md R260, R262 to R264). -/

namespace Sys2Proof.Machine

/-! ### A lookup is the next act -/

/-- A lookup by an existing PE, at the head of the agenda. -/
theorem step_lookup {s : State} {p : Nat} {pe : Pe} {ia : Nat} {access : Access} {ch : LookupChoice} {rest : List Event}
    (hagenda : s.agenda = .lookup p ia access ch :: rest) (hpe : s.pe? p = some pe) :
    step s = .next (lookup (s.withAgenda rest) pe (requestOf p pe ia access) ch) :=
  (step_of_agenda hagenda).trans (onPe_some _ hpe)

section
variable (s : State) (es : List Event) (pe : Pe) (req : Request)

@[simp] theorem vaMembers_withAgenda : vaMembers (s.withAgenda es) pe req = vaMembers s pe req := rfl
@[simp] theorem oaMembers_withAgenda (oa : Nat) : oaMembers (s.withAgenda es) pe req oa = oaMembers s pe req oa := rfl
@[simp] theorem members_withAgenda : members (s.withAgenda es) pe req = members s pe req := rfl

end

/-- Settles O27: what a lookup does, as `LooksUp` says it. -/
theorem lookupFrame : Obligations.LookupFrame := by
  intro s p pe ia access ch rest hagenda hpe req
  obtain ⟨es, a, heq, hes⟩ := lookup_looksUp (s.withAgenda rest) pe req ch
  refine ⟨es, a, ?_, fun e he => ?_⟩
  · rw [step_lookup hagenda hpe, heq]; rfl
  · obtain ⟨start, plan, hwalks, pick, hpick, hfill⟩ := hes e he
    exact ⟨start, plan, pick, hpick, hfill, hwalks⟩

/-! ### How a lookup ends -/

/-- The answer that a walk for a request gives: what is made of its result, its fault, or its external abort (R120, R262, R263). -/
def walkAnswer (req : Request) (translate : Payload → Translation) (w : Walk) : Answer :=
  match w.finish with
  | .ok result => .translated req (translate result)
  | .fault kind stage level _ => .faulted (walkFault req stage level kind)
  | .externalAbort stage level _ _ _ => .faulted (.externalAbortOnWalk req stage level)

/-- A walk raises no TLB conflict abort. -/
theorem walkAnswer_ne_conflict (req req' : Request) (translate : Payload → Translation) (w : Walk) :
    walkAnswer req translate w ≠ .faulted (.tlbConflictAbort req') := by
  unfold walkAnswer
  split
  · nofun
  · next kind _ _ _ _ => cases kind <;> nofun
  · nofun

section
variable (s : State) (pe : Pe) (req : Request)

theorem finishWalk_eq (w : Walk) : finishWalk s pe req w = s.withAnswer (walkAnswer req (fun result =>
    { payload := result, ctl := ctlSnapshot s.impl pe req.regime (requestContents s pe req), via := .walk }) w) := by
  unfold finishWalk walkAnswer
  cases w.finish <;> rfl

theorem finishStage2_eq (e1 : TlbEntry) (w : Walk) : finishStage2 s pe req e1 w = s.withAnswer (walkAnswer req (fun result =>
    { payload := Config.combinedPayload e1.payload result, ctl := e1.ctl ++ ctlSnapshot s.impl pe req.regime .s2Only
      via := .walkAfter e1 }) w) := by
  unfold finishStage2 walkAnswer
  cases w.finish <;> rfl

/-- A MISS records what the walk gives and appends the entries of the picks. -/
theorem miss_eq (plan : WalkPlan) : miss s pe req plan =
    (s.withTlbs (s.tlbs ++ plan.fills.filterMap (fillEntry s.impl pe req (walkFor s pe req plan.entries .root)))).withAnswer
      (walkAnswer req (fun result =>
        { payload := result, ctl := ctlSnapshot s.impl pe req.regime (requestContents s pe req), via := .walk })
        (walkFor s pe req plan.entries .root)) := by
  rw [miss, finishWalk_eq, fills_eq]
  rfl

/-- A MISS of stage 2 after an `S1Only` hit records what the stage 2 walk gives, joined to the entry, and appends the entries of the
picks. -/
theorem missStage2_eq (e1 : TlbEntry) (plan : WalkPlan) : missStage2 s pe req e1 plan =
    (s.withTlbs (s.tlbs ++ plan.fills.filterMap
        (fillEntry s.impl pe req (walkFor s pe req plan.entries (.stage2Of (outputFor e1 req.ia)))))).withAnswer
      (walkAnswer req (fun result =>
        { payload := Config.combinedPayload e1.payload result, ctl := e1.ctl ++ ctlSnapshot s.impl pe req.regime .s2Only
          via := .walkAfter e1 }) (walkFor s pe req plan.entries (.stage2Of (outputFor e1 req.ia)))) := by
  rw [missStage2, finishStage2_eq, fills_eq]
  rfl

end

/-! ### Draws from several matching entries (R123) -/

/-- Every pick but the abort draws a result from the members. -/
theorem conflictDraw_of_ne_abort {d : TlbEntry} {m : List TlbEntry} (hd : d ∈ m) {c : ConflictPick} (hc : c ≠ .abort) :
    ∃ r, conflictDraw d m c = some r ∧ drawnFrom m r.1 r.2 := by
  have hsome : ∃ r, conflictDraw d m c = some r := by
    cases c with
    | abort => exact absurd rfl hc
    | member k => exact ⟨_, rfl⟩
    | mix oa attrs perms ctl => exact ⟨_, rfl⟩
  exact hsome.imp fun r hr => ⟨hr, conflictDraw_spec hd hr⟩

theorem conflictOutcome_of_ne_abort (s : State) (req : Request) {d : TlbEntry} {m : List TlbEntry} (hd : d ∈ m) {c : ConflictPick}
    (hc : c ≠ .abort) : ∃ payload ctl, drawnFrom m payload ctl
      ∧ conflictOutcome s req d m c = respond s req payload ctl .conflict := by
  obtain ⟨r, hr, hdrawn⟩ := conflictDraw_of_ne_abort hd hc
  exact ⟨r.1, r.2, hdrawn, by rw [conflictOutcome, hr]⟩

theorem conflictStage2_of_ne_abort (s : State) (req : Request) (e1 : TlbEntry) {d : TlbEntry} {m : List TlbEntry} (hd : d ∈ m)
    {c : ConflictPick} (hc : c ≠ .abort) : ∃ payload ctl, drawnFrom m payload ctl
      ∧ conflictStage2 s req e1 d m c
        = respond s req (Config.combinedPayload e1.payload payload) (e1.ctl ++ ctl) (.conflictAfter e1) := by
  obtain ⟨r, hr, hdrawn⟩ := conflictDraw_of_ne_abort hd hc
  exact ⟨r.1, r.2, hdrawn, by rw [conflictStage2, hr]⟩

/-- A payload drawn from members that agree on theirs is that payload. -/
theorem drawnFrom.payload_eq {m : List TlbEntry} {payload common : Payload} {ctl : Snapshot} (h : drawnFrom m payload ctl)
    (hm : ∀ e ∈ m, e.payload = common) : payload = common := by
  obtain ⟨⟨e1, h1, hoa⟩, ⟨e2, h2, hattrs⟩, ⟨e3, h3, hperms⟩, -⟩ := h
  rw [hm e1 h1] at hoa
  rw [hm e2 h2] at hattrs
  rw [hm e3 h3] at hperms
  cases payload; cases common
  rw [Payload.mk.injEq]
  exact ⟨hoa, hattrs, hperms⟩

/-! ### Each choice of a lookup -/

section
variable {s : State} {pe : Pe} {req : Request}

theorem lookup_of_enabled (h : stageEnabled s.impl pe req.regime .s1 = true ∨ stage2Applies s.impl pe req.regime = true)
    (ch : LookupChoice) : lookup s pe req ch = lookupChosen s pe req ch :=
  if_pos (Bool.or_eq_true_iff.mpr h)

theorem lookup_of_disabled (h1 : stageEnabled s.impl pe req.regime .s1 = false) (h2 : stage2Applies s.impl pe req.regime = false)
    (ch : LookupChoice) : lookup s pe req ch = s.withAnswer (.untranslated req) := by
  rw [lookup, h1, h2, Bool.or_false, if_neg Bool.false_ne_true]

theorem hitMembers_of_s1Enabled (h : stageEnabled s.impl pe req.regime .s1 = true) : hitMembers s pe req = vaMembers s pe req :=
  if_pos h

theorem hitMembers_of_s1Disabled (h : stageEnabled s.impl pe req.regime .s1 = false) :
    hitMembers s pe req = oaMembers s pe req (Config.disabledStage1Oa req) := by
  rw [hitMembers, h, if_neg Bool.false_ne_true]

theorem lookupChosen_hit {e : TlbEntry} (h : hitMembers s pe req = [e]) (second : StageChoice) :
    lookupChosen s pe req { first := .hit, second := second } = hitEntry s pe req e second := by
  simp only [lookupChosen, h]

theorem lookupChosen_multi (h : 2 ≤ (members s pe req).length) (c : ConflictPick) (second : StageChoice) :
    ∃ d ∈ members s pe req,
      lookupChosen s pe req { first := .multi c, second := second } = conflictOutcome s req d (members s pe req) c := by
  match hm : members s pe req with
  | [] => simp [hm] at h
  | [d] => simp [hm] at h
  | d :: d' :: m => exact ⟨d, List.mem_cons_self, by simp only [lookupChosen, hm]⟩

theorem lookupChosen_miss (plan : WalkPlan) (second : StageChoice) :
    lookupChosen s pe req { first := .miss plan, second := second } = miss s pe req plan := rfl

/-- A hit on an entry that holds all the request needs answers it as cached. -/
theorem hitEntry_of_whole {e : TlbEntry} (h : e.contents ≠ .s1Only ∨ stage2Applies s.impl pe req.regime = false)
    (second : StageChoice) : hitEntry s pe req e second = respond s req e.payload e.ctl (.hit e) :=
  if_neg fun hc => h.elim (· hc.1) fun h2 => Bool.false_ne_true (h2.symm.trans hc.2)

/-- A hit on an `S1Only` entry is followed by the lookup of its output where stage 2 applies. -/
theorem hitEntry_of_s1Only {e : TlbEntry} (hc : e.contents = .s1Only) (h2 : stage2Applies s.impl pe req.regime = true)
    (second : StageChoice) : hitEntry s pe req e second = lookupStage2 s pe req e second :=
  if_pos ⟨hc, h2⟩

theorem lookupStage2_hit {e1 e2 : TlbEntry} (h : oaMembers s pe req (outputFor e1 req.ia) = [e2]) :
    lookupStage2 s pe req e1 .hit
      = respond s req (Config.combinedPayload e1.payload e2.payload) (e1.ctl ++ e2.ctl) (.pair e1 e2) := by
  simp only [lookupStage2, h]

theorem lookupStage2_multi {e1 : TlbEntry} (h : 2 ≤ (oaMembers s pe req (outputFor e1 req.ia)).length) (c : ConflictPick) :
    ∃ d ∈ oaMembers s pe req (outputFor e1 req.ia),
      lookupStage2 s pe req e1 (.multi c) = conflictStage2 s req e1 d (oaMembers s pe req (outputFor e1 req.ia)) c := by
  match hm : oaMembers s pe req (outputFor e1 req.ia) with
  | [] => simp [hm] at h
  | [d] => simp [hm] at h
  | d :: d' :: m => exact ⟨d, List.mem_cons_self, by simp only [lookupStage2, hm]⟩

theorem lookupStage2_miss (e1 : TlbEntry) (plan : WalkPlan) :
    lookupStage2 s pe req e1 (.miss plan) = missStage2 s pe req e1 plan := rfl

end

/-- Settles O30: neither stage is applied. -/
theorem disabledStagesUntranslated : Obligations.DisabledStagesUntranslated := by
  intro s p pe ia access ch rest hagenda hpe h1 h2
  rw [step_lookup hagenda hpe, lookup_of_disabled h1 h2]
  rfl

/-- Settles O29: the choice HIT on the one entry, and the choice MISS. -/
theorem hitAndMissAdmitted : Obligations.HitAndMissAdmitted := by
  intro s p pe ia access second plan rest e hpe req stage1 stage2
  refine ⟨fun hagenda hs1 hwhole he => ?_, fun hagenda hon => ?_⟩
  · have hhit : hitMembers (s.withAgenda rest) pe req = [e] := (hitMembers_of_s1Enabled hs1).trans he
    rw [step_lookup hagenda hpe, lookup_of_enabled (.inl hs1), lookupChosen_hit hhit, hitEntry_of_whole hwhole]
    rfl
  · rw [step_lookup hagenda hpe, lookup_of_enabled hon, lookupChosen_miss, miss_eq]
    rfl

/-- Settles O32: the abort, or a result drawn from the members. -/
theorem conflictOutcomes : Obligations.ConflictOutcomes := by
  intro s p pe ia access pick second rest hagenda hpe req hon hmembers
  obtain ⟨d, hd, heq⟩ := lookupChosen_multi (s := s.withAgenda rest) hmembers pick second
  have hstep : step s = .next (conflictOutcome (s.withAgenda rest) req d (members s pe req) pick) := by
    rw [step_lookup hagenda hpe, lookup_of_enabled hon, heq, members_withAgenda]
  obtain rfl | hpick := eq_or_ne pick .abort
  · exact ⟨.faulted (.tlbConflictAbort req), hstep, fun _ => rfl, fun h => absurd rfl h⟩
  · obtain ⟨payload, ctl, hdrawn, hout⟩ := conflictOutcome_of_ne_abort (s.withAgenda rest) req hd hpick
    obtain ⟨hoa, hattrs, hperms, hctl⟩ := hdrawn
    refine ⟨.translated req { payload := payload, ctl := ctl, via := .conflict }, hstep.trans (congrArg _ hout),
      fun h => absurd h hpick, fun _ => ⟨_, rfl, rfl, hoa, hattrs, hperms, hctl, fun common hm => ?_⟩⟩
    exact drawnFrom.payload_eq ⟨hoa, hattrs, hperms, hctl⟩ hm

/-- Settles O55: the hit on the one entry, and the second lookup by its choice. -/
theorem twoStageLookup : Obligations.TwoStageLookup := by
  intro s p pe ia access second rest e hagenda hpe hs2 req oa
  have hstep : step s = .next (lookupChosen (s.withAgenda rest) pe req { first := .hit, second := second }) := by
    rw [step_lookup hagenda hpe, lookup_of_enabled (.inr hs2)]
  refine ⟨fun hoff he => ?_, fun hon he hc => ?_⟩
  · have hhit : hitMembers (s.withAgenda rest) pe req = [e] := (hitMembers_of_s1Disabled hoff).trans he
    obtain ⟨-, hcontents⟩ := mem_oaMembers.mp (he ▸ List.mem_cons_self : e ∈ oaMembers s pe req (Config.disabledStage1Oa req))
    rw [hstep, lookupChosen_hit hhit, hitEntry_of_whole (.inl (by rw [hcontents]; nofun))]
    rfl
  · have hhit : hitMembers (s.withAgenda rest) pe req = [e] := (hitMembers_of_s1Enabled hon).trans he
    have hsecond : step s = .next (lookupStage2 (s.withAgenda rest) pe req e second) := by
      rw [hstep, lookupChosen_hit hhit, hitEntry_of_s1Only hc hs2]
    refine ⟨?_, ?_, ?_⟩
    · rintro e2 rfl he2
      rw [hsecond, lookupStage2_hit (s := s.withAgenda rest) he2]
      rfl
    · rintro pick rfl htwo
      obtain ⟨d, hd, heq⟩ := lookupStage2_multi (s := s.withAgenda rest) (e1 := e) htwo pick
      rw [hsecond, heq]
      obtain rfl | hpick := eq_or_ne pick .abort
      · exact ⟨.faulted (.tlbConflictAbort req), rfl, fun _ => rfl, fun h => absurd rfl h⟩
      · obtain ⟨payload, ctl, hdrawn, hout⟩ := conflictStage2_of_ne_abort (s.withAgenda rest) req e hd hpick
        exact ⟨_, congrArg _ hout, fun h => absurd h hpick, fun _ => ⟨payload, ctl, hdrawn, rfl⟩⟩
    · rintro plan rfl
      rw [hsecond, lookupStage2_miss, missStage2_eq]
      rfl

/-! ### What raises a TLB conflict abort (R264) -/

/-- The answer is a TLB conflict abort. -/
def RaisesConflict (t : State) : Prop := ∃ req, t.answer = some (.faulted (.tlbConflictAbort req))

section
variable {s : State} {pe : Pe} {req : Request}

theorem not_raisesConflict_of_walkAnswer {t : State} {translate : Payload → Translation} {w : Walk} :
    ¬ RaisesConflict (t.withAnswer (walkAnswer req translate w)) := by
  rintro ⟨req', h⟩
  exact walkAnswer_ne_conflict req req' translate w (Option.some_inj.mp h)

theorem not_raisesConflict_miss {plan : WalkPlan} : ¬ RaisesConflict (miss s pe req plan) := by
  rw [miss_eq]; exact not_raisesConflict_of_walkAnswer

theorem not_raisesConflict_missStage2 {e1 : TlbEntry} {plan : WalkPlan} : ¬ RaisesConflict (missStage2 s pe req e1 plan) := by
  rw [missStage2_eq]; exact not_raisesConflict_of_walkAnswer

theorem not_raisesConflict_respond {payload : Payload} {ctl : Snapshot} {via : Via} :
    ¬ RaisesConflict (respond s req payload ctl via) := nofun

/-- A second lookup that raises the abort found two entries for the stage 1 output address. -/
theorem two_le_oaMembers_of_raisesConflict {e1 : TlbEntry} {ch : StageChoice} (h : RaisesConflict (lookupStage2 s pe req e1 ch)) :
    2 ≤ (oaMembers s pe req (outputFor e1 req.ia)).length := by
  unfold lookupStage2 at h
  split at h
  · split at h
    · exact absurd h not_raisesConflict_respond
    · exact absurd h not_raisesConflict_missStage2
  · split at h
    · next hm => rw [hm]; exact Nat.le_add_left ..
    · exact absurd h not_raisesConflict_missStage2
  · exact absurd h not_raisesConflict_missStage2

/-- The entries for the output address of a matching `S1Only` entry are all in `M`. -/
theorem oaMembers_length_le {e1 : TlbEntry} (h1 : e1 ∈ vaMembers s pe req) (hc : e1.contents = .s1Only)
    (hs2 : stage2Applies s.impl pe req.regime = true) :
    (oaMembers s pe req (outputFor e1 req.ia)).length ≤ (members s pe req).length := by
  obtain ⟨⟨⟨-, -, -, -, -, -, hs1, -⟩, -⟩, hholds⟩ := mem_vaMembers.mp h1
  have hout : outputFor e1 req.ia ∈ stage1Outputs (vaMembers s pe req) req.ia := mem_stage1Outputs.mpr ⟨e1, h1, hc, rfl⟩
  have hsub : (oaMembers s pe req (outputFor e1 req.ia)).Sublist
      ((stage1Outputs (vaMembers s pe req) req.ia).flatMap (oaMembers s pe req)) :=
    List.sublist_flatten_of_mem (List.mem_map_of_mem hout)
  rw [members, if_pos (hs1 hholds), if_pos hs2]
  exact (hsub.trans (List.sublist_append_right ..)).length_le

/-- An `S1Only` entry that a HIT can use is one for the input address. -/
theorem mem_vaMembers_of_hitMembers {e : TlbEntry} (h : e ∈ hitMembers s pe req) (hc : e.contents = .s1Only) :
    e ∈ vaMembers s pe req := by
  obtain h | ⟨-, h⟩ := hitMembers_cases h
  · exact h
  · exact absurd (hc.symm.trans (mem_oaMembers.mp h).2) nofun

/-- A lookup that raises the abort found two entries in `M`, at its first step or at its second. -/
theorem two_le_members_of_raisesConflict {ch : LookupChoice} (h : RaisesConflict (lookup s pe req ch)) :
    2 ≤ (members s pe req).length := by
  unfold lookup at h
  split at h
  · unfold lookupChosen at h
    split at h
    · split at h
      · next e he =>
        unfold hitEntry at h
        split at h
        · next hc =>
          have hva := mem_vaMembers_of_hitMembers (he ▸ List.mem_cons_self) hc.1
          exact (two_le_oaMembers_of_raisesConflict h).trans (oaMembers_length_le hva hc.1 hc.2)
        · exact absurd h not_raisesConflict_respond
      · exact absurd h not_raisesConflict_miss
    · split at h
      · next hm => rw [hm]; exact Nat.le_add_left ..
      · exact absurd h not_raisesConflict_miss
    · exact absurd h not_raisesConflict_miss
  · exact absurd h nofun

end

/-- Settles O33: an abort needs two members. -/
theorem conflictNeedsTwoMatches : Obligations.ConflictNeedsTwoMatches := by
  intro s t p pe ia access ch rest hagenda hpe hfree hstep req hanswer
  obtain rfl := Host.Outcome.next.inj ((step_lookup hagenda hpe).symm.trans hstep)
  have htwo : 2 ≤ (members s pe (requestOf p pe ia access)).length := 
    two_le_members_of_raisesConflict (s := s.withAgenda rest) ⟨req, hanswer⟩
  exact absurd (htwo.trans hfree) (by decide)

end Sys2Proof.Machine
end

section
/-! PROOF. How an entry leaves by eviction, and by which acts one comes (40_tlb_caching.md R113, R118, R120; 10_state.md R36;
41_tlb_lockdown.md R142, R145, R146). -/

namespace Sys2Proof.Machine

/-! ### Eviction -/

theorem evict_of_unlocked {s : State} {k : Nat} {e : TlbEntry} (hk : s.tlbs[k]? = some e) (hlock : e.locked = false) :
    evict s k = s.withTlbs (s.tlbs.eraseIdx k) := by
  rw [evict, hk]
  exact if_neg (Bool.eq_false_iff.mp hlock)

theorem evict_of_locked {s : State} {k : Nat} {e : TlbEntry} (hk : s.tlbs[k]? = some e) (hlock : e.locked = true) :
    evict s k = s := by
  rw [evict, hk]
  exact if_pos hlock

/-- Settles O36: the eviction by the lock of the entry. -/
theorem evictionTakesOneUnlockedEntry : Obligations.EvictionTakesOneUnlockedEntry := by
  intro s k e rest hagenda hk
  have hstep : step s = .next (evict (s.withAgenda rest) k) := step_of_agenda hagenda
  refine ⟨fun hlock => ?_, fun hlock => ?_⟩
  · rw [hstep, evict_of_unlocked (s := s.withAgenda rest) hk hlock, withAgenda_tlbs, List.eraseIdx_eq_take_drop_succ]
    rfl
  · rw [hstep, evict_of_locked (s := s.withAgenda rest) hk hlock]
    rfl

/-! ### The entries that each operation leaves -/

section
variable {s : State} {x : TlbEntry}

theorem mem_speculativeFill {pe : Pe} {req : Request} {plan : WalkPlan} (hx : x ∈ (speculativeFill s pe req plan).tlbs) :
    x ∈ s.tlbs ∨ ∃ pick ∈ plan.fills, fillEntry s.impl pe req (walkFor s pe req plan.entries .root) pick = some x := by
  rw [speculativeFill, fills_eq] at hx
  exact (List.mem_append.mp hx).imp_right List.mem_filterMap.mp

theorem mem_lookup {pe : Pe} {req : Request} {ch : LookupChoice} (hx : x ∈ (lookup s pe req ch).tlbs) :
    x ∈ s.tlbs ∨ ∃ start ks pick, fillEntry s.impl pe req (walkFor s pe req ks start) pick = some x := by
  obtain ⟨es, a, heq, hes⟩ := lookup_looksUp s pe req ch
  rw [heq] at hx
  refine (List.mem_append.mp hx).imp_right fun hx => ?_
  obtain ⟨start, plan, -, pick, -, hfill⟩ := hes x hx
  exact ⟨start, plan.entries, pick, hfill⟩

theorem mem_evict {k : Nat} (hx : x ∈ (evict s k).tlbs) : x ∈ s.tlbs := by
  obtain heq | ⟨e, -, -, heq⟩ := evict_cases s k <;> rw [heq] at hx
  · exact hx
  · exact List.mem_of_mem_eraseIdx hx

/-- What a completion leaves was there, or is the update of a locked entry, which stays locked (R145). -/
theorem mem_completeEntries {r : Pending} {fates : List LockedFate} {es : List TlbEntry} (hx : x ∈ completeEntries s r fates es) :
    x ∈ es ∨ s.impl.lockdownSupported = true ∧ x.locked = true := by
  refine (completeEntries_mem s r es fates x hx).imp And.left ?_
  rintro ⟨e, -, hlock, -, u, hu⟩
  obtain ⟨pe, n, result, -, hsup, -, -, -, -, -, rfl⟩ := lockedUpdate_cases hu
  exact ⟨hsup, hlock⟩

theorem mem_complete {k : Nat} {fates : List LockedFate} (hx : x ∈ (complete s k fates).tlbs) :
    x ∈ s.tlbs ∨ s.impl.lockdownSupported = true ∧ x.locked = true := by
  unfold complete at hx
  split at hx
  · exact mem_completeEntries hx
  · exact .inl hx

theorem mem_sync {p : Nat} {fates : List (List LockedFate)} (hx : x ∈ (sync s p fates).tlbs) :
    x ∈ s.tlbs ∨ s.impl.lockdownSupported = true ∧ x.locked = true := by
  refine completeIssuer_induct (P := fun e => e ∈ s.tlbs ∨ s.impl.lockdownSupported = true ∧ e.locked = true) p s.pending s.impl s.pes
    ?_ fates s rfl rfl (fun e he => .inl he) x hx
  intro t r f himpl _ h e he
  obtain he | hupdate := mem_completeEntries he
  · exact h e he
  · exact .inr (himpl ▸ hupdate)

theorem mem_invalidationRoutine {p : Nat} {fates : List (List LockedFate)} (hx : x ∈ (invalidationRoutine s p fates).tlbs) :
    x ∈ s.tlbs ∨ s.impl.lockdownSupported = true ∧ x.locked = true :=
  (mem_sync hx).imp_left List.mem_of_mem_filter

/-- An entry that is relocked is the reset PE's; the others are as they were. -/
theorem mem_or_owner_of_mem_relock {impl : Impl} {p : Nat} {bs : List Bool} {es : List TlbEntry} (hx : x ∈ relock impl p bs es) :
    x ∈ es ∨ x.owner = p := by
  induction es generalizing bs with
  | nil => cases hx
  | cons e es ih =>
    have of_mem_cons : ∀ {y bs'}, x ∈ y :: relock impl p bs' es → (y = e ∨ y.owner = p) → x ∈ e :: es ∨ x.owner = p := by
      intro y bs' hx hy
      obtain rfl | hx := List.mem_cons.mp hx
      · exact hy.imp_left fun heq => List.mem_cons.mpr (.inl heq)
      · exact (ih hx).imp_left (List.mem_cons_of_mem e)
    unfold relock at hx
    split at hx
    · next hlock =>
      split at hx
      · exact of_mem_cons hx (.inl rfl)
      · exact of_mem_cons hx (.inr hlock.1)
    · exact of_mem_cons hx (.inl rfl)

theorem mem_resetEntries {impl : Impl} {p : Nat} {draw : ResetDraw} {es : List TlbEntry} (hx : x ∈ resetEntries impl p draw es) :
    x ∈ es ∨ x.owner = p := by
  unfold resetEntries at hx
  split at hx
  · refine (List.mem_append.mp hx).imp List.mem_of_mem_filter fun hx => ?_
    obtain ⟨e, -, rfl⟩ := List.mem_map.mp hx
    rfl
  · exact .inl (List.mem_of_mem_filter hx)
  · exact mem_or_owner_of_mem_relock hx

end

/-! ### Which acts add an entry -/

/-- What an act needs to leave an entry that was not there: none but these acts can. -/
def Adds (s : State) (e : TlbEntry) : Event → Prop
  | .fill p regime sec ia access plan => e.owner = p ∧ ∃ pe, s.pe? p = some pe
      ∧ let req : Request := { pe := p, regime := regime, sec := sec, ia := ia, access := access }
        ∃ pick ∈ plan.fills, fillEntry s.impl pe req (walkFor s pe req plan.entries .root) pick = some e
  | .lookup p ia access _ => e.owner = p ∧ ∃ pe, s.pe? p = some pe
      ∧ let req := requestOf p pe ia access
        ∃ start ks pick, fillEntry s.impl pe req (walkFor s pe req ks start) pick = some e
  | .reset p _ _ => e.owner = p
  | .lockdown _ => s.impl.lockdownSupported = true
  | .instr _ w => s.impl.lockdownSupported = true ∧ decode w = .error .implementationDefined
  | .complete _ _ => s.impl.lockdownSupported = true ∧ e.locked = true
  | .sync _ _ => s.impl.lockdownSupported = true ∧ e.locked = true
  | .invalidationRoutine _ _ => s.impl.lockdownSupported = true ∧ e.locked = true
  | _ => False

/-- Every entry that an act leaves was there, or is one that the act adds. -/
theorem ActNext.mem_or_adds {s t : State} {ev : Event} (h : ActNext s t ev) {e : TlbEntry} (he : e ∈ t.tlbs) :
    e ∈ s.tlbs ∨ Adds s e ev := by
  cases ev with
  | instr p w =>
    obtain ⟨i, -, h⟩ | ⟨hdecode, hsup, -⟩ := h
    · obtain ⟨pe, targets, -, -, -, rfl⟩ := exec_next h
      exact .inl he
    · exact .inr ⟨hsup, hdecode⟩
  | lookup p ia access ch =>
    obtain ⟨pe, hpe, rfl⟩ := h
    refine (mem_lookup he).imp_right fun ⟨start, ks, pick, hfill⟩ => ?_
    exact ⟨(fillEntry_fixed hfill).1, pe, hpe, start, ks, pick, hfill⟩
  | fill p regime sec ia access plan =>
    obtain ⟨pe, hpe, rfl⟩ := h
    refine (mem_speculativeFill he).imp_right fun ⟨pick, hpick, hfill⟩ => ?_
    exact ⟨(fillEntry_fixed hfill).1, pe, hpe, pick, hpick, hfill⟩
  | evict k => subst h; exact .inl (mem_evict he)
  | complete k fates => subst h; exact mem_complete he
  | sync p fates => obtain ⟨pe, -, rfl⟩ := h; exact mem_sync he
  | ctx p c => obtain ⟨pe, -, -, rfl⟩ := h; exact .inl he
  | xreg p k v => obtain ⟨pe, -, rfl⟩ := h; exact .inl he
  | memWrite c a n v => obtain ⟨-, rfl⟩ := h; exact .inl he
  | reset p el draw => obtain ⟨pe, -, -, rfl⟩ := h; exact mem_resetEntries he
  | invalidationRoutine p fates => obtain ⟨pe, -, rfl⟩ := h; exact mem_invalidationRoutine he
  | lockdown op => exact .inr (lockdownAct_next h).1
  | lockdownException p => obtain ⟨pe, -, rfl⟩ := h; exact .inl he

/-- Drawing the next act does not change what an act adds. -/
theorem adds_nextEvent {s : State} {e : TlbEntry} {ev : Event} (h : Adds (nextEvent s).2 e ev) : Adds s e ev := by
  unfold nextEvent at h
  split at h <;> exact h

/-- Settles O54: the acts that add entries, by the kind of act. -/
theorem entriesComeOnlyByFillResetOrLockdown : Obligations.EntriesComeOnlyByFillResetOrLockdown := by
  intro s t e hstep he hnew
  have hadds : Adds s e (nextEvent s).1 :=
    adds_nextEvent (((act_next hstep).mem_or_adds he).resolve_left (by rwa [nextEvent_tlbs]))
  generalize (nextEvent s).1 = ev at hadds ⊢
  cases ev with
  | fill p regime sec ia access plan =>
    obtain ⟨rfl, pe, hpe, hpick⟩ := hadds
    exact .inl ⟨pe, regime, sec, ia, access, plan, hpe, rfl, hpick⟩
  | lookup p ia access ch =>
    obtain ⟨rfl, pe, hpe, hpick⟩ := hadds
    exact .inr (.inl ⟨pe, ia, access, ch, hpe, rfl, hpick⟩)
  | reset p el draw =>
    obtain rfl : e.owner = p := hadds
    exact .inr (.inr (.inl ⟨el, draw, rfl⟩))
  | lockdown op => exact .inr (.inr (.inr ⟨hadds, .inl ⟨op, rfl⟩⟩))
  | instr p w =>
    obtain ⟨hsup, hdecode⟩ := hadds
    exact .inr (.inr (.inr ⟨hsup, .inr (.inl ⟨p, w, rfl, hdecode⟩)⟩))
  | complete k fates =>
    obtain ⟨hsup, hlock⟩ := hadds
    exact .inr (.inr (.inr ⟨hsup, .inr (.inr ⟨hlock, .inl ⟨k, fates, rfl⟩⟩)⟩))
  | sync p fates =>
    obtain ⟨hsup, hlock⟩ := hadds
    exact .inr (.inr (.inr ⟨hsup, .inr (.inr ⟨hlock, .inr (.inl ⟨p, fates, rfl⟩)⟩)⟩))
  | invalidationRoutine p fates =>
    obtain ⟨hsup, hlock⟩ := hadds
    exact .inr (.inr (.inr ⟨hsup, .inr (.inr ⟨hlock, .inr (.inr ⟨p, fates, rfl⟩)⟩)⟩))
  | evict k => cases hadds
  | ctx p c => cases hadds
  | xreg p k v => cases hadds
  | memWrite c a n v => cases hadds
  | lockdownException p => cases hadds

end Sys2Proof.Machine
end

section
/-! PROOF. What keeps a locked entry, what each operation of the lockdown mechanism leaves of `TLBS`, and what a completed invalidation
makes of a locked entry (41_tlb_lockdown.md R141, R142, R145, R146; 45_tlbi_aside1.md R246). -/

namespace Sys2Proof.Machine

/-! ### The mechanism's operations on `TLBS` -/

theorem lockAt_eq {s : State} {k : Nat} {e : TlbEntry} (hk : s.tlbs[k]? = some e) (b : Bool) :
    lockAt s k b = s.withTlbs (s.tlbs.take k ++ setLocked b e :: s.tlbs.drop (k + 1)) := by
  obtain ⟨hlt, rfl⟩ := List.getElem?_eq_some_iff.mp hk
  rw [lockAt, List.modify_eq_take_cons_drop hlt]

theorem lockdownRemove_eq (s : State) (k : Nat) : lockdownRemove s k = s.withTlbs (s.tlbs.take k ++ s.tlbs.drop (k + 1)) := by
  rw [lockdownRemove, List.eraseIdx_eq_take_drop_succ]

/-- Where lockdown is not supported no operation has a meaning (R141, R148). -/
theorem lockdownAct_of_unsupported {s : State} (h : s.impl.lockdownSupported = false) (op : LockdownOp) :
    lockdownAct s op = .refused .lockdownNotSupported :=
  if_neg (Bool.eq_false_iff.mp h)

section
variable {s : State} (h : s.impl.lockdownSupported = true)
include h

theorem lockdownAct_unlockAll (p : Nat) : lockdownAct s (.unlockAll p) =
    .next (s.withTlbs (s.tlbs.map fun e => if e.owner = p then setLocked false e else e)) :=
  if_pos h

theorem lockdownAct_setLock {k : Nat} {e : TlbEntry} (hk : s.tlbs[k]? = some e) (b : Bool) :
    lockdownAct s (if b then .lock k else .unlock k) =
      .next (s.withTlbs (s.tlbs.take k ++ setLocked b e :: s.tlbs.drop (k + 1))) := by
  rw [← lockAt_eq hk b]
  cases b <;> exact if_pos h

theorem lockdownAct_remove (k : Nat) : lockdownAct s (.remove k) = .next (s.withTlbs (s.tlbs.take k ++ s.tlbs.drop (k + 1))) := by
  rw [← lockdownRemove_eq]
  exact if_pos h

theorem lockdownAct_prefetch {p : Nat} {pe : Pe} (hpe : s.pe? p = some pe) (regime : Regime) (sec : Sec) (ia : Nat) (access : Access)
    (ks : List Nat) (pick : FillPick) :
    let req : Request := { pe := p, regime := regime, sec := sec, ia := ia, access := access }
    lockdownAct s (.prefetch p regime sec ia access ks pick) =
      .next (s.withTlbs (s.tlbs ++ (fillEntry s.impl pe req (walkFor s pe req ks .root) pick).toList)) := by
  intro req
  rw [← fill_eq]
  exact (if_pos h).trans (onPe_some _ hpe)

end

/-- Settles O44: the step is the operation of the mechanism, and each operation by its own lemma. -/
theorem lockdownFunctions : Obligations.LockdownFunctions := by
  intro s op rest hagenda left
  have hstep : step s = lockdownAct (s.withAgenda rest) op := step_lockdown hagenda
  refine ⟨fun hno => hstep.trans (lockdownAct_of_unsupported (s := s.withAgenda rest) hno op), fun hsup => ?_⟩
  replace hsup : (s.withAgenda rest).impl.lockdownSupported = true := hsup
  refine ⟨?_, ?_, ?_, ?_⟩
  · rintro p rfl
    exact hstep.trans (lockdownAct_unlockAll hsup p)
  · rintro k b e rfl hk
    exact hstep.trans (lockdownAct_setLock hsup hk b)
  · rintro k rfl
    exact hstep.trans (lockdownAct_remove hsup k)
  · rintro p pe regime sec ia access ks pick rfl hpe
    exact hstep.trans (lockdownAct_prefetch hsup hpe regime sec ia access ks pick)

/-! ### A locked entry stays -/

section
variable {s : State} {e : TlbEntry}

theorem mem_speculativeFill_of_mem (he : e ∈ s.tlbs) (pe : Pe) (req : Request) (plan : WalkPlan) :
    e ∈ (speculativeFill s pe req plan).tlbs := by
  rw [speculativeFill, fills_eq]
  exact List.mem_append_left _ he

theorem mem_lookup_of_mem (he : e ∈ s.tlbs) (pe : Pe) (req : Request) (ch : LookupChoice) : e ∈ (lookup s pe req ch).tlbs := by
  obtain ⟨es, a, heq, -⟩ := lookup_looksUp s pe req ch
  rw [heq]
  exact List.mem_append_left _ he

/-- The place that an eviction empties is that of an unlocked entry (R118), so a locked one stands at another. -/
theorem mem_evict_of_locked (he : e ∈ s.tlbs) (hlock : e.locked = true) (k : Nat) : e ∈ (evict s k).tlbs := by
  obtain heq | ⟨x, hx, hunlocked, heq⟩ := evict_cases s k <;> rw [heq]
  · exact he
  · obtain ⟨i, hi⟩ := List.getElem?_of_mem he
    refine List.mem_eraseIdx_iff_getElem?.mpr ⟨i, ?_, hi⟩
    rintro rfl
    obtain rfl : e = x := Option.some.inj (hi.symm.trans hx)
    exact Bool.false_ne_true (hunlocked.symm.trans hlock)

end

/-- The acts that may take a locked entry from `TLBS`. -/
def TakesLocked : Event → Prop
  | .complete _ _ => True
  | .sync _ _ => True
  | .invalidationRoutine _ _ => True
  | .reset _ _ _ => True
  | .lockdown _ => True
  | .instr _ w => decode w = .error .implementationDefined
  | _ => False

/-- An act that leaves a locked entry out is one that may take it. -/
theorem ActNext.mem_or_takesLocked {s t : State} {ev : Event} (h : ActNext s t ev) {e : TlbEntry} (he : e ∈ s.tlbs)
    (hlock : e.locked = true) : e ∈ t.tlbs ∨ TakesLocked ev := by
  cases ev with
  | instr p w =>
    obtain ⟨i, -, h⟩ | ⟨hdecode, -⟩ := h
    · obtain ⟨pe, targets, -, -, -, rfl⟩ := exec_next h
      exact .inl he
    · exact .inr hdecode
  | lookup p ia access ch => obtain ⟨pe, -, rfl⟩ := h; exact .inl (mem_lookup_of_mem he ..)
  | fill p regime sec ia access plan => obtain ⟨pe, -, rfl⟩ := h; exact .inl (mem_speculativeFill_of_mem he ..)
  | evict k => subst h; exact .inl (mem_evict_of_locked he hlock k)
  | ctx p c => obtain ⟨pe, -, -, rfl⟩ := h; exact .inl he
  | xreg p k v => obtain ⟨pe, -, rfl⟩ := h; exact .inl he
  | memWrite c a n v => obtain ⟨-, rfl⟩ := h; exact .inl he
  | lockdownException p => obtain ⟨pe, -, rfl⟩ := h; exact .inl he
  | complete k fates => exact .inr trivial
  | sync p fates => exact .inr trivial
  | invalidationRoutine p fates => exact .inr trivial
  | reset p el draw => exact .inr trivial
  | lockdown op => exact .inr trivial

/-- Settles O43: an act keeps the entry or is of a kind that may take it. -/
theorem lockedEntryRemains : Obligations.LockedEntryRemains := by
  intro s t e hstep he hlock
  refine ((act_next hstep).mem_or_takesLocked (by rwa [nextEvent_tlbs]) hlock).imp_right fun htakes => ?_
  generalize (nextEvent s).1 = ev at htakes ⊢
  cases ev with
  | complete k fates => exact .inl ⟨k, fates, rfl⟩
  | sync p fates => exact .inr (.inl ⟨p, fates, rfl⟩)
  | invalidationRoutine p fates => exact .inr (.inr (.inl ⟨p, fates, rfl⟩))
  | reset p el draw => exact .inr (.inr (.inr (.inl ⟨p, el, draw, rfl⟩)))
  | lockdown op => exact .inr (.inr (.inr (.inr (.inl ⟨op, rfl⟩))))
  | instr p w => exact .inr (.inr (.inr (.inr (.inr ⟨p, w, rfl, htakes⟩))))
  | lookup p ia access ch => cases htakes
  | fill p regime sec ia access plan => cases htakes
  | evict k => cases htakes
  | ctx p c => cases htakes
  | xreg p k v => cases htakes
  | memWrite c a n v => cases htakes
  | lockdownException p => cases htakes

/-! ### What a completion leaves of a list of entries -/

section
variable {s : State} {r : Pending}

/-- Entries that the record does not reach stay in place and take no fate. -/
theorem completeEntries_append_of_outOfScope {pre : List TlbEntry} (h : ∀ x ∈ pre, inScope s r x = false) (fates : List LockedFate)
    (es : List TlbEntry) : completeEntries s r fates (pre ++ es) = pre ++ completeEntries s r fates es := by
  induction pre with
  | nil => rfl
  | cons x pre ih =>
    obtain ⟨hx, hpre⟩ := List.forall_mem_cons.mp h
    exact (if_neg (Bool.eq_false_iff.mp hx)).trans (congrArg (x :: ·) (ih hpre))

theorem completeEntries_of_outOfScope {es : List TlbEntry} (h : ∀ x ∈ es, inScope s r x = false) (fates : List LockedFate) :
    completeEntries s r fates es = es := by
  simpa [completeEntries] using completeEntries_append_of_outOfScope h fates []

/-- A locked entry that the record reaches takes the first fate. -/
theorem completeEntries_cons_of_locked {e : TlbEntry} (hscope : inScope s r e = true) (hlock : e.locked = true) (f : LockedFate)
    (fates : List LockedFate) (es : List TlbEntry) :
    completeEntries s r (f :: fates) (e :: es) = lockedFate s e f ++ completeEntries s r fates es :=
  (if_pos hscope).trans (if_pos hlock)

/-- A locked entry that the record alone reaches takes the fate drawn, between the entries that stood around it. -/
theorem completeEntries_of_alone {pre post : List TlbEntry} {e : TlbEntry} (hout : ∀ x ∈ pre ++ post, inScope s r x = false)
    (hscope : inScope s r e = true) (hlock : e.locked = true) (f : LockedFate) :
    completeEntries s r [f] (pre ++ e :: post) = pre ++ lockedFate s e f ++ post := by
  obtain ⟨hpre, hpost⟩ := List.forall_mem_append.mp hout
  rw [completeEntries_append_of_outOfScope hpre, completeEntries_cons_of_locked hscope hlock, completeEntries_of_outOfScope hpost,
    List.append_assoc]

theorem complete_of_record {k : Nat} (hr : s.pending[k]? = some r) (fates : List LockedFate) :
    complete s k fates = (s.withTlbs (completeEntries s r fates s.tlbs)).withPending (s.pending.eraseIdx k) := by
  rw [complete, hr]
  rfl

/-! ### The update of a locked entry (R145) -/

variable {pe : Pe} {e : TlbEntry} {u : LockedUpdate}

/-- The walk of an update starts at the address itself for stage 2 information, and from the base registers for any other. -/
theorem updateWalk_eq (s : State) (pe : Pe) (e : TlbEntry) (u : LockedUpdate) :
    let req : Request := { pe := e.owner, regime := e.regime, sec := e.sec, ia := u.ia, access := u.access }
    updateWalk s pe e u = (req, walkFor s pe req u.entries (if e.contents = .s2Only then .stage2Of u.ia else .root)) := by
  intro req
  rw [updateWalk]
  cases e.contents <;> rfl

/-- Where the address is covered, the walk ends well and the level is permitted and of the entry's kind, the entry is updated. -/
theorem lockedUpdate_of_walk {req : Request} {w : Walk} {result : Payload} {n : TlbEntry} (hpe : s.pe? e.owner = some pe)
    (hsup : s.impl.lockdownSupported = true) (hwalk : updateWalk s pe e u = (req, w)) (hcovers : coversAddress e u.ia)
    (hok : w.finish = .ok result) (hfill : fillEntry s.impl pe req w u.pick = some n)
    (hkind : n.contents = e.contents ∧ n.final = e.final) : lockedUpdate s e u = some (updatedEntry e n) := by
  simp only [lockedUpdate, hpe, hsup, inputMatches_iff.mpr hcovers, hwalk, hok, hfill, hkind, and_self, Bool.and_self, if_true]

/-- Otherwise the update has no result. -/
theorem lockedUpdate_eq_none {req : Request} {w : Walk} (hpe : s.pe? e.owner = some pe) (hwalk : updateWalk s pe e u = (req, w))
    (h : ∀ result n, w.finish = .ok result → fillEntry s.impl pe req w u.pick = some n → coversAddress e u.ia →
      n.contents = e.contents → n.final ≠ e.final) : lockedUpdate s e u = none := by
  refine Option.eq_none_iff_forall_ne_some.mpr fun x hx => ?_
  obtain ⟨pe', n, result, hpe', -, hcovers, hok, hfill, hcontents, hfinal, -⟩ := lockedUpdate_cases hx
  obtain rfl : pe = pe' := Option.some.inj (hpe.symm.trans hpe')
  rw [hwalk] at hok hfill
  exact h result n hok hfill (inputMatches_iff.mp hcovers) hcontents hfinal

theorem lockedFate_of_update {n : TlbEntry} (h : lockedUpdate s e u = some n) : lockedFate s e (.update u) = [n] := by
  rw [lockedFate, h]

theorem lockedFate_of_noUpdate (h : lockedUpdate s e u = none) :
    lockedFate s e (.update u) = if u.removeOtherwise then [] else [e] := by
  rw [lockedFate, h]

end

/-- Settles O56: the completion leaves what the fate makes of the entry, and an update has a result exactly under the conditions of R145. -/
theorem lockedEntryFates : Obligations.LockedEntryFates := by
  intro s k r rest pre post e pe f hagenda hr htlbs hpe hlock hsup hscope hout left
  have hleft : left (lockedFate s e f) := by
    have hstep : step s = .next (complete (s.withAgenda rest) k [f]) := step_of_agenda hagenda
    have hentries : completeEntries (s.withAgenda rest) r [f] s.tlbs = pre ++ lockedFate s e f ++ post :=
      htlbs ▸ completeEntries_of_alone (s := s.withAgenda rest) hout hscope hlock f
    rw [complete_of_record (s := s.withAgenda rest) hr, withAgenda_tlbs, hentries] at hstep
    exact hstep
  refine ⟨?_, ?_, ?_⟩
  · rintro rfl; exact hleft
  · rintro rfl; exact hleft
  · rintro u rfl req w otherwise
    have hwalk : updateWalk s pe e u = (req, w) := updateWalk_eq s pe e u
    refine Eq.mp (congrArg left ?_) hleft
    split
    · next result n hok hfill =>
      split
      · next hupdates =>
        obtain ⟨hlow, hhigh, hkind⟩ := hupdates
        exact lockedFate_of_update (lockedUpdate_of_walk hpe hsup hwalk ⟨hlow, hhigh⟩ hok hfill hkind)
      · next hno =>
        refine lockedFate_of_noUpdate (lockedUpdate_eq_none hpe hwalk fun _ n' _ hfill' hcovers hcontents hfinal => hno ?_)
        obtain rfl : n = n' := Option.some.inj (hfill.symm.trans hfill')
        exact ⟨hcovers.1, hcovers.2, hcontents, hfinal⟩
    · next hno =>
      exact lockedFate_of_noUpdate (lockedUpdate_eq_none hpe hwalk fun result n hok hfill _ _ _ => hno result n hok hfill)

end Sys2Proof.Machine
end

section
/-! PROOF. The identifiers in use and the tags of a new entry (42_asid_vmid_tagging.md R165 to R175, 43_asid_vmid_size.md R202, R206). -/

namespace Sys2Proof.Machine

/-! ### The current VMID -/

theorem extractLsb'_low_lowByte (raw : Ident) : (lowByte raw).extractLsb' 0 8 = raw.extractLsb' 0 8 := by
  refine BitVec.eq_of_getLsbD_eq fun k hk => ?_
  simp [lowByte, hk, show k < 16 by omega]

theorem extractLsb'_high_lowByte (raw : Ident) : (lowByte raw).extractLsb' 8 8 = 0#8 := by
  refine BitVec.eq_of_getLsbD_eq fun k hk => ?_
  simp [lowByte, BitVec.getLsbD_extractLsb']

theorem effVmid_of_wide (raw : Ident) : effVmid .bits16 true true raw = raw := rfl

/-- Where one of the three conditions of a 16-bit VMID fails, the low byte counts (R206). -/
theorem effVmid_of_narrow {size : IdSize} {aarch64 vs : Bool} (h : size = .bits8 ∨ aarch64 = false ∨ vs = false) (raw : Ident) :
    effVmid size aarch64 vs raw = lowByte raw := by
  refine if_neg fun hwide => ?_
  simp only [Bool.and_eq_true, decide_eq_true_eq] at hwide
  obtain ⟨⟨hsize, haarch64⟩, hvs⟩ := hwide
  obtain rfl | rfl | rfl := h
  · cases hsize
  · cases haarch64
  · cases hvs

/-- EL2 uses AArch64 where the implementation has it so and the context says so (Log 49). -/
theorem el2UsesAarch64_iff (impl : Impl) (pe : Pe) :
    el2UsesAarch64 impl pe = true ↔ El.el2 ∈ impl.aarch64Els ∧ pe.ctx.el2Aarch64 = true := by
  rw [el2UsesAarch64, usesAarch64, Bool.and_eq_true, List.contains_iff_mem]

theorem el2UsesAarch64_eq_false {impl : Impl} {pe : Pe} (h : El.el2 ∉ impl.aarch64Els ∨ pe.ctx.el2Aarch64 = false) :
    el2UsesAarch64 impl pe = false := by
  refine Bool.eq_false_iff.mpr fun huses => ?_
  obtain ⟨hel, hctx⟩ := (el2UsesAarch64_iff impl pe).mp huses
  exact h.elim (· hel) fun hno => Bool.false_ne_true (hno.symm.trans hctx)

/-- The VMID comes with no feature, so that its field is read as stored. -/
theorem currentVmid_eq (impl : Impl) (pe : Pe) :
    currentVmid impl pe = effVmid impl.vmidBits (el2UsesAarch64 impl pe) (regBit impl pe.regs .vs) pe.regs.vmid := rfl

/-- Settles O18: `effVmid` where each condition holds, and where one fails. -/
theorem vmidSizeRule : Obligations.VmidSizeRule := by
  intro impl pe
  refine ⟨fun hsize hel hctx hvs => ?_, fun hnarrow => ?_, fun v => rfl⟩
  · rw [currentVmid_eq, hsize, (el2UsesAarch64_iff impl pe).mpr ⟨hel, hctx⟩, hvs, effVmid_of_wide]
  · have hlow : currentVmid impl pe = lowByte pe.regs.vmid := by
      refine effVmid_of_narrow ?_ _
      obtain h | h | h | h := hnarrow
      · exact .inl h
      · exact .inr (.inl (el2UsesAarch64_eq_false (.inl h)))
      · exact .inr (.inl (el2UsesAarch64_eq_false (.inr h)))
      · exact .inr (.inr h)
    rw [hlow]
    exact ⟨extractLsb'_high_lowByte _, extractLsb'_low_lowByte _⟩

/-! ### The current ASID -/

section
variable {impl : Impl} {pe : Pe} {regime : Regime} {x : CtlEl}

/-- In the regime that a level controls the current ASID is defined (R165). -/
theorem currentAsid_of_controllingEl (hx : controllingEl regime = some x) (half : Half) :
    currentAsid impl pe regime half = some (asidFor impl pe regime x half) := by
  rw [currentAsid, hx, Option.map_some]

/-- Where all sixteen bits count, the current ASID is the whole field of the register that A2 and A1 select. -/
theorem currentAsid_of_wide (hx : controllingEl regime = some x) (hsize : impl.asidBits = .bits16)
    (hv8 : usesV8_32 impl pe regime = false) (has : regBit impl pe.regs (.asSize x) = true) (half : Half) :
    currentAsid impl pe regime half
      = some (pe.regs.get (.asid (asidSelect (effBit impl pe (.a2 x)) (regBit impl pe.regs (.a1 x)) half) x)) := by
  rw [currentAsid_of_controllingEl hx, asidFor, hsize, hv8, has]
  rfl

/-- A one-bit field of an absent feature has the Effective value 0. -/
theorem effBit_of_absent {f : Field} (h : fieldPresent impl f = false) : effBit impl pe f = false := by
  rw [effBit, eff_of_absent h]; rfl

end

/-- Settles O17: the register selected, by A2 and A1. -/
theorem asidSelectionRule : Obligations.AsidSelectionRule := by
  intro impl pe regime x hx hsize hv8 has
  have hcurrent := currentAsid_of_wide hx hsize hv8 has
  refine ⟨fun ha2 half => ?_, fun ha2 ha1 half => ?_, fun ha2 ha1 half => ?_, fun htcr2 => effBit_of_absent htcr2⟩
  · rw [hcurrent, ha2]; rfl
  · rw [hcurrent, ha2, ha1]; rfl
  · rw [hcurrent, ha2, ha1]; rfl

/-! ### Non-global translations (R168 to R171) -/

/-- `nsTableAbove` speaks of the stage 1 tables at the levels before `i`. -/
theorem nsTableAbove_iff {w : Walk} {i : Nat} : nsTableAbove w i = true ↔
    ∃ j m, j < i ∧ w.levels[j]? = some m ∧ m.stage = .s1 ∧ m.nsTable = true := by
  simp only [nsTableAbove, List.any_eq_true, List.mem_iff_getElem?, List.getElem?_take, Option.ite_none_right_eq_some,
    Bool.and_eq_true, beq_iff_eq]
  constructor
  · rintro ⟨m, ⟨j, hj, hm⟩, hs1, hns⟩; exact ⟨j, m, hj, hm, hs1, hns⟩
  · rintro ⟨j, m, hj, hm, hs1, hns⟩; exact ⟨m, ⟨j, hj, hm⟩, hs1, hns⟩

section
variable {impl : Impl} {pe : Pe} {regime : Regime} {x : CtlEl} {sec : Sec} {half : Half} {w : Walk} {i : Nat} {l : WalkLevel}

/-- In a regime of two privilege levels a translation is non-global for one of four reasons (R171). -/
theorem nonGlobal_iff (hx : controllingEl regime = some x) : nonGlobal impl pe regime sec half w i l = true ↔
    l.final = false ∨ l.nG = true ∨ effBit impl pe (.fng half x) = true
      ∨ sec = .secure ∧ ∃ j m, j < i ∧ w.levels[j]? = some m ∧ m.stage = .s1 ∧ m.nsTable = true := by
  simp only [nonGlobal, hx, Bool.or_eq_true, Bool.and_eq_true, Bool.not_eq_true', beq_iff_eq, nsTableAbove_iff, or_assoc]
  rw [or_comm (b := l.nG = true), or_left_comm (b := l.nG = true)]

/-- FNGy makes a translation non-global (R170). -/
theorem nonGlobal_of_fng (hx : controllingEl regime = some x) (h : effBit impl pe (.fng half x) = true) :
    nonGlobal impl pe regime sec half w i l = true :=
  (nonGlobal_iff hx).mpr (.inr (.inr (.inl h)))

/-- Outside Secure state no other level of the walk plays a part. -/
theorem nonGlobal_of_ne_secure (hsec : sec ≠ .secure) (w' : Walk) :
    nonGlobal impl pe regime sec half w i l = nonGlobal impl pe regime sec half w' i l := by
  have hbit : (sec == .secure) = false := beq_eq_false_iff_ne.mpr hsec
  simp only [nonGlobal, hbit, Bool.false_and]

end

/-- Settles O21: in Secure state the NSTable bit is one of the reasons, in any other state it is none. -/
theorem nsTableActsInSecureStateOnly : Obligations.NsTableActsInSecureStateOnly :=
  fun _ _ _ _ _ _ _ _ hx =>
    ⟨fun habove _ => (nonGlobal_iff hx).mpr (.inr (.inr (.inr ⟨rfl, habove⟩))), fun _ hsec w' => nonGlobal_of_ne_secure hsec w'⟩

/-! ### The ASID of a new entry (R175) -/

section
variable {impl : Impl} {pe : Pe} {req : Request} {w : Walk} {e : TlbEntry} {x : CtlEl} {final : Bool} {i : Nat} {l : WalkLevel}

theorem singleEntry_asid_of_s1 (h : l.stage = .s1) : (singleEntry impl pe req w i l).asid = asidTag impl pe req w l.final i l := by
  simp only [singleEntry, h]

theorem singleEntry_asid_of_s2 (h : l.stage = .s2) : (singleEntry impl pe req w i l).asid = none := by
  simp only [singleEntry, h]

/-- The ASID of an entry: none for stage 2 alone (D25), else the tag of the stage 1 level it holds. -/
theorem fillEntry_asid {pick : FillPick} (h : fillEntry impl pe req w pick = some e) :
    (e.contents = .s2Only ∧ e.asid = none) ∨ ∃ final i l, e.asid = asidTag impl pe req w final i l := by
  obtain ⟨i, l, -, rfl, -, -⟩ | ⟨i1, i2, l1, l2, -, -, -, -, rfl, -, -⟩ := fillEntry_cases h
  · cases hs : l.stage with
    | s1 => exact .inr ⟨_, i, l, singleEntry_asid_of_s1 hs⟩
    | s2 => exact .inl ⟨(singleEntry_of_s2 i hs).1, singleEntry_asid_of_s2 hs⟩
  · exact .inr ⟨_, i1, l1, rfl⟩

/-- A non-global translation, or one of a level that is not final, is tagged with the current ASID (R168, R175). -/
theorem asidTag_of_tagged (hx : controllingEl req.regime = some x)
    (h : nonGlobal impl pe req.regime req.sec (Config.halfOf req.regime req.ia) w i l = true ∨ final = false) :
    asidTag impl pe req w final i l = currentAsid impl pe req.regime (Config.halfOf req.regime req.ia)
      ∧ asidTag impl pe req w final i l ≠ none := by
  have htag : asidTag impl pe req w final i l = currentAsid impl pe req.regime (Config.halfOf req.regime req.ia) :=
    if_pos (by simpa using h)
  exact ⟨htag, by rw [htag, currentAsid_of_controllingEl hx]; exact Option.some_ne_none _⟩

/-- Any other translation is tagged with no ASID (R175). -/
theorem asidTag_of_not_tagged
    (h : ¬ (nonGlobal impl pe req.regime req.sec (Config.halfOf req.regime req.ia) w i l = true ∨ final = false)) :
    asidTag impl pe req w final i l = none :=
  if_neg (by simpa using h)

/-- The tag in full: `tagged` is that the entry is not final (R168) or that one of the reasons of R171 holds. -/
theorem asidTag_spec (hx : controllingEl req.regime = some x) {tagged : Prop}
    (h : tagged ↔ final = false ∨ l.final = false ∨ l.nG = true ∨ effBit impl pe (.fng (Config.halfOf req.regime req.ia) x) = true
      ∨ req.sec = .secure ∧ ∃ j m, j < i ∧ w.levels[j]? = some m ∧ m.stage = .s1 ∧ m.nsTable = true) :
    (tagged → asidTag impl pe req w final i l = currentAsid impl pe req.regime (Config.halfOf req.regime req.ia)
        ∧ asidTag impl pe req w final i l ≠ none)
      ∧ (¬ tagged → asidTag impl pe req w final i l = none) := by
  rw [← nonGlobal_iff hx, or_comm] at h
  rw [h]
  exact ⟨asidTag_of_tagged hx, asidTag_of_not_tagged⟩

end

/-- Settles O20: FNGy is a reason to tag whatever the level, and reads 0 where its feature is absent. -/
theorem forcedNonGlobal : Obligations.ForcedNonGlobal := by
  intro impl pe req w x hx
  refine ⟨fun hfng => ⟨fun i l b => nonGlobal_of_fng hx hfng, fun pick e hfill hs1 => ?_⟩, fun htcr2 half => ?_⟩
  · obtain ⟨hc, -⟩ | ⟨final, i, l, hasid⟩ := fillEntry_asid hfill
    · rw [hc] at hs1; cases hs1
    · rw [hasid]; exact asidTag_of_tagged hx (.inl (nonGlobal_of_fng hx hfng))
  · have habsent : fieldPresent impl (.fng half x) = false := htcr2
    exact ⟨regRead_of_absent habsent _, effBit_of_absent habsent⟩

/-- Settles O22: the tag of the stage 1 level, by the kind of the pick. -/
theorem asidTagOfNewEntry : Obligations.AsidTagOfNewEntry := by
  intro impl pe req w pick e hfill half nsAbove current
  refine ⟨fun hpriv => ?_, ?_, ?_⟩
  · obtain ⟨-, hasid⟩ | ⟨final, i, l, hasid⟩ := fillEntry_asid hfill
    · exact hasid
    · rw [hasid]; exact asidTag_of_singlePriv w final i l hpriv
  · rintro i l rfl hl
    obtain ⟨l', ⟨hl', -⟩, rfl⟩ := fillEntry_single_eq_some hfill
    obtain rfl : l = l' := Option.some.inj (hl.symm.trans hl')
    refine ⟨singleEntry_asid_of_s2, fun x hx hs1 => ?_⟩
    simp only [current, singleEntry_asid_of_s1 hs1]
    exact asidTag_spec hx (or_self_left ..).symm
  · rintro i1 i2 l1 l2 rfl hl1 hl2 x hx
    obtain ⟨k1, k2, ⟨hk1, -⟩, ⟨hk2, -⟩, -, -, rfl⟩ := fillEntry_combined_eq_some hfill
    obtain rfl : l1 = k1 := Option.some.inj (hl1.symm.trans hk1)
    obtain rfl : l2 = k2 := Option.some.inj (hl2.symm.trans hk2)
    exact asidTag_spec hx (by rw [Bool.and_eq_false_iff]; exact or_or_distrib_left)

/-! ### The VMID of a new entry (R173) -/

theorem vmidTag_of_el2Enabled {impl : Impl} {pe : Pe} (h : pe.ctx.el2Enabled = true) :
    vmidTag impl pe .el10 = some (currentVmid impl pe) :=
  if_pos h

theorem vmidTag_of_el2Disabled {impl : Impl} {pe : Pe} (h : pe.ctx.el2Enabled = false) : vmidTag impl pe .el10 = none :=
  if_neg fun hon => Bool.false_ne_true (h.symm.trans hon)

theorem vmidTag_of_ne_el10 {impl : Impl} {pe : Pe} {regime : Regime} (h : regime ≠ .el10) : vmidTag impl pe regime = none :=
  Option.not_isSome_iff_eq_none.mp fun hsome => h (vmidTag_regime hsome)

/-- Settles O23: every entry of a fill has the VMID of `vmidTag`, whatever levels it is made of. -/
theorem vmidTagOfNewEntry : Obligations.VmidTagOfNewEntry := by
  intro impl pe req w pick e hfill
  obtain ⟨-, -, -, -, -, hvmid, -, -⟩ := fillEntry_fixed hfill
  rw [hvmid]
  refine ⟨fun hr hon => ?_, fun hr hoff => ?_, vmidTag_of_ne_el10⟩
  · rw [hr]; exact vmidTag_of_el2Enabled hon
  · rw [hr]; exact vmidTag_of_el2Disabled hoff

end Sys2Proof.Machine
end

section
/-! PROOF. From which entries a lookup answers (42_asid_vmid_tagging.md R161; 40_tlb_caching.md R119 to R123). -/

namespace Sys2Proof.Machine

/-- What a translation is made of, by the way it was obtained: the entry of a HIT; the entries of a HIT of each stage; an entry and a stage
2 walk; a draw from `M`; an entry and a draw from those for its output. A walk alone takes no final entry. -/
def MadeFrom (s : State) (pe : Pe) (req : Request) (payload : Payload) (ctl : Snapshot) : Via → Prop
  | .hit e => e ∈ hitMembers s pe req ∧ payload = e.payload ∧ ctl = e.ctl
  | .pair e1 e2 => e1 ∈ vaMembers s pe req ∧ e1.contents = .s1Only ∧ e2 ∈ oaMembers s pe req (outputFor e1 req.ia)
      ∧ payload = Config.combinedPayload e1.payload e2.payload ∧ ctl = e1.ctl ++ e2.ctl
  | .walk => True
  | .walkAfter e1 => e1 ∈ vaMembers s pe req ∧ e1.contents = .s1Only ∧ ∃ result, payload = Config.combinedPayload e1.payload result
  | .conflict => drawnFrom (members s pe req) payload ctl
  | .conflictAfter e1 => e1 ∈ vaMembers s pe req ∧ e1.contents = .s1Only ∧ ∃ payload2 ctl2,
      drawnFrom (oaMembers s pe req (outputFor e1 req.ia)) payload2 ctl2
      ∧ payload = Config.combinedPayload e1.payload payload2 ∧ ctl = e1.ctl ++ ctl2

/-- Where the answer of a state is a translation, it is made of what `MadeFrom` says of `s`. -/
def AnswersFrom (s : State) (pe : Pe) (req : Request) (t : State) : Prop :=
  ∀ req' tr, t.answer = some (.translated req' tr) → MadeFrom s pe req tr.payload tr.ctl tr.via

section
variable {s : State} {pe : Pe} {req : Request}

/-! ### Each way a lookup ends -/

theorem answersFrom_withAnswer {t : State} {a : Answer}
    (h : ∀ req' tr, a = .translated req' tr → MadeFrom s pe req tr.payload tr.ctl tr.via) : AnswersFrom s pe req (t.withAnswer a) :=
  fun req' tr htr => h req' tr (Option.some_inj.mp htr)

theorem answersFrom_respond {req' : Request} {payload : Payload} {ctl : Snapshot} {via : Via}
    (h : MadeFrom s pe req payload ctl via) : AnswersFrom s pe req (respond s req' payload ctl via) :=
  answersFrom_withAnswer fun _ _ htr => by cases htr; exact h

/-- A fault is no translation. -/
theorem answersFrom_raise {f : Fault} : AnswersFrom s pe req (raise s f) :=
  answersFrom_withAnswer fun _ _ htr => by cases htr

/-- The translation a walk gives is what is made of its result. -/
theorem answersFrom_walkAnswer {t : State} {translate : Payload → Translation} {w : Walk}
    (h : ∀ result, MadeFrom s pe req (translate result).payload (translate result).ctl (translate result).via) :
    AnswersFrom s pe req (t.withAnswer (walkAnswer req translate w)) := by
  refine answersFrom_withAnswer fun req' tr htr => ?_
  unfold walkAnswer at htr
  split at htr
  · next result _ => cases htr; exact h result
  · cases htr
  · cases htr

theorem answersFrom_miss {plan : WalkPlan} : AnswersFrom s pe req (miss s pe req plan) := by
  rw [miss_eq]; exact answersFrom_walkAnswer fun _ => trivial

theorem answersFrom_conflictOutcome {d : TlbEntry} (hd : d ∈ members s pe req) (c : ConflictPick) :
    AnswersFrom s pe req (conflictOutcome s req d (members s pe req) c) := by
  obtain rfl | hc := eq_or_ne c .abort
  · exact answersFrom_raise
  · obtain ⟨payload, ctl, hdrawn, heq⟩ := conflictOutcome_of_ne_abort s req hd hc
    rw [heq]; exact answersFrom_respond hdrawn

/-! ### The second lookup of an `S1Only` hit (R119) -/

section
variable {e1 : TlbEntry} (he1 : e1 ∈ vaMembers s pe req) (hc1 : e1.contents = .s1Only)
include he1 hc1

theorem answersFrom_missStage2 {plan : WalkPlan} : AnswersFrom s pe req (missStage2 s pe req e1 plan) := by
  rw [missStage2_eq]; exact answersFrom_walkAnswer fun result => ⟨he1, hc1, result, rfl⟩

theorem answersFrom_conflictStage2 {d : TlbEntry} (hd : d ∈ oaMembers s pe req (outputFor e1 req.ia)) (c : ConflictPick) :
    AnswersFrom s pe req (conflictStage2 s req e1 d (oaMembers s pe req (outputFor e1 req.ia)) c) := by
  obtain rfl | hc := eq_or_ne c .abort
  · exact answersFrom_raise
  · obtain ⟨payload, ctl, hdrawn, heq⟩ := conflictStage2_of_ne_abort s req e1 hd hc
    rw [heq]; exact answersFrom_respond ⟨he1, hc1, payload, ctl, hdrawn, rfl, rfl⟩

theorem answersFrom_lookupStage2 (ch : StageChoice) : AnswersFrom s pe req (lookupStage2 s pe req e1 ch) := by
  unfold lookupStage2
  split
  · split
    · next e2 hm => exact answersFrom_respond ⟨he1, hc1, hm ▸ List.mem_cons_self, rfl, rfl⟩
    · exact answersFrom_missStage2 he1 hc1
  · next c =>
    split
    · next d _ _ hm => rw [← hm]; exact answersFrom_conflictStage2 he1 hc1 (hm ▸ List.mem_cons_self) c
    · exact answersFrom_missStage2 he1 hc1
  · exact answersFrom_missStage2 he1 hc1

end

theorem answersFrom_hitEntry {e : TlbEntry} (he : e ∈ hitMembers s pe req) (ch : StageChoice) :
    AnswersFrom s pe req (hitEntry s pe req e ch) := by
  unfold hitEntry
  split
  · next hc => exact answersFrom_lookupStage2 (mem_vaMembers_of_hitMembers he hc.1) hc.1 ch
  · exact answersFrom_respond ⟨he, rfl, rfl⟩

/-- Every translation that a lookup answers is made of matching entries as its `via` says. -/
theorem answersFrom_lookup (ch : LookupChoice) : AnswersFrom s pe req (lookup s pe req ch) := by
  unfold lookup
  split
  · unfold lookupChosen
    split
    · split
      · next e hm => exact answersFrom_hitEntry (hm ▸ List.mem_cons_self) ch.second
      · exact answersFrom_miss
    · next c _ =>
      split
      · next d _ _ hm => rw [← hm]; exact answersFrom_conflictOutcome (hm ▸ List.mem_cons_self) c
      · exact answersFrom_miss
    · exact answersFrom_miss
  · exact answersFrom_withAnswer fun _ _ htr => by cases htr

end

/-- Settles O28: the entries a walk starts from by `walkEntries_lawful`, those an answer is made of by `answersFrom_lookup`, and what each
member of `M` is by the law of tags. -/
theorem hitObeysTags : Obligations.HitObeysTags := by
  intro s p pe ia access hpe req lawful stage1 stage2 disabled first
  have hlawful : ∀ {e a}, tagLaw s pe req e → coversAddress e a → lawful e a := by
    rintro e a ⟨hmem, huse, hregime, hsec, hasid, hvmid, hs1, hs2⟩ ⟨hlow, hhigh⟩
    exact ⟨hmem, huse, hregime, hsec, hasid, hvmid, hs1, hs2, hlow, hhigh⟩
  have hstage1 : ∀ {e}, e ∈ vaMembers s pe req → stage1 e := fun he => by
    obtain ⟨⟨htags, hfinal, hcovers⟩, hs1⟩ := mem_vaMembers.mp he
    exact ⟨hlawful htags hcovers, hfinal, hs1⟩
  have hstage2 : ∀ {oa e}, e ∈ oaMembers s pe req oa → stage2 oa e := fun he => by
    obtain ⟨⟨htags, hfinal, hcovers⟩, hs2⟩ := mem_oaMembers.mp he
    exact ⟨hlawful htags hcovers, hfinal, hs2⟩
  refine ⟨fun ks start e he => ?_, fun t ch rest tr hagenda hstep hanswer => ?_⟩
  · obtain ⟨htags, hfinal, hs1, hs2⟩ := walkEntries_lawful he
    refine ⟨hfinal, fun hc => ?_, fun hc => ?_⟩
    · obtain ⟨hroot, hcovers⟩ := hs1 hc
      exact ⟨hroot, hlawful htags hcovers⟩
    · obtain ⟨a, ha, hcovers⟩ := hs2 hc
      exact ⟨a, ha, hlawful htags hcovers⟩
  · obtain rfl := Host.Outcome.next.inj ((step_lookup hagenda hpe).symm.trans hstep)
    have hfrom : MadeFrom s pe req tr.payload tr.ctl tr.via := answersFrom_lookup (s := s.withAgenda rest) ch _ _ hanswer
    refine ⟨fun e hvia => ?_, fun e e' hvia => ?_, fun e hvia => ?_, fun hvia => ?_, fun e hvia => ?_⟩ <;> rw [hvia] at hfrom
    · obtain ⟨he, hpayload, hctl⟩ := hfrom
      exact ⟨(hitMembers_cases he).imp hstage1 fun ⟨hoff, he⟩ => ⟨hoff, hstage2 he⟩, hpayload, hctl⟩
    · obtain ⟨he, hc, he', hpayload, hctl⟩ := hfrom
      exact ⟨⟨hstage1 he, hc⟩, hstage2 he', hpayload, hctl⟩
    · obtain ⟨he, hc, hpayload⟩ := hfrom
      exact ⟨⟨hstage1 he, hc⟩, hpayload⟩
    · refine ⟨members s pe req, hfrom, fun e he => ?_⟩
      obtain he | ⟨hoff, he⟩ | ⟨e1, he1, hc, he⟩ := members_cases he
      · exact .inl (hstage1 he)
      · exact .inr (.inl ⟨hoff, hstage2 he⟩)
      · exact .inr (.inr ⟨e1, ⟨hstage1 he1, hc⟩, hstage2 he⟩)
    · obtain ⟨he, hc, payload, ctl, hdrawn, hpayload, hctl⟩ := hfrom
      exact ⟨⟨hstage1 he, hc⟩, _, payload, ctl, fun e' he' => hstage2 he', hdrawn, hpayload, hctl⟩

end Sys2Proof.Machine
end

section
/-! PROOF. The sizes of the identifiers (43_asid_vmid_size.md R201 to R205): what the identification fields read, how many bits of the ASID
field count, and what an operand with a non-zero upper byte leaves alone. -/

namespace Sys2Proof.Machine

/-! ### The identification fields (R201, R205) -/

theorem idAsidBits_eq_wide_iff (impl : Impl) : idAsidBits impl = 0b0010#4 ↔ impl.asidBits = .bits16 := by
  rw [idAsidBits]
  cases impl.asidBits <;> decide

theorem idVmidBits_eq_wide_iff (impl : Impl) : idVmidBits impl = 0b0010#4 ↔ impl.vmidBits = .bits16 := by
  rw [idVmidBits]
  cases impl.vmidBits <;> decide

/-- Settles O15: both fields are read off the parameters, which `step_keepsParameters` says every step keeps. -/
theorem identificationFieldsAreConstant : Obligations.IdentificationFieldsAreConstant := by
  intro s t h
  rw [(step_keepsParameters h).impl]
  exact ⟨rfl, rfl, idAsidBits_eq_wide_iff s.impl, idVmidBits_eq_wide_iff s.impl⟩

/-! ### The bits of the ASID field that count (R202, R204) -/

/-- AS = 0, an 8-bit implementation (D11) or VMSAv8-32 (R204): the low byte counts. -/
theorem effAsid_of_narrow {size : IdSize} {v8_32 asSize : Bool} (h : asSize = false ∨ size = .bits8 ∨ v8_32 = true) (raw : Ident) :
    effAsid size v8_32 asSize raw = lowByte raw := by
  obtain rfl | rfl | rfl := h
  · cases v8_32 <;> cases size <;> rfl
  · cases v8_32 <;> rfl
  · rfl

section
variable {impl : Impl} {pe : Pe} {regime : Regime} {x : CtlEl}

/-- Where the ASID has 8 bits, the current ASID is the low byte of the field that A2 and A1 select. -/
theorem currentAsid_of_narrow (hx : controllingEl regime = some x)
    (h : regBit impl pe.regs (.asSize x) = false ∨ impl.asidBits = .bits8 ∨ usesV8_32 impl pe regime = true) (half : Half) :
    currentAsid impl pe regime half = some (lowByte
      (regRead impl pe.regs (.asid (asidSelect (effBit impl pe (.a2 x)) (regBit impl pe.regs (.a1 x)) half) x))) := by
  rw [currentAsid_of_controllingEl hx, asidFor, effAsid_of_narrow h]

/-- A current ASID under AS = 0 has its upper byte 0; a regime that no level controls has none (R165). -/
theorem currentAsid_high_of_asSize_zero {half : Half} {a : Ident} (ha : currentAsid impl pe regime half = some a)
    (has : ∀ x, controllingEl regime = some x → regBit impl pe.regs (.asSize x) = false) : a.extractLsb' 8 8 = 0#8 := by
  obtain ⟨x, hx, -⟩ := Option.map_eq_some_iff.mp ha
  obtain rfl := Option.some.inj (ha.symm.trans (currentAsid_of_narrow hx (.inl (has x hx)) half))
  exact extractLsb'_high_lowByte _

end

/-- Settles O16: `currentAsid_of_narrow` for the three ways to an 8-bit ASID, `currentAsid_of_wide` for the whole field. -/
theorem asidSizeRule : Obligations.AsidSizeRule := by
  intro impl pe regime x half hx y
  refine ⟨fun hnarrow => ⟨_, currentAsid_of_narrow hx hnarrow half, extractLsb'_high_lowByte _, extractLsb'_low_lowByte _⟩, ?_⟩
  rintro ⟨has, hsize, hv8⟩
  rw [regRead_of_present (f := .asid y x) rfl]
  exact currentAsid_of_wide hx hsize hv8 has half

/-! ### The upper byte of an operand (R203) -/

/-- What a scope covers (45_tlbi_aside1.md R240): all sixteen bits of the tag are compared. -/
theorem Scope.covers_iff (c : Scope) (e : TlbEntry) : c.covers e = true ↔
    e.asid = some c.asid ∧ e.regime = c.regime ∧ e.sec = c.sec ∧ (e.vmid = none ∨ e.vmid = some c.vmid) := by
  simp only [Scope.covers, Bool.and_eq_true, Bool.or_eq_true, beq_iff_eq, and_assoc]

/-- A filled entry that has an ASID has the current one (R175). -/
theorem fillEntry_asid_current {impl : Impl} {pe : Pe} {req : Request} {w : Walk} {pick : FillPick} {e : TlbEntry} {a : Ident}
    (h : fillEntry impl pe req w pick = some e) (ha : e.asid = some a) :
    currentAsid impl pe req.regime (Config.halfOf req.regime req.ia) = some a := by
  obtain ⟨-, hnone⟩ | ⟨final, i, l, htag⟩ := fillEntry_asid h
  · cases hnone.symm.trans ha
  · rw [htag] at ha
    exact (Option.ite_none_right_eq_some.mp ha).2

/-- Settles O19: a covered entry has the operand as its ASID, which is then the current one of the PE that filled it. -/
theorem upperOperandByteMatchesNothing : Obligations.UpperOperandByteMatchesNothing := by
  intro impl pe issuer req w pick e a hfill has hhigh
  refine Bool.eq_false_iff.mpr fun hcovers => hhigh ?_
  obtain ⟨hasid, -⟩ := (Scope.covers_iff _ e).mp hcovers
  exact currentAsid_high_of_asSize_zero (fillEntry_asid_current hfill hasid) has

end Sys2Proof.Machine
end

section
/-! PROOF. Common not private (44_common_not_private.md R220 to R225): which CnP bits an entry's contents ask of a PE, at the fill that
makes the entry and at its use by another PE. -/

namespace Sys2Proof.Machine

/-! ### The CnP bits that the contents ask for (R223, R224) -/

section
variable {impl : Impl} {pe : Pe} {regime : Regime} {half : Option Half} {c : Contents}

/-- Stage 2 information alone asks for the bit of stage 2, in every regime (Log 47). -/
theorem cnpForEntry_s2Only_iff : cnpForEntry impl pe regime half .s2Only = true ↔
    impl.hasTtcnp = true ∧ effBit impl pe .vttbrCnp = true := by
  simp only [cnpForEntry, Bool.and_eq_true]

/-- Stage 1 information, alone or combined, asks for the bit of its base register, and in EL1&0 with EL2 enabled for that of stage 2. -/
theorem cnpForEntry_stage1_iff (hc : c ≠ .s2Only) : cnpForEntry impl pe regime half c = true ↔
    impl.hasTtcnp = true ∧ effBit impl pe (stage1CnpField regime half) = true
      ∧ (regime = .el10 → pe.ctx.el2Enabled = true → effBit impl pe .vttbrCnp = true) := by
  have stage2_iff : (!(regime == .el10 && pe.ctx.el2Enabled) || effBit impl pe .vttbrCnp) = true ↔
      (regime = .el10 → pe.ctx.el2Enabled = true → effBit impl pe .vttbrCnp = true) := by
    simp [imp_iff_not_or, or_assoc]
  cases c with
  | s2Only => exact absurd rfl hc
  | s1Only | s1s2 => simp only [cnpForEntry, Bool.and_eq_true, stage2_iff]

/-- R224 for every kind of contents: the clauses that O40 and O41 share. -/
theorem cnpForEntry_iff : cnpForEntry impl pe regime half c = true ↔
    impl.hasTtcnp = true
      ∧ (c = .s2Only → effBit impl pe .vttbrCnp = true)
      ∧ (c ≠ .s2Only → effBit impl pe (stage1CnpField regime half) = true)
      ∧ (c ≠ .s2Only → regime = .el10 → pe.ctx.el2Enabled = true → effBit impl pe .vttbrCnp = true) := by
  by_cases hc : c = .s2Only
  · subst hc
    simp [cnpForEntry_s2Only_iff]
  · simp [cnpForEntry_stage1_iff hc, hc]

end

/-- Settles O41: the `cnp` of a filled entry is `cnpForEntry` of its contents (`fillEntry_fixed`), which `cnpForEntry_iff` spells out. -/
theorem filledCnpNeedsBothStages : Obligations.FilledCnpNeedsBothStages := by
  intro impl pe req w pick e hfill
  obtain ⟨-, -, -, -, -, -, -, hcnp⟩ := fillEntry_fixed hfill
  rw [hcnp]
  exact cnpForEntry_iff

/-! ### Use by another PE (R225) -/

section
variable {s : State} {p q : Nat} {pe : Pe} {e : TlbEntry}

/-- One Inner Shareable domain, seen from a PE that exists: the other exists too and is in its domain (R225). -/
theorem innerShareable_iff (hq : s.pe? q = some pe) : innerShareable s p q = true ↔ ∃ o, s.pe? p = some o ∧ o.inner = pe.inner := by
  cases hp : s.pe? p <;> simp [innerShareable, hp, hq]

/-- A PE may use what it owns (R121). -/
theorem usable_own (h : e.owner = q) : usable s q e = true := by
  simp [usable, h]

/-- An entry of another PE: shareable as it was made, owned in the user's domain, and the user's own CnP bits are those asked for. -/
theorem usable_other_iff (hq : s.pe? q = some pe) (h : e.owner ≠ q) : usable s q e = true ↔
    e.cnp = true ∧ (∃ o, s.pe? e.owner = some o ∧ o.inner = pe.inner)
      ∧ cnpForEntry s.impl pe e.regime e.half e.contents = true := by
  have howner : (e.owner != q) = true := bne_iff_ne.mpr h
  simp only [usable, sharedUnderCnp, hq, howner, beq_eq_false_iff_ne.mpr h, Bool.false_or, Bool.and_true, Bool.and_eq_true,
    innerShareable_iff hq, and_assoc]

end

/-- Settles O40: `usable_own` for the PE's own entries; for another PE's, `usable_other_iff` with the bits as `cnpForEntry_iff` has them. -/
theorem sharingNeedsCnpOfBothStages : Obligations.SharingNeedsCnpOfBothStages := by
  intro s q pe e hq
  refine ⟨usable_own, fun hother => ?_⟩
  rw [usable_other_iff hq hother, cnpForEntry_iff]
  constructor
  · rintro ⟨hmade, hdomain, hfeature, hbits⟩
    exact ⟨hfeature, hmade, hdomain, hbits⟩
  · rintro ⟨hfeature, hmade, hdomain, hbits⟩
    exact ⟨hmade, hdomain, hfeature, hbits⟩

end Sys2Proof.Machine
end

section
/-! PROOF. The scope of the family, and the one record each of its members issues (45_tlbi_aside1.md R240 to R245, R248 to R250). -/

namespace Sys2Proof.Machine

/-! ### The scope (R240) -/

/-- Of the fields, the current VMID reads `VTTBR_EL2.VMID` and `VTCR_EL2.VS` alone (R172). -/
theorem currentVmid_set_of_ne (impl : Impl) (pe : Pe) {f : Field} (hvs : .vs ≠ f) (hvmid : .vmid ≠ f) (v : FieldValue) :
    currentVmid impl { pe with regs := pe.regs.set f v } = currentVmid impl pe := by
  have hread : ∀ g, g ≠ f → regRead impl (pe.regs.set f v) g = regRead impl pe.regs g := fun g hg => by
    rw [regRead, regRead, get_set, if_neg hg]
  simp only [currentVmid, regBit, hread _ hvs, hread _ hvmid]
  rfl

/-- Settles O13: the scope compares what `Scope.covers_iff` lists, and is made of the Security state and the current VMID. -/
theorem scopeIgnoresHalfAndA2 : Obligations.ScopeIgnoresHalfAndA2 := by
  refine fun impl pe a e => ⟨Scope.covers_iff _ e, fun _ => rfl, fun x v => ?_, fun _ => rfl⟩
  exact congrArg (Scope.mk a .el10 pe.ctx.sec) (currentVmid_set_of_ne impl pe (f := .a2 x) nofun nofun v)

/-! ### The targets (R242 to R244) -/

section
variable {s : State} {p : Nat} {pe : Pe}

/-- The PEs of the Inner Shareable domain of a PE that exists. -/
theorem mem_targetsInner_iff (hp : s.pe? p = some pe) (q : Nat) :
    q ∈ targetsInner s p ↔ ∃ other, s.pe? q = some other ∧ other.inner = pe.inner := by
  cases hq : s.pe? q with
  | none => simp [targetsInner, innerShareable, hp, hq]
  | some other => simp [targetsInner, innerShareable, hp, hq, pe?_lt hq, eq_comm (a := pe.inner)]

/-- The PEs of its Outer Shareable domain, with those of the Inner one. -/
theorem mem_targetsOuter_iff (hp : s.pe? p = some pe) (q : Nat) :
    q ∈ targetsOuter s p ↔ ∃ other, s.pe? q = some other ∧ (other.outer = pe.outer ∨ other.inner = pe.inner) := by
  cases hq : s.pe? q with
  | none => simp [targetsOuter, outerShareable, hp, hq]
  | some other => simp [targetsOuter, outerShareable, hp, hq, pe?_lt hq, eq_comm (a := pe.inner), eq_comm (a := pe.outer)]

end

/-! ### What every member of the family does (R241, R250) -/

/-- The features a form needs are implemented (Log 23). -/
def FormImplemented (impl : Impl) : Instr → Prop
  | .tlbiAside1 _ => True
  | .tlbiAside1is _ => True
  | .tlbiAside1os _ => impl.hasTlbiOs = true
  | .tlbiAside1nxs _ => impl.hasXs = true
  | .tlbiAside1isnxs _ => impl.hasXs = true
  | .tlbiAside1osnxs _ => impl.hasTlbiOs = true ∧ impl.hasXs = true

/-- The targets of a form that PE `p` executes. -/
def formTargets (s : State) (p : Nat) : Instr → List Nat
  | .tlbiAside1 _ => targetsLocal s p
  | .tlbiAside1is _ => targetsInner s p
  | .tlbiAside1os _ => targetsOuter s p
  | .tlbiAside1nxs _ => targetsLocal s p
  | .tlbiAside1isnxs _ => targetsInner s p
  | .tlbiAside1osnxs _ => targetsOuter s p

/-- Every form is the shared operation, with its own feature and its own targets. -/
theorem exec_eq_tlbi (i : Instr) (s : State) : ∃ feature, (feature = true ↔ FormImplemented s.impl i)
    ∧ exec i s = tlbi feature (formTargets s s.cur i) i.rt s := by
  cases i with
  | tlbiAside1 rt => exact ⟨true, by simp [FormImplemented], rfl⟩
  | tlbiAside1is rt => exact ⟨true, by simp [FormImplemented], rfl⟩
  | tlbiAside1os rt => exact ⟨s.impl.hasTlbiOs, Iff.rfl, rfl⟩
  | tlbiAside1nxs rt => exact ⟨s.impl.hasXs, Iff.rfl, rfl⟩
  | tlbiAside1isnxs rt => exact ⟨s.impl.hasXs, Iff.rfl, rfl⟩
  | tlbiAside1osnxs rt => exact ⟨s.impl.hasTlbiOs && s.impl.hasXs, Bool.and_eq_true_iff, rfl⟩

/-- The targets depend on the PEs alone. -/
theorem formTargets_congr {s t : State} (h : t.pes = s.pes) (p : Nat) (i : Instr) : formTargets t p i = formTargets s p i := by
  have hinner : innerShareable t p = innerShareable s p := funext fun q => by simp only [innerShareable, State.pe?, h]
  have houter : outerShareable t p = outerShareable s p := funext fun q => by simp only [outerShareable, State.pe?, h]
  cases i with
  | tlbiAside1 _ | tlbiAside1nxs _ => rfl
  | tlbiAside1is _ | tlbiAside1isnxs _ => simp only [formTargets, targetsInner, hinner, h]
  | tlbiAside1os _ | tlbiAside1osnxs _ => simp only [formTargets, targetsOuter, houter, h]

section
variable {s : State} {pe : Pe} {i : Instr}

/-- An implemented form of a PE that exists issues its record where `TLBI_ALLOWED` holds (R241), and is refused where it does not (R250). -/
theorem exec_of_implemented (hpe : s.pe? s.cur = some pe) (hform : FormImplemented s.impl i) :
    exec i s = if pe.ctx.tlbiAllowed then .next (issue s (tlbiRecord s s.cur pe (formTargets s s.cur i) i.rt))
      else .refused .tlbiNotAllowed := by
  obtain ⟨feature, hfeature, hexec⟩ := exec_eq_tlbi i s
  exact hexec.trans ((onPe_some _ hpe).trans (if_pos (hfeature.mpr hform)))

theorem exec_of_allowed (hpe : s.pe? s.cur = some pe) (hallowed : pe.ctx.tlbiAllowed = true) (hform : FormImplemented s.impl i) :
    exec i s = .next (issue s (tlbiRecord s s.cur pe (formTargets s s.cur i) i.rt)) :=
  (exec_of_implemented hpe hform).trans (if_pos hallowed)

/-- What a form that answers has issued: the record of its own targets. -/
theorem exec_next_issue {t : State} (h : exec i s = .next t) :
    ∃ pe, s.pe? s.cur = some pe ∧ t = issue s (tlbiRecord s s.cur pe (formTargets s s.cur i) i.rt) := by
  obtain ⟨feature, -, hexec⟩ := exec_eq_tlbi i s
  obtain ⟨pe, hpe, -, -, ht⟩ := tlbi_next (hexec.symm.trans h)
  exact ⟨pe, hpe, ht⟩

end

/-- Settles O6: the target of a local form is the executing PE. -/
theorem localFormsIssueOneRecord : Obligations.LocalFormsIssueOneRecord := fun _ _ rt hpe hallowed =>
  ⟨exec_of_allowed (i := .tlbiAside1 rt) hpe hallowed trivial, fun hxs => exec_of_allowed (i := .tlbiAside1nxs rt) hpe hallowed hxs⟩

/-- Settles O7: the targets of an `IS` form are those of `mem_targetsInner_iff`. -/
theorem innerFormsIssueOneRecord : Obligations.InnerFormsIssueOneRecord := fun s _ rt hpe hallowed =>
  ⟨targetsInner s s.cur, mem_targetsInner_iff hpe, exec_of_allowed (i := .tlbiAside1is rt) hpe hallowed trivial,
    fun hxs => exec_of_allowed (i := .tlbiAside1isnxs rt) hpe hallowed hxs⟩

/-- Settles O8: the targets of an `OS` form are those of `mem_targetsOuter_iff`. -/
theorem outerFormsIssueOneRecord : Obligations.OuterFormsIssueOneRecord := fun s _ rt hpe hallowed hos =>
  ⟨targetsOuter s s.cur, mem_targetsOuter_iff hpe, exec_of_allowed (i := .tlbiAside1os rt) hpe hallowed hos,
    fun hxs => exec_of_allowed (i := .tlbiAside1osnxs rt) hpe hallowed ⟨hos, hxs⟩⟩

/-- Settles O9: the answer is `issue`, which writes `PENDING` alone. -/
theorem issueRemovesNothing : Obligations.IssueRemovesNothing := by
  intro i s t h
  obtain ⟨pe, hpe, rfl⟩ := exec_next_issue h
  exact ⟨pe, hpe, rfl, rfl, rfl, rfl, rfl, rfl, rfl, rfl, rfl, fun _ _ => rfl⟩

/-- Settles O11: the form is implemented and `TLBI_ALLOWED` does not hold. -/
theorem notAllowedIsRefused : Obligations.NotAllowedIsRefused := fun _ _ _ hpe hallowed hform =>
  (exec_of_implemented hpe hform).trans (if_neg (Bool.eq_false_iff.mp hallowed))

end Sys2Proof.Machine
end

section
/-! PROOF. What the completion of an invalidation leaves of `TLBS`, `SYNC`, and the two together with the instruction
(45_tlbi_aside1.md R246, R247; 41_tlb_lockdown.md R142, R145; 70_reset_and_hazards.md R308). -/

namespace Sys2Proof.Machine

/-! ### One record (R246) -/

section
variable {s : State} {r : Pending} {e : TlbEntry}

theorem covers_of_inScope (h : inScope s r e = true) : r.scope.covers e = true := (Bool.and_eq_true_iff.mp h).1

/-- What a scope does not cover its record does not reach. -/
theorem inScope_of_not_covers (h : r.scope.covers e = false) : inScope s r e = false := by
  rw [inScope, h, Bool.false_and]

/-- An update of a locked entry is the same owner's, and locked (R145). -/
theorem lockedUpdate_owner_locked {x : TlbEntry} {u : LockedUpdate} (h : lockedUpdate s e u = some x) :
    x.owner = e.owner ∧ x.locked = e.locked := by
  obtain ⟨pe, n, result, -, -, -, -, -, -, -, rfl⟩ := lockedUpdate_cases h
  exact ⟨rfl, rfl⟩

/-- Every unlocked entry that a completion leaves is one its record does not reach. -/
theorem inScope_of_mem_completeEntries {fates : List LockedFate} {es : List TlbEntry} (he : e ∈ completeEntries s r fates es)
    (hlock : e.locked = false) : inScope s r e = false := by
  have hunlocked : ¬ e.locked = true := Bool.eq_false_iff.mp hlock
  obtain ⟨-, hout⟩ | ⟨e', -, hlock', -, u, hu⟩ := completeEntries_mem s r es fates e he
  · exact hout.resolve_right hunlocked
  · exact absurd ((lockedUpdate_owner_locked hu).2.trans hlock') hunlocked

end

/-- Settles O37: the step is the completion, and the clauses on entries are those of `completeEntries` (Log 41). -/
theorem completionRemovesTheScope : Obligations.CompletionRemovesTheScope := by
  intro s k fates r rest hagenda hr
  have hstep : step s = .next (complete (s.withAgenda rest) k fates) := step_of_agenda hagenda
  rw [complete_of_record (s := s.withAgenda rest) hr] at hstep
  refine ⟨_, hstep, rfl, rfl, rfl, rfl, fun e he hlock => ?_, fun e he hout => ?_, fun e he => ?_⟩
  · have hunreached : inScope (s.withAgenda rest) r e = false := inScope_of_mem_completeEntries he hlock
    exact inScope_eq_false.mp ((inScope_congr rfl rfl r e).trans hunreached)
  · exact completeEntries_keeps _ r _ fates e he (inScope_of_not_covers hout)
  · obtain ⟨he, -⟩ | ⟨e', he', hlock', hscope, u, hu⟩ := completeEntries_mem _ r _ fates e he
    · exact .inl he
    · obtain ⟨howner, hlock⟩ := lockedUpdate_owner_locked hu
      exact .inr ⟨e', he', hlock', covers_of_inScope hscope, howner, hlock.trans hlock'⟩

/-! ### The records of an issuer (R247) -/

section
variable {p : Nat}

/-- An entry that no record of the issuer reaches stays. -/
theorem completeIssuer_keeps {e : TlbEntry} (rs : List Pending) (fates : List (List LockedFate)) (s : State) (he : e ∈ s.tlbs)
    (hout : ∀ r ∈ rs, r.issuer = p → inScope s r e = false) : e ∈ (completeIssuer p rs fates s).tlbs := by
  induction rs generalizing fates s with
  | nil => exact he
  | cons r rs ih =>
    obtain ⟨hr, hrs⟩ := List.forall_mem_cons.mp hout
    rw [completeIssuer]
    split
    · next hissuer =>
      refine ih _ _ (completeEntries_keeps s r s.tlbs _ e he (hr hissuer)) fun r' hr' hissuer' => ?_
      rw [inScope_congr (invalidate_impl ..) (invalidate_pes ..)]
      exact hrs r' hr' hissuer'
    · exact ih _ _ he hrs

/-- Where the issuer has no record there is nothing to complete. -/
theorem completeIssuer_of_noRecord {rs : List Pending} (h : ∀ r ∈ rs, r.issuer ≠ p) (fates : List (List LockedFate)) (s : State) :
    completeIssuer p rs fates s = s := by
  induction rs with
  | nil => rfl
  | cons r rs ih =>
    obtain ⟨hr, hrs⟩ := List.forall_mem_cons.mp h
    exact (if_neg hr).trans (ih hrs)

theorem sync_of_noRecord {s : State} (h : ∀ r ∈ s.pending, r.issuer ≠ p) (fates : List (List LockedFate)) : sync s p fates = s := by
  have hkept : (s.pending.filter fun r => r.issuer != p) = s.pending :=
    List.filter_eq_self.mpr fun r hr => bne_iff_ne.mpr (h r hr)
  rw [sync, completeIssuer_of_noRecord h, hkept]
  rfl

end

/-- Settles O38: `completeIssuer_outOfScope` for what goes, `completeIssuer_keeps` for what stays. -/
theorem syncWaitsForItsRecords : Obligations.SyncWaitsForItsRecords := by
  intro s p pe fates rest hagenda hpe
  have hstep : step s = .next (sync (s.withAgenda rest) p fates) := (step_of_agenda hagenda).trans (onPe_some _ hpe)
  refine ⟨_, hstep, rfl, sync_pes .., (KeepsPesAndMemory.sync ..).mem, sync_impl .., fun r hr hissuer e he hlock => ?_,
    fun e he hout => ?_, fun hnone => sync_of_noRecord (s := s.withAgenda rest) hnone fates⟩
  · exact inScope_eq_false.mp ((inScope_congr (sync_impl ..) (sync_pes ..) r e).trans
      (completeIssuer_outOfScope hissuer s.pending fates _ hr e he hlock))
  · exact completeIssuer_keeps s.pending fates (s.withAgenda rest) he fun r hr hissuer => inScope_of_not_covers (hout r hr hissuer)

/-! ### The instruction and its `SYNC` (E1) -/

/-- The step of an implemented form that is allowed: the record of its PE, and the word taken off the agenda. -/
theorem step_of_allowed {s : State} {p : Nat} {pe : Pe} {w : Word} {i : Instr} {rest : List Event}
    (hagenda : s.agenda = .instr p w :: rest) (hpe : s.pe? p = some pe) (hdecode : decode w = .ok i)
    (hallowed : pe.ctx.tlbiAllowed = true) (hform : FormImplemented s.impl i) :
    step s = .next (issue ((s.withAgenda rest).withCur p) (tlbiRecord s p pe (formTargets s p i) i.rt)) := by
  rw [step_instr hagenda, runWord_of_decode hdecode, exec_of_allowed (s := (s.withAgenda rest).withCur p) hpe hallowed hform,
    formTargets_congr (s := s) rfl]
  rfl

/-- Settles O39: the instruction issues its record, whose scope covers the entries of the ASID; by O38 the `SYNC` leaves no unlocked one of
them to a target. -/
theorem asidIsGoneAfterTlbiAndSync : Obligations.AsidIsGoneAfterTlbiAndSync := by
  intro s p pe w i fates rest hagenda hpe hdecode hallowed hform
  obtain ⟨u, hsync, hpending, hpes, -, -, hgone, -⟩ := syncWaitsForItsRecords
    (issue ((s.withAgenda (.sync p fates :: rest)).withCur p) (tlbiRecord s p pe (formTargets s p i) i.rt)) p pe fates rest rfl hpe
  refine ⟨_, u, step_of_allowed hagenda hpe hdecode hallowed hform, rfl, hsync, hpes, fun r hr => ?_,
    fun q hq e he hlock hasid hregime hsec hvmid => ?_⟩
  · rw [hpending] at hr
    exact bne_iff_ne.mp (List.mem_filter.mp hr).2
  · have hcovers : (scopeAside1 s.impl pe (asidOperand (xRead pe i.rt))).covers e = true :=
      (Scope.covers_iff _ e).mpr ⟨hasid, hregime, hsec, hvmid⟩
    have hnew : tlbiRecord s p pe (formTargets s p i) i.rt ∈ s.pending ++ [tlbiRecord s p pe (formTargets s p i) i.rt] :=
      List.mem_append_right _ (List.mem_singleton_self _)
    obtain ⟨-, hunusable⟩ := hgone _ hnew rfl e he hlock hcovers
    exact hunusable q hq

end Sys2Proof.Machine
end

section
/-! PROOF. When a lockdown exception is taken, and by which route (60_exceptions.md R265). -/

namespace Sys2Proof.Machine

variable {s : State} {p : Nat} {pe : Pe}

/-- Where R265 speaks, the exception takes the implemented route. -/
theorem lockdownException_of_el2Enabled (hsup : s.impl.lockdownSupported = true) (hel2 : pe.ctx.el2Enabled = true)
    (hel : pe.ctx.el = .el0 ∨ pe.ctx.el = .el1) :
    lockdownException s p pe = .next (raise s (lockdownFault p s.impl.lockdownRoute)) := by
  have htaken : (pe.ctx.el2Enabled && (pe.ctx.el == .el0 || pe.ctx.el == .el1)) = true := by simpa [hel2] using hel
  exact (if_pos hsup).trans (if_pos htaken)

/-- The exception is refused, or all of R265's condition holds. -/
theorem lockdownException_refused_or (s : State) (p : Nat) (pe : Pe) : (∃ r, lockdownException s p pe = .refused r) ∨
    s.impl.lockdownSupported = true ∧ pe.ctx.el2Enabled = true ∧ (pe.ctx.el = .el0 ∨ pe.ctx.el = .el1) := by
  unfold lockdownException
  split
  · next hsup =>
    split
    · next htaken => exact .inr ⟨hsup, by simpa using htaken⟩
    · exact .inl ⟨_, rfl⟩
  · exact .inl ⟨_, rfl⟩

/-- Settles O45: `lockdownException_of_el2Enabled` at each route, and `lockdownException_refused_or` elsewhere. -/
theorem lockdownExceptionRoute : Obligations.LockdownExceptionRoute := by
  intro s p pe rest hagenda hpe condition
  have hstep : step s = lockdownException (s.withAgenda rest) p pe := (step_of_agenda hagenda).trans (onPe_some _ hpe)
  have htaken (h : condition) : step s = .next (raise (s.withAgenda rest) (lockdownFault p s.impl.lockdownRoute)) := by
    obtain ⟨hsup, hel2, hel⟩ := h
    exact hstep.trans (lockdownException_of_el2Enabled (s := s.withAgenda rest) hsup hel2 hel)
  refine ⟨fun h hroute => ?_, fun h hroute => ?_, fun h => ?_⟩
  · rw [htaken h, hroute]; rfl
  · rw [htaken h, hroute]; rfl
  · rw [hstep]
    exact (lockdownException_refused_or (s.withAgenda rest) p pe).resolve_right h

end Sys2Proof.Machine
end

section
/-! PROOF. What two PEs that agree as R304 asks of software make of one walk (70_reset_and_hazards.md R304; 44_common_not_private.md R222;
42_asid_vmid_tagging.md R175). -/

namespace Sys2Proof.Machine

/-- The snapshot reads the Effective values of the cacheable fields alone (R24, R113). -/
theorem ctlSnapshot_congr {impl : Impl} {a b : Pe} (h : ∀ f ∈ cacheableFields impl, eff impl a f = eff impl b f) (regime : Regime)
    (c : Contents) : ctlSnapshot impl a regime c = ctlSnapshot impl b regime c :=
  List.map_congr_left fun f hf => congrArg (Prod.mk f) (h f (List.mem_of_mem_filter hf))

/-- A VMID tag is the current VMID (R173). -/
theorem vmidTag_of_ne_none {impl : Impl} {pe : Pe} {regime : Regime} (h : vmidTag impl pe regime ≠ none) :
    vmidTag impl pe regime = some (currentVmid impl pe) := by
  unfold vmidTag at h ⊢
  split
  · rfl
  · next hoff => exact absurd (if_neg hoff) h

/-- Settles O42: the tags and the snapshot of a filled entry are functions of what the two PEs agree on. -/
theorem agreeingPesFillAlike : Obligations.AgreeingPesFillAlike := by
  intro impl a b req w pick e hagrees hfill
  obtain ⟨-, hasid, hvmid, hfields⟩ := hagrees
  obtain ⟨-, -, -, -, -, htag, hctl, -⟩ := fillEntry_fixed hfill
  refine ⟨hctl.trans (ctlSnapshot_congr hfields ..), fun hne => ?_, fun hne => ?_⟩
  · obtain ⟨i, hi⟩ := Option.ne_none_iff_exists'.mp hne
    rw [hi, ← hasid, fillEntry_asid_current hfill hi]
  · rw [htag] at hne ⊢
    rw [vmidTag_of_ne_none hne, hvmid]

end Sys2Proof.Machine
end

section
/-! PROOF. What `T_RESET` leaves of the registers and of `TLBS`, and the lookup that follows it (70_reset_and_hazards.md R290, R291;
10_state.md R35). -/

namespace Sys2Proof.Machine

/-! ### The entries of the reset PE (R35, R290; Log 27) -/

section
variable {impl : Impl} {p : Nat} {e x : TlbEntry} {es : List TlbEntry} {draw : ResetDraw}

/-- What `RESET_TLB_STATE = preserved` may make of an entry: its lock alone is drawn, of the reset PE's where lockdown is supported. -/
def KeptButLock (impl : Impl) (p : Nat) (e x : TlbEntry) : Prop :=
  ∃ b, x = setLocked b e ∧ (e.owner ≠ p ∨ impl.lockdownSupported = false → b = e.locked)

theorem KeptButLock.refl (impl : Impl) (p : Nat) (e : TlbEntry) : KeptButLock impl p e e := ⟨e.locked, rfl, fun _ => rfl⟩

theorem KeptButLock.eq_of_owner_ne (h : KeptButLock impl p e x) (howner : e.owner ≠ p) : x = e := by
  obtain ⟨b, rfl, hb⟩ := h
  rw [hb (.inl howner)]
  rfl

/-- `relock` keeps every entry at its place, but for its lock. -/
theorem relock_forall₂ (bs : List Bool) (es : List TlbEntry) : List.Forall₂ (KeptButLock impl p) es (relock impl p bs es) := by
  induction es generalizing bs with
  | nil => exact .nil
  | cons e es ih =>
    unfold relock
    split
    · next hown =>
      cases bs with
      | nil => exact .cons (.refl impl p e) (ih [])
      | cons b bs =>
        obtain ⟨howner, hsup⟩ := hown
        refine .cons ⟨b, rfl, fun hfixed => ?_⟩ (ih bs)
        exact hfixed.elim (absurd howner) fun hoff => absurd hoff (Bool.ne_false_iff.mpr hsup)
    · exact .cons (.refl impl p e) (ih bs)

theorem relock_getElem? {k : Nat} (hk : es[k]? = some e) (bs : List Bool) :
    ∃ x, (relock impl p bs es)[k]? = some x ∧ KeptButLock impl p e x := by
  have hrelock := relock_forall₂ (impl := impl) (p := p) bs es
  obtain ⟨hlt, rfl⟩ := List.getElem?_eq_some_iff.mp hk
  have hlt' : k < (relock impl p bs es).length := hrelock.length_eq ▸ hlt
  exact ⟨_, List.getElem?_eq_getElem hlt', hrelock.get hlt hlt'⟩

theorem resetEntries_of_empty (h : impl.resetTlbState = .empty) : resetEntries impl p draw es = es.filter fun e => e.owner != p := by
  simp only [resetEntries, h]

theorem resetEntries_of_unknown (h : impl.resetTlbState = .unknown) :
    resetEntries impl p draw es = (es.filter fun e => e.owner != p) ++ draw.entries.map (unknownEntry impl p) := by
  simp only [resetEntries, h]

theorem resetEntries_of_preserved (h : impl.resetTlbState = .preserved) :
    resetEntries impl p draw es = relock impl p draw.locks es := by
  simp only [resetEntries, h]

/-- The entries of other PEs stay, whatever `RESET_TLB_STATE` is. -/
theorem mem_resetEntries_of_owner_ne (he : e ∈ es) (howner : e.owner ≠ p) : e ∈ resetEntries impl p draw es := by
  have hkept : e ∈ es.filter fun e => e.owner != p := List.mem_filter.mpr ⟨he, bne_iff_ne.mpr howner⟩
  cases hstate : impl.resetTlbState with
  | unknown => rw [resetEntries_of_unknown hstate]; exact List.mem_append_left _ hkept
  | empty => rw [resetEntries_of_empty hstate]; exact hkept
  | preserved =>
    obtain ⟨k, hk⟩ := List.getElem?_of_mem he
    obtain ⟨x, hx, hkeeps⟩ := relock_getElem? (impl := impl) (p := p) hk draw.locks
    obtain rfl := hkeeps.eq_of_owner_ne howner
    rw [resetEntries_of_preserved hstate]
    exact List.mem_of_getElem? hx

end

/-! ### The reset PE, and the others (R35, R290) -/

section
variable {s : State} {p : Nat} {pe : Pe} {el : RegEl} {draw : ResetDraw}

/-- Every field is drawn but the one that the reset writes. -/
theorem resetPe_get (f : Field) : (resetPe pe el draw).regs.get f = if f = .sctlrM el then 0 else draw.regs.get f := by
  have hzero : fieldTrunc (.sctlrM el) 0 = 0 := by simp [fieldTrunc]
  rw [resetPe, get_set, hzero]

/-- Stage 1 of a regime that the reset bit controls is disabled. -/
theorem stageEnabled_resetPe {regime : Regime} (h : sctlrOf regime = el) (impl : Impl) :
    stageEnabled impl (resetPe pe el draw) regime .s1 = false := by
  refine Bool.eq_false_iff.mpr fun hon => ?_
  have hone := (stageEnabled_s1_iff ..).mp hon
  rw [h, resetPe_get, if_pos rfl] at hone
  exact absurd hone (by decide)

theorem resetAct_pe?_self (hpe : s.pe? p = some pe) (pe' : Pe) :
    (resetAct s p pe' el draw).pe? p = some (resetPe pe' el draw) := by
  rw [resetAct, withPe_pe?, if_pos rfl]
  exact if_pos (pe?_lt hpe)

theorem resetAct_pe?_of_ne {q : Nat} (hq : q ≠ p) : (resetAct s p pe el draw).pe? q = s.pe? q := by
  rw [resetAct, withPe_pe?, if_neg hq.symm]
  rfl

/-- A possible reset of an existing PE, at the head of the agenda. -/
theorem step_reset {rest : List Event} (hagenda : s.agenda = .reset p el draw :: rest) (hpe : s.pe? p = some pe)
    (h : resetPossible s.impl el draw = true) : step s = .next (resetAct (s.withAgenda rest) p pe el draw) :=
  ((step_of_agenda hagenda).trans (onPe_some _ hpe)).trans (if_pos h)

end

/-- Settles O46: the PE that `resetPe` leaves, and the entries that `resetEntries` leaves. -/
theorem resetEffect : Obligations.ResetEffect := by
  intro s p pe el draw rest hagenda hpe hpossible
  refine ⟨_, _, step_reset hagenda hpe hpossible, resetAct_pe?_self (s := s.withAgenda rest) hpe pe,
    fun q hq => resetAct_pe?_of_ne (s := s.withAgenda rest) hq, ?_, fun f hf => ?_, rfl, rfl, rfl, rfl, rfl, rfl, rfl,
    fun e he => mem_resetEntries_of_owner_ne he, fun e he howner => ?_, resetEntries_of_empty, resetEntries_of_unknown,
    fun hstate => ?_⟩
  · rw [resetPe_get, if_pos rfl]
  · rw [resetPe_get, if_neg hf]
  · exact (mem_resetEntries he).resolve_right howner
  · have htlbs : (resetAct (s.withAgenda rest) p pe el draw).tlbs = relock s.impl p draw.locks s.tlbs :=
      resetEntries_of_preserved hstate
    rw [htlbs]
    refine ⟨(relock_forall₂ ..).length_eq.symm, fun k e hk => ?_⟩
    obtain ⟨x, hx, b, rfl, hb⟩ := relock_getElem? (impl := s.impl) (p := p) hk draw.locks
    exact ⟨b, hx, hb⟩

/-- Settles O47: neither stage is applied after the reset, so O30 gives the lookup. -/
theorem untranslatedAfterReset : Obligations.UntranslatedAfterReset := by
  intro s p pe el draw ia access ch rest hagenda hpe hpossible hcontrols hstage2
  have hself := resetAct_pe?_self (s := s.withAgenda (.lookup p ia access ch :: rest)) (el := el) (draw := draw) hpe pe
  have hoff2 : stage2Applies s.impl (resetPe pe el draw) draw.ctx.regime = false := by
    refine Bool.eq_false_iff.mpr fun hon => ?_
    obtain ⟨hregime, hel2, hs2⟩ := (stage2Applies_iff ..).mp hon
    exact (hstage2 hregime).elim (Bool.ne_false_iff.mpr hel2) (Bool.ne_false_iff.mpr hs2)
  exact ⟨_, _, _, step_reset hagenda hpe hpossible,
    disabledStagesUntranslated _ p _ ia access ch rest rfl hself (stageEnabled_resetPe hcontrols s.impl) hoff2, rfl, rfl⟩

end Sys2Proof.Machine
end

section
/-! PROOF. What the invalidation routine leaves of `TLBS` and `PENDING` (70_reset_and_hazards.md R293; 45_tlbi_aside1.md R246, R247). -/

namespace Sys2Proof.Machine

/-- A completion makes no entry of a PE that has none: an update keeps the owner (R145). -/
theorem completeEntries_owner_ne {s : State} {r : Pending} {fates : List LockedFate} {es : List TlbEntry} {p : Nat}
    (h : ∀ e ∈ es, e.owner ≠ p) : ∀ e ∈ completeEntries s r fates es, e.owner ≠ p := by
  intro e he
  obtain ⟨hmem, -⟩ | ⟨e', hmem', -, -, u, hu⟩ := completeEntries_mem s r es fates e he
  · exact h e hmem
  · obtain ⟨howner, -⟩ := lockedUpdate_owner_locked hu
    exact ne_of_eq_of_ne howner (h e' hmem')

theorem sync_owner_ne {s : State} {p q : Nat} {fates : List (List LockedFate)} (h : ∀ e ∈ s.tlbs, e.owner ≠ q) :
    ∀ e ∈ (sync s p fates).tlbs, e.owner ≠ q :=
  completeIssuer_induct (P := fun e => e.owner ≠ q) p s.pending s.impl s.pes (fun _ _ _ _ _ => completeEntries_owner_ne) fates s rfl rfl h

/-- A `SYNC` of an existing PE, at the head of the agenda. -/
theorem step_sync {s : State} {p : Nat} {pe : Pe} {fates : List (List LockedFate)} {rest : List Event}
    (hagenda : s.agenda = .sync p fates :: rest) (hpe : s.pe? p = some pe) : step s = .next (sync (s.withAgenda rest) p fates) :=
  (step_of_agenda hagenda).trans (onPe_some _ hpe)

/-- Settles O48: the routine removes the entries of the PE, and what its own `SYNC` does to the rest is O38. -/
theorem routineEmptiesTheTlb : Obligations.RoutineEmptiesTheTlb := by
  intro s p pe fates rest hagenda hpe
  have hstep : step s = .next (invalidationRoutine (s.withAgenda rest) p fates) := (step_of_agenda hagenda).trans (onPe_some _ hpe)
  obtain ⟨t, hsync, hpending, hpes, hmem, himpl, hgone, hkept, -⟩ := syncWaitsForItsRecords
    ((s.withTlbs (s.tlbs.filter fun e => e.owner != p)).withAgenda (.sync p fates :: rest)) p pe fates rest rfl hpe
  obtain rfl := Host.Outcome.next.inj (hsync.symm.trans (step_sync rfl hpe))
  refine ⟨_, hstep, sync_owner_ne fun e he => ?_, hpending, hgone, fun e he howner => ?_, hpes, hmem, himpl⟩
  · exact bne_iff_ne.mp (List.mem_filter.mp he).2
  · exact hkept e (List.mem_filter.mpr ⟨he, bne_iff_ne.mpr howner⟩)

end Sys2Proof.Machine
end
